-- ==== Sys2Proof/Word.lean ====
section
/-! DEFINITION. The plain data every other file is written in: bytes, the colour-order permutation and the
Device Handle (spec/10_state.md rules R20 to R28). Nothing here says what a value does. -/

namespace Sys2Proof

/-- A byte: a port register, a mask, a pixel byte, the shift register (R8, R23, R28, R42). -/
abbrev Byte := BitVec 8

/-- `DEV.ORDER[0..2]` (R25): three elements of 2 bits, element `j` the offset inside a Pixel Record of the byte sent
in wire position `j`. Nothing here says that the elements are a permutation: that is `WF_DEV` (R26). -/
structure Order where
  o0 : BitVec 2
  o1 : BitVec 2
  o2 : BitVec 2
deriving DecidableEq, Repr

/-- The Device Handle (R20): the operand every command takes, passed by value (R21, D29). The port address (R22) and
the reset time (R24) have the widths `ADDR_W` and `DELAY_W`, which are parameters of an instance (Table P1): they are
natural numbers here, and that they fit their width is a well-formedness condition (log 2). -/
structure Handle where
  port    : Nat
  maskHi  : Byte
  maskLo  : Byte
  resetUs : Nat
  order   : Order
deriving DecidableEq, Repr

/-- The operand registers: the handle operand, `ARG_BASE` and `ARG_COUNT` of R39, and the model's own latches for the
operands of a micro-operation that is run by itself (log 6): the byte of TXBYTE, the record address of TXPIXEL, the
microseconds of DELAY_US. `dev = none` is the spec's own state "never populated" (R20), not a missing reset value. -/
structure Operands where
  dev   : Option Handle
  base  : Nat
  count : Nat
  ub    : Byte
  uaddr : Nat
  un    : Nat
deriving DecidableEq, Repr

end Sys2Proof
end

