-- ==== Sys2Proof/Config.lean ====
section
/-! DEFINITION. The parameters of one instance of the core (spec/00_scope.md rule R7, Table P1), the constants of the
source, and the free values. What is computed FROM the parameters stands in Machine/Timing.lean. -/

namespace Sys2Proof

/-- `DELAY_W` (R9): the two legal widths of the microsecond count. -/
inductive DelayWidth where
  | w8
  | w16
deriving DecidableEq, Repr

/-- `DELAY_IRQ_MODE` (R236): whether DELAY_US masks interrupts itself, and how it unmasks them. -/
inductive IrqMode where
  /-- `none`: the delay leaves `IE` alone. -/
  | leaveAlone
  /-- `save_restore`: clear `IE` before the wait, put back what it was after. -/
  | saveRestore
  /-- `disable_enable`: clear `IE` before the wait, set it after. -/
  | disableEnable
deriving DecidableEq, Repr

/-- `TX_CLOSED` (R251): what TRANSMIT does while the session is Closed. -/
inductive TxClosed where
  | fault
  | emit
deriving DecidableEq, Repr

/-- Table P1 (R7): the configuration record, constant for the life of one instance. `CMD_OVH` is not here: it is a draw
(R320). `PORT_W` is 8 (R8), the width of `Byte`. -/
structure Config where
  /-- `F_CLK`, Hz. OPEN: no claim may rest on its value. -/
  fClk : Nat
  /-- `N_1H`, `N_1L`, `N_0H`, `N_0L`: the segment lengths in clock cycles (R106, R141). -/
  n1H : Nat
  n1L : Nat
  n0H : Nat
  n0L : Nat
  /-- `FIX_x`: the cycles of each segment that are not padding (R142). -/
  fix1H : Nat
  fix1L : Nat
  fix0H : Nat
  fix0L : Nat
  /-- `GAP_BYTE`, `GAP_PIXEL`: extra low cycles (R175). -/
  gapByte : Nat
  gapPixel : Nat
  /-- `ADDR_W`, `COUNT_W`, `DELAY_W`: widths in bits. -/
  addrW : Nat
  countW : Nat
  delayW : DelayWidth
  /-- `DELAY_ITER_CYC`, `DELAY_OVH`: the delay loop's cycles (R231, R232). -/
  delayIterCyc : Nat
  delayOvh : Nat
  irqMode : IrqMode
  txClosed : TxClosed
  /-- `STRIP_RESET_US`: the observer's reset/latch threshold (R47 c). -/
  stripResetUs : Nat
  /-- `CFG_ERR_NO_DEVICE`, `CFG_ERR_PIN_GROUP` (R119): recorded, used by no operation of the core. -/
  cfgErrNoDevice : Int
  cfgErrPinGroup : Int
deriving DecidableEq, Repr

/-- `CFG_OK` (R119): the external configuration step's code for success. -/
def Config.cfgOk : Int := 0

/-- The source's targets in nanoseconds (R140, Table P1). -/
def Config.t1HNs : Nat := 700
def Config.t1LNs : Nat := 600
def Config.t0HNs : Nat := 350
def Config.t0LNs : Nat := 800
/-- `TOL_NS` and `T0L_MIN_NS` (R140, R144). -/
def Config.tolNs : Nat := 150
def Config.t0LMinNs : Nat := 450

/-- A FREE VALUE (log 13): what `draw(0, unbounded)` of R12 gives at the `n`-th draw of a run. It has no body: nothing
can be proved of its values, so whatever is proved holds for every draw. Command overhead (R320), interrupt handlers
inside a delay (R235) and idle time (R45) are drawn from it. -/
opaque Config.draw : Nat → Nat

/-- The reference instance of 95_test_vectors.md: the values of Table P1 at the worked clock of 16 MHz. A claim holds
for every configuration; this one is only where `State.reset` starts (log 1, DESIGN CHOICE for the OPEN parameters). -/
def Config.reference : Config where
  fClk := 16000000
  n1H := 11
  n1L := 10
  n0H := 6
  n0L := 13
  fix1H := 1
  fix1L := 1
  fix0H := 1
  fix0L := 1
  gapByte := 0
  gapPixel := 0
  addrW := 16
  countW := 16
  delayW := .w16
  delayIterCyc := 1
  delayOvh := 1
  irqMode := .leaveAlone
  txClosed := .fault
  stripResetUs := 50
  cfgErrNoDevice := 1
  cfgErrPinGroup := 2

end Sys2Proof
end

