-- ==== Sys2Proof/Syntax.lean ====
section
/-! DEFINITION. The operations of the core (spec/30_encoding.md rules R107, R117): one constructor for each row of
spec/opcode_table.json. A command or micro-operation carries the operands the core samples when it is accepted (R91). -/

namespace Sys2Proof

/-- The ten operations, COLORTAB as its six selector rows (R107). -/
inductive Instr where
  /-- `PREPARE dev` (R201). -/
  | prepare (dev : Handle)
  /-- `TRANSMIT dev, base, count` (R173). -/
  | transmit (dev : Handle) (base count : Nat)
  /-- `WAIT_RESET dev` (R203). -/
  | waitReset (dev : Handle)
  /-- `CLOSE dev` (R202). -/
  | close (dev : Handle)
  /-- `TXBIT0` (R152). -/
  | txbit0
  /-- `TXBIT1` (R151). -/
  | txbit1
  /-- `TXBYTE b` (R171). -/
  | txbyte (b : Byte)
  /-- `TXPIXEL dev, addr` (R172). -/
  | txpixel (dev : Handle) (addr : Nat)
  /-- `DELAY_US n` (R230). -/
  | delayUs (n : Nat)
  /-- `COLORTAB rgb` (R131). -/
  | colortabRgb
  /-- `COLORTAB rbg` (R132). -/
  | colortabRbg
  /-- `COLORTAB grb` (R133). -/
  | colortabGrb
  /-- `COLORTAB gbr` (R134). -/
  | colortabGbr
  /-- `COLORTAB brg` (R135). -/
  | colortabBrg
  /-- `COLORTAB bgr` (R136). -/
  | colortabBgr
deriving DecidableEq, Repr

end Sys2Proof
end

