-- ==== Sys2Proof/Decode.lean ====
section
/-! DEFINITION. The four binary formats of spec/30_encoding.md (rule R90): decoders that are total on any byte and
reject by name, the operand registers' widths, `WF_DEV`, and after them the encoder. -/

namespace Sys2Proof

/-- The formats of R90 that name an operation. Which of them reads a byte depends on where the byte stands (the host's
`CMD` register, the sequencer's micro-operation index, `SEQ.SHREG`, a selector), so the same byte may be a word of
several. -/
inductive Format where
  | cmd
  | uop
  | bitsel
  | cosel
deriving DecidableEq, Repr

/-- Why a byte, or a command's operands, name no operation. Every one is a refusal (R258), safe. -/
inductive DecodeError where
  /-- A `CMD` byte with a nonzero bit in `[7:4]` (R91, R113). -/
  | nonzeroHighNibble
  /-- A `CMD` byte 0x04 to 0x08: micro-operations are internal (R94, R113). -/
  | internalAtHostPort
  /-- A `CMD` byte 0x09 to 0x0F, or a `UOP` index above 0x8: unassigned (Table E2). -/
  | unassigned
  /-- A `UOP` index 0x0 to 0x3: the code of a command, not of a micro-operation (R94). -/
  | commandAsMicroOperation
  /-- A `UOP` byte with a nonzero bit above its 4-bit index. -/
  | indexTooWide
  /-- A selector 6 or 7 (R110, R114). -/
  | reservedSelector
  /-- A selector byte with a nonzero bit above its 3-bit field. -/
  | selectorTooWide
  /-- An operation that takes a handle, when the handle operand was never populated (R20, I22). -/
  | handleNotPopulated
deriving DecidableEq, Repr

/-- `DELAY_W` in bits (R9). -/
def delayBits (c : Config) : Nat :=
  match c.delayW with
  | .w8 => 8
  | .w16 => 16

/-- The elements of an order are `{0, 1, 2}`, each once (R26: "a bijection on {0,1,2}"). -/
def permutes (o : Order) : Bool :=
  o.o0 != 3 && o.o1 != 3 && o.o2 != 3 && o.o0 != o.o1 && o.o0 != o.o2 && o.o1 != o.o2

/-- `WF_DEV(DEV)` (R26, R115): the low mask is the complement of the high one and the order is a permutation. -/
def wfDev (d : Handle) : Bool :=
  d.maskLo == ~~~d.maskHi && permutes d.order

/-- `BITSEL` (R100, R109): bit 7 of the byte, 1 selects TXBIT1 and 0 selects TXBIT0. -/
def selectsOne (w : Byte) : Bool := w.getLsbD 7

/-- The handle operand of a command, if it was ever populated. -/
def takeHandle (o : Operands) (f : Handle → Instr) : Except DecodeError Instr :=
  match o.dev with
  | none => .error .handleNotPopulated
  | some d => .ok (f d)

/-- Format `CMD` (R91, R108, R113). -/
def decodeCmd (w : Byte) (o : Operands) : Except DecodeError Instr :=
  if w &&& 0xF0 ≠ 0 then .error .nonzeroHighNibble
  else
    match (w &&& 0x0F).toNat with
    | 0 => takeHandle o .prepare
    | 1 => takeHandle o (fun d => .transmit d o.base o.count)
    | 2 => takeHandle o .waitReset
    | 3 => takeHandle o .close
    | 4 | 5 | 6 | 7 | 8 => .error .internalAtHostPort
    | _ => .error .unassigned

/-- Format `UOP` (R94, Table E2): the 4-bit index of a micro-operation. -/
def decodeUop (w : Byte) (o : Operands) : Except DecodeError Instr :=
  if w &&& 0xF0 ≠ 0 then .error .indexTooWide
  else
    match (w &&& 0x0F).toNat with
    | 0 | 1 | 2 | 3 => .error .commandAsMicroOperation
    | 4 => .ok .txbit0
    | 5 => .ok .txbit1
    | 6 => .ok (.txbyte o.ub)
    | 7 => takeHandle o (fun d => .txpixel d o.uaddr)
    | 8 => .ok (.delayUs o.un)
    | _ => .error .unassigned

/-- Format `BITSEL` (R109): total, every byte selects one of the two primitives. -/
def decodeBitsel (w : Byte) : Instr :=
  if selectsOne w then .txbit1 else .txbit0

/-- Format `COSEL` (R102, R110, R114): the 3-bit selector. -/
def decodeCosel (w : Byte) : Except DecodeError Instr :=
  match w.toNat with
  | 0 => .ok .colortabRgb
  | 1 => .ok .colortabRbg
  | 2 => .ok .colortabGrb
  | 3 => .ok .colortabGbr
  | 4 => .ok .colortabBrg
  | 5 => .ok .colortabBgr
  | 6 | 7 => .error .reservedSelector
  | _ => .error .selectorTooWide

/-- What a byte of a format names, with the operand registers as they stand when it is accepted (R91). -/
def decode (f : Format) (w : Byte) (o : Operands) : Except DecodeError Instr :=
  match f with
  | .cmd => decodeCmd w o
  | .uop => decodeUop w o
  | .bitsel => .ok (decodeBitsel w)
  | .cosel => decodeCosel w

/-! ### Operand registers: each holds the bits of its width (R39, log 2) -/

/-- A register of `w` bits holds the low `w` bits of what is written to it. -/
def keepBits (w n : Nat) : Nat := n % 2 ^ w

/-- The handle operand as the register holds it: `DEV.PORT` has `ADDR_W` bits (R22), `DEV.RESET_US` `DELAY_W` (R24). -/
def latchHandle (c : Config) (d : Handle) : Handle :=
  { d with port := keepBits c.addrW d.port, resetUs := keepBits (delayBits c) d.resetUs }

/-- The operand registers when nothing was ever put in them. -/
def emptyOperands : Operands where
  dev := none
  base := 0
  count := 0
  ub := 0
  uaddr := 0
  un := 0

/-! ### The encoder -/

/-- An encoded operation: the format it is read in, its byte, and the operand registers it is issued with. -/
structure Encoded where
  format : Format
  word   : Byte
  ops    : Operands
deriving DecidableEq, Repr

/-- The words of an operation (Tables E1 to E3, R92, R94, R100, R102), its operands in the registers of `c`'s widths. -/
def encode (c : Config) (i : Instr) : Encoded :=
  match i with
  | .prepare d => ⟨.cmd, 0x00, { emptyOperands with dev := some (latchHandle c d) }⟩
  | .transmit d b n =>
    ⟨.cmd, 0x01, { emptyOperands with
      dev := some (latchHandle c d), base := keepBits c.addrW b, count := keepBits c.countW n }⟩
  | .waitReset d => ⟨.cmd, 0x02, { emptyOperands with dev := some (latchHandle c d) }⟩
  | .close d => ⟨.cmd, 0x03, { emptyOperands with dev := some (latchHandle c d) }⟩
  | .txbit0 => ⟨.bitsel, 0x00, emptyOperands⟩
  | .txbit1 => ⟨.bitsel, 0x80, emptyOperands⟩
  | .txbyte b => ⟨.uop, 0x06, { emptyOperands with ub := b }⟩
  | .txpixel d a =>
    ⟨.uop, 0x07, { emptyOperands with dev := some (latchHandle c d), uaddr := keepBits c.addrW a }⟩
  | .delayUs n => ⟨.uop, 0x08, { emptyOperands with un := keepBits (delayBits c) n }⟩
  | .colortabRgb => ⟨.cosel, 0x00, emptyOperands⟩
  | .colortabRbg => ⟨.cosel, 0x01, emptyOperands⟩
  | .colortabGrb => ⟨.cosel, 0x02, emptyOperands⟩
  | .colortabGbr => ⟨.cosel, 0x03, emptyOperands⟩
  | .colortabBrg => ⟨.cosel, 0x04, emptyOperands⟩
  | .colortabBgr => ⟨.cosel, 0x05, emptyOperands⟩

/-! ### The opcode table's own words (log 5) -/

/-- The operand registers a table word is read with: every operand zero, and the handle that is zero in every field but
the low mask and the order, which `WF_DEV` fixes (no pin, port 0, no reset time, memory order). -/
def tableOperands : Operands :=
  { emptyOperands with
    dev := some ⟨0, 0x00, 0xFF, 0, ⟨0, 1, 2⟩⟩ }

/-- The format a table word of `nbits` bits is read in (log 5). A 3-bit row is a `COSEL` row and a 4-bit row a `UOP`
row. Given as a whole byte, a word goes to the first of `CMD`, the `UOP` rows, the `COSEL` rows and the `BITSEL` rows
that has it; the spec tells the formats apart by where the byte stands, which the table's word does not say. -/
def tableFormat (nbits w : Nat) : Format :=
  if nbits ≤ 3 then .cosel
  else if nbits ≤ 4 then .uop
  else if w < 4 then .cmd
  else if w < 6 then .cosel
  else if w < 9 then .uop
  else .bitsel

/-- The instruction this decoder reads from a word of spec/opcode_table.json. -/
def decodeTableWord (nbits w : Nat) : Option Instr :=
  if 256 ≤ w then none
  else (decode (tableFormat nbits w) (BitVec.ofNat 8 w) tableOperands).toOption

end Sys2Proof
end

