-- ==== Sys2Proof/Machine/State.lean ====
section
/-! DEFINITION. The state of the machine as plain data (spec/10_state.md), the reasons a step stops
(spec/60_exceptions.md Table X1, rule R258), and the state after reset (spec/70_reset_and_hazards.md Table I1). -/

namespace Sys2Proof.Machine

/-- One event of `TRACE` (R46). -/
inductive Event where
  /-- `W(t, a, v)`: the core wrote `v` to `PORT[a]` with effect from the start of cycle `t`. -/
  | w (t a : Nat) (v : Byte)
  /-- `R(t, addr, v)`: the core read `v` from pixel memory at cycle `t`. -/
  | r (t addr : Nat) (v : Byte)
  /-- `I(t, v)`: the core wrote `v` to `IE` at cycle `t`. -/
  | i (t : Nat) (v : Bool)
deriving DecidableEq, Repr

/-- The one Transmission Session (R30 to R33). -/
structure Session where
  /-- `SES.OPEN`: false is Closed, true Prepared. -/
  isOpen  : Bool
  /-- `SES.SAVED_IE`. -/
  savedIe : Bool
  /-- `SES.C_PORT`. -/
  cPort   : Nat
  /-- `SES.C_MASK_HI`. -/
  cMaskHi : Byte
  /-- `SES.C_MASK_LO`. -/
  cMaskLo : Byte
  /-- The model's own note (log 10): a PREPARE has opened a session since reset, so the other fields hold what it wrote and
  no longer the values of reset. No operation reads it; R34 (b) and (c) are stated with it. -/
  written : Bool
deriving DecidableEq, Repr

/-- `phase` of `SEQ.POS` (R40): high segment, low segment, gap. -/
inductive Phase where
  | h
  | l
  | g
deriving DecidableEq, Repr

/-- `SEQ.POS` while `op = TX` (R40), with the operands of the TRANSMIT in progress, sampled when it was accepted (R91). -/
structure TxPos where
  order : Order
  base  : Nat
  count : Nat
  i     : Nat
  j     : Nat
  k     : Nat
  phase : Phase
  rem   : Nat
deriving DecidableEq, Repr

/-- `SEQ.POS` (R40): what the core has in place of a program counter. The fields a value of `op` gives no meaning are not
there (log 16). `saved` is the local of one DELAY_US (R236). -/
inductive SeqPos where
  | idle
  | tx (p : TxPos)
  | dly (rem : Nat) (saved : Bool)
deriving DecidableEq, Repr

/-- The sequencer: `SEQ.POS`, `SEQ.SHREG` (R42), `SEQ.DLY` (R43). -/
structure Sequencer where
  pos   : SeqPos
  shreg : Byte
  dly   : Nat
deriving DecidableEq, Repr

/-- What the host thread may do between two commands besides issuing one (R317, Table H1). -/
inductive HostAct where
  /-- Write a byte of pixel memory. -/
  | writeMem (a : Nat) (v : Byte)
  /-- Write a port register. -/
  | writePort (a : Nat) (v : Byte)
  /-- Write `IE`. -/
  | writeIe (v : Bool)
  /-- Let `n` cycles pass (R45). -/
  | elapse (n : Nat)
  /-- Set the handle operand (R39), by value (R21). -/
  | setHandle (d : Handle)
  /-- Set `ARG_BASE` (R39). -/
  | setBase (n : Nat)
  /-- Set `ARG_COUNT` (R39). -/
  | setCount (n : Nat)
  /-- Set the model's own latches for a micro-operation run by itself (log 6). -/
  | setMicro (b : Byte) (addr n : Nat)
deriving DecidableEq, Repr

/-- What comes to the core from outside, in the order in which it comes (R15, R39, R77; log 3). -/
inductive Input where
  /-- The host writes `CMD`: the command runs to completion (R91). -/
  | cmd (w : Byte)
  /-- The host writes `CMD`, and the sequencer is stepped one clock cycle at a time (R184; log 14). -/
  | cmdByCycle (w : Byte)
  /-- A micro-operation index at the model's micro-operation port (R94, R251; log 6). -/
  | uop (w : Byte)
  /-- The primitive that bit 7 of `SEQ.SHREG` selects (R100, R109; log 6). -/
  | bitsel
  /-- A selector given to COLORTAB (R130). -/
  | cosel (w : Byte)
  /-- An act of the host thread. -/
  | host (a : HostAct)
  /-- An interrupt request arriving at cycle `t`, whose handler runs for `n` cycles (R235, R262, R263; log 15). -/
  | interrupt (t n : Nat)
deriving DecidableEq, Repr

/-- The reasons the machine stops: the four of Table X1, which is a closed list (R250), and the read of a pixel
byte without value that R67 and I24 add. Each stops it for good: a faulted state is never final (R250). -/
inductive Fault where
  /-- TRANSMIT while Closed with `TX_CLOSED = fault` (R251, Table X1). Raised by TRANSMIT. Safe. -/
  | transmitWhileClosed
  /-- A primitive while Closed with `TX_CLOSED = fault` (R251, Table X1). Raised by TXBIT0 and TXBIT1, so also by
  TXBYTE and TXPIXEL run by themselves. Safe. -/
  | primitiveOutsideSession
  /-- Emission with `IE = 1` (R252, Table X1). Raised by TRANSMIT, TXBIT0 and TXBIT1. Safe: stricter than the hardware. -/
  | interruptsEnabled
  /-- A handler runs while `SEQ.POS.op = TX` (R253, Table X1). Raised by the step that would take the interrupt. Safe. -/
  | sessionInterrupted
  /-- A pixel byte the host never wrote is read (R67, I24). Raised by TXPIXEL and TRANSMIT. Safe. -/
  | pixelWithoutValue
deriving DecidableEq, Repr

/-- The reasons an input is given no meaning (R258): each marks the run as outside the model. -/
inductive Refusal where
  /-- An instruction with no meaning yet. No arm of `exec` answers it. Safe. -/
  | notModelled (mnemonic : String)
  /-- A byte that names no operation, or a handle operand never populated (R20, R113, R114). Raised by the step. Safe. -/
  | undecodable (e : DecodeError)
  /-- A handle that fails `WF_DEV` (R26, R115). Raised by PREPARE, TRANSMIT, WAIT_RESET, CLOSE and TXPIXEL. Safe. -/
  | malformedHandle
  /-- A TRANSMIT whose addresses would pass `2^ADDR_W` (R72), or a TXPIXEL run by itself whose record would (log 17).
  Raised by TRANSMIT and TXPIXEL. Safe. -/
  | addressWrap
  /-- A host write to an address of more than `ADDR_W` bits: no such address exists (R38, R70; log 17). Raised by the
  host's writes of pixel memory and of ports. Safe. -/
  | noSuchAddress
deriving DecidableEq, Repr

/-- Pixel memory: a list of cells in one canonical form, `Memory.wf` (R60). -/
abbrev Memory := List Host.Cell

/-- The I/O port space: a list of cells in one canonical form, `Ports.wf` (R70). -/
abbrev Ports := List Host.Cell

/-- What an unlisted byte of pixel memory reads as: it has no value (R67, R291). -/
def Memory.unlisted : Option Byte := none

/-- What an unlisted port register reads as (log 9, DESIGN CHOICE: the spec gives the platform's ports no value). -/
def Ports.unlisted : Byte := 0x00

/-- Everything the spec gives the machine (10_state.md), and the model's own bookkeeping. INVENTORY.md lists each. -/
structure State where
  /-- Table P1 (R7): constant. -/
  cfg       : Config
  /-- The Transmission Session (R30). -/
  ses       : Session
  /-- The sequencer (R40, R42, R43). -/
  seq       : Sequencer
  /-- `IE`, the host's global interrupt-enable flag (R35). -/
  ie        : Bool
  /-- `PORT[a]` (R36, R70). -/
  ports     : Ports
  /-- Pixel memory (R38, R60). -/
  mem       : Memory
  /-- `CMD`, the command byte last written (R39, R91). -/
  cmd       : Byte
  /-- The operand registers (R20, R39). -/
  ops       : Operands
  /-- `BUSY` (R39). -/
  busy      : Bool
  /-- `CYCLE` (R45). -/
  cycle     : Nat
  /-- `TRACE` (R46). -/
  trace     : List Event
  /-- The model's own: the table COLORTAB answered last (R103, R130; log 7). -/
  colorOut  : Order
  /-- The model's own: what comes from outside, the next first (log 3). -/
  inputs    : List Input
  /-- Interrupt requests the host holds back while `IE = 0` (host state, R44), the lengths of their handlers, oldest first
  (R263; log 15). Whether any is held at launch the spec leaves open (log 25). -/
  heldIrq   : List Nat
  /-- The model's own: how many free values the run has drawn (log 13). -/
  draws     : Nat
deriving DecidableEq, Repr

/-- The machine right after reset (R291, Table I1). The spec gives: Closed, sequencer idle, not busy, no handle, no pixel
byte, cycle 0, empty trace. It gives no value for the rest, which stand at the values of logs 1 and 6 to 11; nothing is to
come (log 3), nothing has been drawn (log 13), and no interrupt request is held by the host, on which the spec is silent
(N25; log 25, DESIGN CHOICE). -/
def State.reset : State where
  cfg := Config.reference
  ses := { isOpen := false, savedIe := false, cPort := 0, cMaskHi := 0x00, cMaskLo := 0xFF, written := false }
  seq := { pos := .idle, shreg := 0x00, dly := 0 }
  ie := false
  ports := []
  mem := []
  cmd := 0x00
  ops := emptyOperands
  busy := false
  cycle := 0
  trace := []
  colorOut := ⟨0, 1, 2⟩
  inputs := []
  heldIrq := []
  draws := 0

end Sys2Proof.Machine
end

