-- ==== Sys2Proof/Machine/Timing.lean ====
section
/-! DEFINITION. What is computed from the parameters (spec/41_bit_encoder.md rules R141 to R147, spec/44_delay.md rules
R231 and R232, spec/42_byte_frame_transmitter.md rules R174 and R175): segment lengths, the build-time check, durations.
All of it exact natural-number or integer arithmetic. -/

namespace Sys2Proof.Machine

/-- `ceil(a / b)` (R10). -/
def ceilDiv (a b : Nat) : Nat := (a + b - 1) / b

/-! ### Build time -/

/-- `cyc(T)` (R141): `T` nanoseconds in cycles, to the nearest cycle, halves upward. -/
def cyc (fClk t : Nat) : Nat := (t * fClk + 500000000) / 1000000000

/-- The configuration with its segment lengths derived from `F_CLK` (R141). -/
def derivedFrom (c : Config) (fClk : Nat) : Config :=
  { c with
    fClk := fClk
    n1H := cyc fClk Config.t1HNs
    n1L := cyc fClk Config.t1LNs
    n0H := cyc fClk Config.t0HNs
    n0L := cyc fClk Config.t0LNs }

/-- `PAD_x = N_x - FIX_x` (R142), which may be negative. -/
def pad (n fix : Nat) : Int := (n : Int) - (fix : Int)

/-- Why a configuration is rejected at build time (R255). No core with it exists (I19). -/
inductive ConfigError where
  /-- A negative `PAD_x` (R143). -/
  | negativePadding
  /-- `ns(N_0L) < 450` (R144). -/
  | zeroLowTooShort
  /-- `N_0H >= N_1H` (R146). -/
  | symbolsIndistinct
deriving DecidableEq, Repr

/-- `N cycles last at least t nanoseconds`, without division (R111 g, R144). -/
def lastsAtLeast (c : Config) (n t : Nat) : Bool := decide (t * c.fClk ≤ n * 1000000000)

/-- The feasibility check (R143, R144, R146, R147). When several rejections apply the first in the order padding, low time,
symbols is named: the spec gives the three predicates and no precedence (log 28, DESIGN CHOICE). -/
def configError (c : Config) : Option ConfigError :=
  if pad c.n1H c.fix1H < 0 ∨ pad c.n1L c.fix1L < 0 ∨ pad c.n0H c.fix0H < 0 ∨ pad c.n0L c.fix0L < 0 then
    some .negativePadding
  else if !lastsAtLeast c c.n0L Config.t0LMinNs then some .zeroLowTooShort
  else if c.n1H ≤ c.n0H then some .symbolsIndistinct
  else none

/-- The warnings of an accepted configuration (R145). They change nothing in the behaviour. -/
inductive Warning where
  /-- `450 <= ns(N_0L) < 650`. -/
  | zeroLowBorderline
  /-- A segment outside its tolerance band. -/
  | segmentOutsideBand
deriving DecidableEq, Repr

/-- `|ns(n) - t| > TOL_NS` (R145), without division. -/
def outsideBand (c : Config) (n t : Nat) : Bool :=
  decide (n * 1000000000 + Config.tolNs * c.fClk < t * c.fClk) ||
    decide ((t + Config.tolNs) * c.fClk < n * 1000000000)

/-- The warnings a configuration carries (R145). -/
def warnings (c : Config) : List Warning :=
  (if lastsAtLeast c c.n0L Config.t0LMinNs && !lastsAtLeast c c.n0L (Config.t0LNs - Config.tolNs) then
    [.zeroLowBorderline] else []) ++
  (if outsideBand c c.n1H Config.t1HNs || outsideBand c c.n1L Config.t1LNs ||
      outsideBand c c.n0H Config.t0HNs || outsideBand c c.n0L Config.t0LNs then
    [.segmentOutsideBand] else [])

/-- The ranges of Table P1 (R7). -/
def inRange (c : Config) : Bool :=
  decide (1 ≤ c.fClk) && decide (1 ≤ c.fix1H) && decide (1 ≤ c.fix1L) && decide (1 ≤ c.fix0H) &&
  decide (1 ≤ c.fix0L) && decide (1 ≤ c.addrW) && decide (1 ≤ c.countW) && decide (1 ≤ c.delayIterCyc) &&
  decide (1 ≤ c.stripResetUs) && c.cfgErrNoDevice != 0 && c.cfgErrPinGroup != 0 &&
  c.cfgErrNoDevice != c.cfgErrPinGroup

/-- The configurations a core exists for: in the ranges of Table P1 and not rejected (R147). -/
def buildable (c : Config) : Bool := inRange c && configError c == none

/-- Why no core with the given parameters exists. -/
inductive LaunchError where
  /-- A parameter outside its range of Table P1 (R7; log 27). -/
  | outsideTableP1
  /-- A build-time rejection (R147, R255). -/
  | rejected (e : ConfigError)
deriving DecidableEq, Repr

/-- What keeps the parameters `c` from being a core: the ranges of Table P1 first, then the feasibility check (log 27). -/
def launchError (c : Config) : Option LaunchError :=
  if inRange c then (configError c).map .rejected else some .outsideTableP1

/-! ### The symbols and the loops -/

/-- `N_H(bit)`: the high segment of the symbol for a bit (R95, R177). -/
def highCycles (c : Config) (one : Bool) : Nat := if one then c.n1H else c.n0H

/-- `N_L(bit)`: the low segment of the symbol for a bit (R95, R177). -/
def lowCycles (c : Config) (one : Bool) : Nat := if one then c.n1L else c.n0L

/-- `LEN_1` and `LEN_0` (R174). -/
def symbolCycles (c : Config) (one : Bool) : Nat := highCycles c one + lowCycles c one

/-- The bit of `b` that its `k`-th symbol carries: `b[7-k]` (R101). -/
def bitOf (b : Byte) (k : Nat) : Bool := b.getLsbD (7 - k)

/-- `ones(b)` (R174). -/
def ones (b : Byte) : Nat := ((List.range 8).filter (fun k => b.getLsbD k)).length

/-- How long TXBYTE lasts (R174). -/
def byteCycles (c : Config) (b : Byte) : Nat :=
  ones b * symbolCycles c true + (8 - ones b) * symbolCycles c false + c.gapByte

/-- `g_n` of R177: the gap after symbol `k` of the byte in wire position `j` (R175). -/
def gapAfter (c : Config) (j k : Nat) : Nat :=
  (if k = 7 then c.gapByte else 0) + (if k = 7 ∧ j = 2 then c.gapPixel else 0)

/-! ### The delay -/

/-- `iters(n)` (R231): the least number of iterations whose cycles cover `n` microseconds. -/
def iters (c : Config) (n : Nat) : Nat := ceilDiv (n * c.fClk) (1000000 * c.delayIterCyc)

/-- How long DELAY_US(n) lasts with no interrupt taken (R232). -/
def delayCycles (c : Config) (n : Nat) : Nat := c.delayOvh + iters c n * c.delayIterCyc

end Sys2Proof.Machine
end

