-- ==== Sys2Proof/Machine/Ops.lean ====
section
/-! DEFINITION. The named operations over memory, ports, registers, time and trace (spec/00_scope.md rule R12), written
once and used by every meaning. -/

namespace Sys2Proof.Machine

/-- What an operation of the machine answers, with a value of type `α` where it goes on. -/
abbrev Result (α : Type) := Host.Outcome α Fault Refusal

/-- Go on with `f` where `o` goes on; stop where it stops. -/
def chain {α β : Type} (o : Result α) (f : α → Result β) : Result β :=
  match o with
  | .next a => f a
  | .fault e => .fault e
  | .refused e => .refused e

/-! ### Cells: address-sorted lists with no repeats -/

/-- The byte a list of cells holds at an address. -/
def Cells.lookup (a : Nat) : List Host.Cell → Option Byte
  | [] => none
  | (b, v) :: rest => if a = b then some v else Cells.lookup a rest

/-- Put a byte at an address, in its sorted place. -/
def Cells.put (a : Nat) (v : Byte) : List Host.Cell → List Host.Cell
  | [] => [(a, v)]
  | (b, w) :: rest =>
    if a < b then (a, v) :: (b, w) :: rest
    else if a = b then (a, v) :: rest
    else (b, w) :: Cells.put a v rest

/-- Take the entry at an address out. -/
def Cells.remove (a : Nat) : List Host.Cell → List Host.Cell
  | [] => []
  | (b, w) :: rest => if a = b then rest else (b, w) :: Cells.remove a rest

/-- Every address of the list is above `a`, and they rise strictly. -/
def Cells.risesFrom (a : Nat) : List Host.Cell → Bool
  | [] => true
  | (b, _) :: rest => decide (a < b) && Cells.risesFrom b rest

/-- The addresses rise strictly. -/
def Cells.sorted : List Host.Cell → Bool
  | [] => true
  | (b, _) :: rest => Cells.risesFrom b rest

/-! ### Pixel memory (R60, R65, R67) -/

/-- The canonical form of pixel memory. No entry can equal what an unlisted address reads as, since that is no value. -/
def Memory.wf (m : Memory) : Bool := Cells.sorted m

/-- What a byte of pixel memory holds: nothing, if the host never wrote it (R67). -/
def Memory.read (m : Memory) (a : Nat) : Option Byte :=
  match Cells.lookup a m with
  | some v => some v
  | none => Memory.unlisted

/-- A write of the host's to pixel memory (the core makes none, R65). -/
def Memory.write (a : Nat) (v : Byte) (m : Memory) : Memory := Cells.put a v m

/-! ### The port space (R36, R70) -/

/-- The canonical form of the ports: addresses rise strictly and no entry equals what an unlisted one reads as. -/
def Ports.wf (p : Ports) : Bool := Cells.sorted p && p.all (fun c => c.2 != Ports.unlisted)

/-- The value of `PORT[a]`. -/
def Ports.read (p : Ports) (a : Nat) : Byte :=
  match Cells.lookup a p with
  | some v => v
  | none => Ports.unlisted

/-- Write `PORT[a]`: the value an unlisted register reads as removes the entry. -/
def Ports.write (a : Nat) (v : Byte) (p : Ports) : Ports :=
  if v = Ports.unlisted then Cells.remove a p else Cells.put a v p

/-! ### Time and trace -/

/-- `wait(n)` (R12): `n` clock cycles pass and nothing else changes. -/
def wait (n : Nat) (s : State) : State := { s with cycle := s.cycle + n }

/-- Append an event to `TRACE` (R46). -/
def record (e : Event) (s : State) : State := { s with trace := s.trace ++ [e] }

/-- A free value: `draw(0, unbounded)` cycles pass (R12, log 13). -/
def drawWait (s : State) : State :=
  { s with cycle := s.cycle + Config.draw s.draws, draws := s.draws + 1 }

/-! ### The port and the pins -/

/-- `IoWrite(a, v)` (R12): the port takes the value at the start of the current cycle, and the trace records it. -/
def ioWrite (a : Nat) (v : Byte) (s : State) : State :=
  record (.w s.cycle a v) { s with ports := Ports.write a v s.ports }

/-- `PinsHigh()` (R12, R79, R99): one indivisible read-modify-write. -/
def pinsHigh (s : State) : State :=
  ioWrite s.ses.cPort (Ports.read s.ports s.ses.cPort ||| s.ses.cMaskHi) s

/-- `PinsLow()` (R12, R79, R99). -/
def pinsLow (s : State) : State :=
  ioWrite s.ses.cPort (Ports.read s.ports s.ses.cPort &&& s.ses.cMaskLo) s

/-- One symbol (R95): all masked pins high for `nh` cycles, then low for `nl`. -/
def symbol (nh nl : Nat) (s : State) : State :=
  wait nl (pinsLow (wait nh (pinsHigh s)))

/-! ### Reads of pixel memory -/

/-- `MemRead(addr, 1)` (R12, R65, R66): one byte, at no cost, recorded in the trace. That the address exists is settled
where the operation is admitted (R72). Every address is ordinary memory, one
that the host means as a device register too: R67 and I26 let a model refuse such a `base` or treat its bytes as ordinary
(log 26, DESIGN CHOICE). -/
def memRead (a : Nat) (s : State) : Result (Byte × State) :=
  match Memory.read s.mem a with
  | none => .fault .pixelWithoutValue
  | some v => .next (v, record (.r s.cycle a v) s)

/-! ### The sequencer's registers -/

/-- `SEQ.SHREG <- b` (R42, R171). -/
def loadShreg (b : Byte) (s : State) : State := { s with seq := { s.seq with shreg := b } }

/-- `SEQ.SHREG <- (SEQ.SHREG << 1)[7:0]` (R101, R111 a). -/
def shiftShreg (s : State) : State := loadShreg (s.seq.shreg <<< 1) s

/-- `SEQ.DLY <- n` (R43, R230). -/
def loadDly (n : Nat) (s : State) : State := { s with seq := { s.seq with dly := n } }

/-- `SEQ.POS <- p` (R11, R40). -/
def setPos (p : SeqPos) (s : State) : State := { s with seq := { s.seq with pos := p } }

/-! ### What the core has in place of taking an exception and returning from it (R270, R272) -/

/-- A write of `IE` by the core (R35), recorded in the trace. -/
def writeIe (v : Bool) (s : State) : State := record (.i s.cycle v) { s with ie := v }

/-- PREPARE's save (R201, R210, R270), in the order of the rule: stash, disable, cache, mark. -/
def openSession (d : Handle) (s : State) : State :=
  let stashed := { s with ses := { s.ses with savedIe := s.ie } }
  let disabled := writeIe false stashed
  { disabled with ses :=
    { disabled.ses with
      cPort := d.port
      cMaskHi := d.maskHi
      cMaskLo := d.maskLo
      isOpen := true
      written := true } }

/-- CLOSE's restore (R202, R211, R272): restore, then mark Closed. The wait follows. -/
def closeSession (s : State) : State :=
  let restored := writeIe s.ses.savedIe s
  { restored with ses := { restored.ses with isOpen := false } }

/-- The answer of COLORTAB (R103, R130; log 7). -/
def answerTable (o : Order) (s : State) : State := { s with colorOut := o }

end Sys2Proof.Machine
end

