-- ==== Sys2Proof/Machine/ColorOrder.lean ====
section
/-! DEFINITION. The Color-Order Table (spec/40_color_order.md rules R130 to R136). Its one effect is its answer; no state
of the core is read or written and no cycle passes (log 7). -/

namespace Sys2Proof.Machine

/-- The colours of a selector's name. -/
inductive Colour where
  | r
  | g
  | b
deriving DecidableEq, Repr

/-- `off` (R130): the byte offset of a colour in the Pixel Record (R28). -/
def offsetOf (c : Colour) : BitVec 2 :=
  match c with
  | .r => 0
  | .g => 1
  | .b => 2

/-- COLORTAB's contract (R130): the offset to read for each output position, from the three letters of the name. -/
def tableFor (c0 c1 c2 : Colour) : Order := ⟨offsetOf c0, offsetOf c1, offsetOf c2⟩

/-- COLORTAB `rgb` (R131). -/
def execColortabRgb (s : State) : Host.Outcome State Fault Refusal := .next (answerTable (tableFor .r .g .b) s)

/-- COLORTAB `rbg` (R132). -/
def execColortabRbg (s : State) : Host.Outcome State Fault Refusal := .next (answerTable (tableFor .r .b .g) s)

/-- COLORTAB `grb` (R133). -/
def execColortabGrb (s : State) : Host.Outcome State Fault Refusal := .next (answerTable (tableFor .g .r .b) s)

/-- COLORTAB `gbr` (R134). -/
def execColortabGbr (s : State) : Host.Outcome State Fault Refusal := .next (answerTable (tableFor .g .b .r) s)

/-- COLORTAB `brg` (R135). -/
def execColortabBrg (s : State) : Host.Outcome State Fault Refusal := .next (answerTable (tableFor .b .r .g) s)

/-- COLORTAB `bgr` (R136). -/
def execColortabBgr (s : State) : Host.Outcome State Fault Refusal := .next (answerTable (tableFor .b .g .r) s)

end Sys2Proof.Machine
end

