-- ==== Sys2Proof/Machine/Flags.lean ====
section
/-! DEFINITION. The computations over the two flags the core has, `SES.OPEN` and the host's `IE` (the core has no
condition codes, R111): the preconditions of emission and the interrupt masking of the delay. -/

namespace Sys2Proof.Machine

/-- The precondition of a bit primitive (R153, R251, R252): the fault it raises, if any, in the order closed, interrupts.
Under `TX_CLOSED = emit` a primitive goes on with whatever `SES.C_*` hold (R176), before any PREPARE with the values
State.reset gives them (log 10). -/
def primitiveFault (s : State) : Option Fault :=
  if s.ses.isOpen = false ∧ s.cfg.txClosed = .fault then some .primitiveOutsideSession
  else if s.ie then some .interruptsEnabled
  else none

/-- The precondition of TRANSMIT, checked before the first pixel and also when `count = 0` (R176, R267). -/
def transmitFault (s : State) : Option Fault :=
  if s.ses.isOpen = false ∧ s.cfg.txClosed = .fault then some .transmitWhileClosed
  else if s.ie then some .interruptsEnabled
  else none

/-- Raise a fault before any effect (R269), or go on. -/
def unlessFault (f : Option Fault) (go : Result State) : Result State :=
  match f with
  | some e => .fault e
  | none => go

/-- `irq_enter()` (R236). -/
def irqEnter (s : State) : State :=
  match s.cfg.irqMode with
  | .leaveAlone => s
  | .saveRestore => writeIe false s
  | .disableEnable => writeIe false s

/-- `irq_leave()` (R236); `saved` is what `IE` held at `irq_enter()`. -/
def irqLeave (saved : Bool) (s : State) : State :=
  match s.cfg.irqMode with
  | .leaveAlone => s
  | .saveRestore => writeIe saved s
  | .disableEnable => writeIe true s

end Sys2Proof.Machine
end

