-- ==== Sys2Proof/Machine/Delay.lean ====
section
/-! DEFINITION. The Microsecond Delay Primitive (spec/44_delay.md rules R230 to R236). -/

namespace Sys2Proof.Machine

/-- The delay loop (R230): each turn waits `DELAY_ITER_CYC` cycles and then decrements `SEQ.DLY`, never at 0. -/
def delayLoop : Nat → State → State
  | 0, s => s
  | n + 1, s =>
    let waited := wait s.cfg.delayIterCyc s
    delayLoop n (loadDly (waited.seq.dly - 1) waited)

/-- Handlers that run during the wait lengthen it by a draw (R235), only while `IE = 1`. -/
def stretchIfEnabled (s : State) : State := if s.ie then drawWait s else s

/-- DELAY_US(n) as the commands that wait use it (R230). -/
def delay (n : Nat) (s : State) : State :=
  let entered := irqEnter s
  let loaded := wait entered.cfg.delayOvh (loadDly (iters entered.cfg n) entered)
  let looped := delayLoop loaded.seq.dly loaded
  irqLeave s.ie (stretchIfEnabled looped)

/-- DELAY_US (R230), run by itself. -/
def execDelayUs (n : Nat) (s : State) : Host.Outcome State Fault Refusal := .next (delay n s)

end Sys2Proof.Machine
end

