-- ==== Sys2Proof/Machine/Operands.lean ====
section
/-! DEFINITION. The operand forms (spec/30_encoding.md rules R100 to R105, spec/20_memory.md rule R72): a handle's
admission, an order's elements, a pixel byte's address, a TRANSMIT's address range. -/

namespace Sys2Proof.Machine

/-- `DEV.ORDER[j]` (R25), `j` in 0..2. -/
def orderAt (o : Order) (j : Nat) : BitVec 2 :=
  match j with
  | 0 => o.o0
  | 1 => o.o1
  | _ => o.o2

/-- The address of the byte in wire position `j` of the record at `addr`: `addr + zext(DEV.ORDER[j])`, a natural number
(R104, R172). -/
def pixelAddress (o : Order) (addr j : Nat) : Nat := addr + (orderAt o j).toNat

/-- A TRANSMIT is admitted only when no address wraps (R72). -/
def fitsMemory (c : Config) (base count : Nat) : Bool :=
  count == 0 || decide (base + 3 * count ≤ 2 ^ c.addrW)

/-- A command whose handle fails `WF_DEV` is refused (R26, R115). -/
def admitHandle (d : Handle) (go : Result State) : Result State :=
  if wfDev d then go else .refused .malformedHandle

/-- A TRANSMIT, or a TXPIXEL run by itself, whose addresses would wrap is refused (R72; log 17). -/
def admitRange (c : Config) (base count : Nat) (go : Result State) : Result State :=
  if fitsMemory c base count then go else .refused .addressWrap

end Sys2Proof.Machine
end

