-- ==== Sys2Proof/Machine/Session.lean ====
section
/-! DEFINITION. Transmission Session Control (spec/43_session_control.md rules R200 to R214). -/

namespace Sys2Proof.Machine

/-- PREPARE (R201): a no-op when Prepared (R205). -/
def execPrepare (dev : Handle) (s : State) : Host.Outcome State Fault Refusal :=
  admitHandle dev (.next (if s.ses.isOpen then s else openSession dev s))

/-- WAIT_RESET (R203): the named handle's reset time (R209), in either state. -/
def execWaitReset (dev : Handle) (s : State) : Host.Outcome State Fault Refusal :=
  admitHandle dev (.next (delay dev.resetUs s))

/-- CLOSE (R202): a no-op when Closed (R206); else restore, mark Closed, wait (R211). -/
def execClose (dev : Handle) (s : State) : Host.Outcome State Fault Refusal :=
  admitHandle dev (.next (if s.ses.isOpen then delay dev.resetUs (closeSession s) else s))

end Sys2Proof.Machine
end

