-- ==== Sys2Proof/Machine/BitEncoder.lean ====
section
/-! DEFINITION. The Bit Encoder's two primitives (spec/41_bit_encoder.md rules R150 to R155). -/

namespace Sys2Proof.Machine

/-- TXBIT1 (R151): high for `N_1H`, low for `N_1L`. -/
def execTxbit1 (s : State) : Host.Outcome State Fault Refusal :=
  unlessFault (primitiveFault s) (.next (symbol s.cfg.n1H s.cfg.n1L s))

/-- TXBIT0 (R152): high for `N_0H`, low for `N_0L`. -/
def execTxbit0 (s : State) : Host.Outcome State Fault Refusal :=
  unlessFault (primitiveFault s) (.next (symbol s.cfg.n0H s.cfg.n0L s))

end Sys2Proof.Machine
end

