-- ==== Sys2Proof/Machine/Transmitter.lean ====
section
/-! DEFINITION. The Byte/Frame Transmitter (spec/42_byte_frame_transmitter.md rules R170 to R183). -/

namespace Sys2Proof.Machine

/-- The next symbol: bit 7 of `SEQ.SHREG` selects the primitive (R100), then the register shifts (R101). -/
def sendBit (s : State) : Result State :=
  chain (if selectsOne s.seq.shreg then execTxbit1 s else execTxbit0 s) (fun t => .next (shiftShreg t))

/-- `n` symbols one after the other. -/
def sendBits : Nat → State → Result State
  | 0, s => .next s
  | n + 1, s => chain (sendBit s) (sendBits n)

/-- TXBYTE (R171): most significant bit first, eight symbols whatever the byte, then `GAP_BYTE`. -/
def execTxbyte (b : Byte) (s : State) : Host.Outcome State Fault Refusal :=
  chain (sendBits 8 (loadShreg b s)) (fun t => .next (wait t.cfg.gapByte t))

/-- The byte in wire position `j`: read, then sent (R172). -/
def sendPosition (o : Order) (addr j : Nat) (s : State) : Result State :=
  chain (memRead (pixelAddress o addr j) s) (fun r => execTxbyte r.1 r.2)

/-- One Pixel Record in the order `o` (R172), then `GAP_PIXEL`. -/
def sendPixel (o : Order) (addr : Nat) (s : State) : Result State :=
  chain (sendPosition o addr 0 s) fun s0 =>
  chain (sendPosition o addr 1 s0) fun s1 =>
  chain (sendPosition o addr 2 s1) fun s2 =>
  .next (wait s2.cfg.gapPixel s2)

/-- `n` Pixel Records stored back to back from `addr` (R29, R173). -/
def sendPixels (o : Order) : Nat → Nat → State → Result State
  | _, 0, s => .next s
  | addr, n + 1, s => chain (sendPixel o addr s) (sendPixels o (addr + 3) n)

/-- TXPIXEL (R172), run by itself: only `dev.ORDER` is read of the handle. It is admitted as a TRANSMIT of this one record
would be (R26, R72; log 17). -/
def execTxpixel (dev : Handle) (addr : Nat) (s : State) : Host.Outcome State Fault Refusal :=
  admitHandle dev <| admitRange s.cfg addr 1 <| sendPixel dev.order addr s

/-- TRANSMIT (R173): refusals first, then the preconditions (R176, R267), then the pixels, in the named handle's order
and on the session's pins (R178). -/
def execTransmit (dev : Handle) (base count : Nat) (s : State) : Host.Outcome State Fault Refusal :=
  admitHandle dev <| admitRange s.cfg base count <| unlessFault (transmitFault s) <|
    sendPixels dev.order base count s

end Sys2Proof.Machine
end

