-- ==== Sys2Proof/Machine/Dispatch.lean ====
section
/-! DEFINITION. One arm per operation of spec/opcode_table.json: a direct call of its meaning. -/

namespace Sys2Proof.Machine

def exec (i : Instr) (s : State) : Host.Outcome State Fault Refusal :=
  match i with
  | .prepare dev => Sys2Proof.Machine.execPrepare dev s
  | .transmit dev base count => Sys2Proof.Machine.execTransmit dev base count s
  | .waitReset dev => Sys2Proof.Machine.execWaitReset dev s
  | .close dev => Sys2Proof.Machine.execClose dev s
  | .txbit0 => Sys2Proof.Machine.execTxbit0 s
  | .txbit1 => Sys2Proof.Machine.execTxbit1 s
  | .txbyte b => Sys2Proof.Machine.execTxbyte b s
  | .txpixel dev addr => Sys2Proof.Machine.execTxpixel dev addr s
  | .delayUs n => Sys2Proof.Machine.execDelayUs n s
  | .colortabRgb => Sys2Proof.Machine.execColortabRgb s
  | .colortabRbg => Sys2Proof.Machine.execColortabRbg s
  | .colortabGrb => Sys2Proof.Machine.execColortabGrb s
  | .colortabGbr => Sys2Proof.Machine.execColortabGbr s
  | .colortabBrg => Sys2Proof.Machine.execColortabBrg s
  | .colortabBgr => Sys2Proof.Machine.execColortabBgr s

end Sys2Proof.Machine
end

