-- ==== Sys2Proof/Machine/Fetch.lean ====
section
/-! DEFINITION. Where the next operation comes from and what stands around it: the host's acts (spec/70_reset_and_hazards.md
Table H1), the command port (spec/10_state.md rule R39), command overhead (R320), interrupt requests
(spec/60_exceptions.md rules R253, R262, R263). -/

namespace Sys2Proof.Machine

/-! ### The host thread (R77, R317) -/

/-- A host write to an address that does not exist has no meaning and is refused (R38, R258; log 17). -/
def insideSpace (c : Config) (a : Nat) (go : State) : Result State :=
  if a < 2 ^ c.addrW then .next go else .refused .noSuchAddress

/-- One act of the host thread between two commands. -/
def hostAct (h : HostAct) (s : State) : Result State :=
  match h with
  | .writeMem a v => insideSpace s.cfg a { s with mem := Memory.write a v s.mem }
  | .writePort a v => insideSpace s.cfg a { s with ports := Ports.write a v s.ports }
  | .writeIe v => .next { s with ie := v }
  | .elapse n => .next (wait n s)
  | .setHandle d => .next { s with ops := { s.ops with dev := some (latchHandle s.cfg d) } }
  | .setBase n => .next { s with ops := { s.ops with base := keepBits s.cfg.addrW n } }
  | .setCount n => .next { s with ops := { s.ops with count := keepBits s.cfg.countW n } }
  | .setMicro b a n =>
    .next { s with ops :=
      { s.ops with ub := b, uaddr := keepBits s.cfg.addrW a, un := keepBits (delayBits s.cfg) n } }

/-- Nothing comes from outside: time passes, by an amount the host decides (R45, R292). -/
def idleTime (s : State) : State := drawWait s

/-! ### The command port (R39, R91, R320) -/

/-- The host's write of `CMD`. -/
def latchCmd (w : Byte) (s : State) : State := { s with cmd := w }

/-- A command is accepted: `BUSY <- 1`, and `pre` cycles pass before its first action (R39, R320). -/
def accept (s : State) : State := drawWait { s with busy := true }

/-- A command has run to completion: `post` cycles pass after its last action, then `BUSY <- 0` (R39, R320). -/
def retire (s : State) : State := { drawWait s with busy := false }

/-- What stands before an operation: acceptance, for a command. A micro-operation and a lookup have no overhead (R320 is
about commands). -/
def beginOp (f : Format) (s : State) : State :=
  match f with
  | .cmd => accept s
  | .uop => s
  | .bitsel => s
  | .cosel => s

/-- What stands after an operation. -/
def finishOp (f : Format) (o : Result State) : Result State :=
  match f with
  | .cmd => chain o (fun t => .next (retire t))
  | .uop => o
  | .bitsel => o
  | .cosel => o

/-- After a clock cycle of a command, or its start: the command is complete when the sequencer is idle (R39, R41). -/
def settle (o : Result State) : Result State :=
  chain o fun t =>
    match t.seq.pos with
    | .idle => .next (retire t)
    | .tx _ => .next t
    | .dly _ _ => .next t

/-! ### Interrupt requests (log 15) -/

/-- A request is held by the host while `IE = 0` (R263). -/
def holdIrq (n : Nat) (s : State) : State := { s with heldIrq := s.heldIrq ++ [n] }

/-- A handler of `n` cycles runs: during a TRANSMIT the output is corrupted (R253); otherwise time passes and nothing of
the core moves, so a delay in progress is lengthened (R235, R262). -/
def takeIrq (n : Nat) (s : State) : Result State :=
  match s.seq.pos with
  | .tx _ => .fault .sessionInterrupted
  | .idle => .next (wait n s)
  | .dly _ _ => .next (wait n s)

/-- A request arrives. -/
def requestIrq (n : Nat) (s : State) : Result State :=
  if s.ie then takeIrq n s else .next (holdIrq n s)

/-- The held request that is taken now: the oldest, once `IE = 1` (R263). -/
def heldRequest (s : State) : Option (Nat × State) :=
  match s.heldIrq with
  | [] => none
  | n :: rest => if s.ie then some (n, { s with heldIrq := rest }) else none

/-- The request that arrives now, while a command is stepped cycle by cycle: the next thing from outside, if its cycle
has come. Everything else from outside waits, since the host thread is stopped (R77). -/
def arrivingRequest (s : State) : Option (Nat × State) :=
  match s.inputs with
  | [] => none
  | .interrupt t n :: rest => if t ≤ s.cycle then some (n, { s with inputs := rest }) else none
  | .cmd _ :: _ => none
  | .cmdByCycle _ :: _ => none
  | .uop _ :: _ => none
  | .bitsel :: _ => none
  | .cosel _ :: _ => none
  | .host _ :: _ => none

/-- While the core is idle time passes until the request arrives (R45). -/
def waitUntil (t : Nat) (s : State) : State := wait (t - s.cycle) s

/-! ### Placing one word where the next step fetches (log 4) -/

/-- The input that presents a byte of a format. A `BITSEL` byte stands in `SEQ.SHREG` (R109). -/
def presenting (f : Format) (w : Byte) : Input :=
  match f with
  | .cmd => .cmd w
  | .uop => .uop w
  | .bitsel => .bitsel
  | .cosel => .cosel w

/-- The machine about to run the operation that a byte of a format names with the given operand registers: the sequencer
idle, no interrupt held, the byte next. -/
def placeWord (f : Format) (w : Byte) (o : Operands) (s : State) : State :=
  { s with
    seq := { s.seq with pos := .idle, shreg := if f = .bitsel then w else s.seq.shreg }
    busy := false
    heldIrq := []
    ops := o
    inputs := presenting f w :: s.inputs }

/-! ### Launch (R7, R147, R255, R290) -/

/-- A core with the parameters `c`, right after reset; none exists for parameters outside Table P1 or for a rejected
configuration (R7, I19). -/
def launch (c : Config) : Except LaunchError State :=
  match launchError c with
  | some e => .error e
  | none => .ok { State.reset with cfg := c }

end Sys2Proof.Machine
end

