-- ==== Sys2Proof/Machine/Sequencer.lean ====
section
/-! DEFINITION. The cycle-by-cycle form of the sequencer (spec/42_byte_frame_transmitter.md rule R184,
spec/10_state.md rules R40 and R41): how a command starts, and what one clock cycle does while it runs. The meanings of
R171 to R177 and R230 are the ones that govern; this is the spec's other reading of them (log 14). -/

namespace Sys2Proof.Machine

/-! ### TX -/

/-- `PinsHigh(); phase <- H; rem <- N_H(bit)` (R184), the primitive's precondition checked first (R153). -/
def riseAt (p : TxPos) (s : State) : Result State :=
  unlessFault (primitiveFault s) <| .next <|
    setPos (.tx { p with phase := .h, rem := highCycles s.cfg (selectsOne s.seq.shreg) }) (pinsHigh s)

/-- `SEQ.SHREG <- MemRead(base + 3*i + dev.ORDER[j], 1)`, then the first rising edge of the byte (R66, R184). -/
def enterByte (p : TxPos) (s : State) : Result State :=
  chain (memRead (pixelAddress p.order (p.base + 3 * p.i) p.j) s) fun r => riseAt p (loadShreg r.1 r.2)

/-- `PinsLow(); phase <- L; rem <- N_L(bit)` (R184). -/
def fallAt (p : TxPos) (s : State) : State :=
  setPos (.tx { p with phase := .l, rem := lowCycles s.cfg (selectsOne s.seq.shreg) }) (pinsLow s)

/-- `advance` (R184): shift, then the next bit, the next byte, the next pixel, or the end. -/
def advance (p : TxPos) (s : State) : Result State :=
  let shifted := shiftShreg s
  if p.k < 7 then riseAt { p with k := p.k + 1 } shifted
  else if p.j < 2 then enterByte { p with j := p.j + 1, k := 0 } shifted
  else if p.i + 1 < p.count then enterByte { p with i := p.i + 1, j := 0, k := 0 } shifted
  else .next (setPos .idle shifted)

/-- One clock cycle while `op = TX` (R184). -/
def tickTx (p : TxPos) (s : State) : Result State :=
  let waited := wait 1 s
  if 1 < p.rem then .next (setPos (.tx { p with rem := p.rem - 1 }) waited)
  else
    match p.phase with
    | .h => .next (fallAt p waited)
    | .l =>
      if 0 < gapAfter s.cfg p.j p.k then
        .next (setPos (.tx { p with phase := .g, rem := gapAfter s.cfg p.j p.k }) waited)
      else advance p waited
    | .g => advance p waited

/-- `start` (R184): TRANSMIT accepted. Its checks are those of R173 and R176; `count = 0` leaves the sequencer idle
(R41). -/
def startTransmit (dev : Handle) (base count : Nat) (s : State) : Result State :=
  admitHandle dev <| admitRange s.cfg base count <| unlessFault (transmitFault s) <|
    if count = 0 then .next s
    else
      enterByte
        { order := dev.order, base := base, count := count, i := 0, j := 0, k := 0, phase := .h, rem := 0 } s

/-! ### DLY -/

/-- The end of a delay: `irq_leave()`, and the sequencer is idle again (R41, R236). -/
def endDelay (saved : Bool) (s : State) : State := irqLeave saved (setPos .idle (loadDly 0 s))

/-- A delay starts (R230, R41): `irq_enter()`, the iterations loaded, `rem` the total delay cycles. -/
def startDelay (n : Nat) (s : State) : State :=
  let entered := loadDly (iters s.cfg n) (irqEnter s)
  if delayCycles s.cfg n = 0 then endDelay s.ie entered
  else setPos (.dly (delayCycles s.cfg n) s.ie) entered

/-- One clock cycle while `op = DLY` (R41). `SEQ.DLY` is decremented at the end of each turn of the loop, which comes
after the `DELAY_OVH` cycles (R230), so it is the number of turns that the cycles left still hold. -/
def tickDly (rem : Nat) (saved : Bool) (s : State) : State :=
  let waited := wait 1 s
  if rem ≤ 1 then endDelay saved waited
  else
    setPos (.dly (rem - 1) saved)
      (loadDly (min waited.seq.dly (ceilDiv (rem - 1) s.cfg.delayIterCyc)) waited)

/-! ### The sequencer as a whole -/

/-- One clock cycle of a command in progress. -/
def tick (s : State) : Result State :=
  match s.seq.pos with
  | .idle => .next s
  | .tx p => tickTx p s
  | .dly rem saved => .next (tickDly rem saved s)

/-- A command is accepted, to be stepped cycle by cycle. PREPARE, the no-ops and COLORTAB leave the sequencer idle (R41);
an operation the host port does not name is run as by itself. -/
def startCommand (i : Instr) (s : State) : Result State :=
  match i with
  | .prepare dev => execPrepare dev s
  | .transmit dev base count => startTransmit dev base count s
  | .waitReset dev => admitHandle dev (.next (startDelay dev.resetUs s))
  | .close dev =>
    admitHandle dev (.next (if s.ses.isOpen then startDelay dev.resetUs (closeSession s) else s))
  | .txbit0 => execTxbit0 s
  | .txbit1 => execTxbit1 s
  | .txbyte b => execTxbyte b s
  | .txpixel dev addr => execTxpixel dev addr s
  | .delayUs n => execDelayUs n s
  | .colortabRgb => execColortabRgb s
  | .colortabRbg => execColortabRbg s
  | .colortabGrb => execColortabGrb s
  | .colortabGbr => execColortabGbr s
  | .colortabBrg => execColortabBrg s
  | .colortabBgr => execColortabBgr s

/-- Clock cycles until the sequencer is idle, at most `fuel` of them. -/
def runCycles : Nat → State → Result State
  | 0, s => .next s
  | fuel + 1, s =>
    match s.seq.pos with
    | .idle => .next s
    | _ => chain (tick s) (runCycles fuel)

end Sys2Proof.Machine
end

