-- ==== Sys2Proof/Machine/Step.lean ====
section
/-! DEFINITION. One step of the machine: a held interrupt that may be taken, else a clock cycle of the command in progress,
else the next thing that comes from outside (spec/00_scope.md rule R15, spec/20_memory.md rule R77). -/

namespace Sys2Proof.Machine

/-- The operation a byte of a format names runs to completion (R15, R91). -/
def issue (f : Format) (w : Byte) (s : State) : Host.Outcome State Fault Refusal :=
  match decode f w s.ops with
  | .error e => .refused (.undecodable e)
  | .ok i => finishOp f (exec i (beginOp f s))

/-- The command a `CMD` byte names is accepted, to be stepped cycle by cycle (R184). -/
def issueByCycle (w : Byte) (s : State) : Host.Outcome State Fault Refusal :=
  match decode .cmd w s.ops with
  | .error e => .refused (.undecodable e)
  | .ok i => settle (startCommand i (accept s))

/-- What the next thing from outside does, the sequencer being idle. -/
def runInput (inp : Input) (s : State) : Host.Outcome State Fault Refusal :=
  match inp with
  | .cmd w => issue .cmd w (latchCmd w s)
  | .cmdByCycle w => issueByCycle w (latchCmd w s)
  | .uop w => issue .uop w s
  | .bitsel => issue .bitsel s.seq.shreg s
  | .cosel w => issue .cosel w s
  | .host h => hostAct h s
  | .interrupt t n => requestIrq n (waitUntil t s)

/-- The sequencer is idle: the next thing from outside, or time passes. -/
def stepIdle (s : State) : Host.Outcome State Fault Refusal :=
  match s.inputs with
  | [] => .next (idleTime s)
  | inp :: rest => runInput inp { s with inputs := rest }

/-- A command is in progress: an interrupt request that arrives now, or one clock cycle. -/
def stepBusy (s : State) : Host.Outcome State Fault Refusal :=
  match arrivingRequest s with
  | some r => requestIrq r.1 r.2
  | none => settle (tick s)

/-- One step. -/
def step (s : State) : Host.Outcome State Fault Refusal :=
  match heldRequest s with
  | some r => takeIrq r.1 r.2
  | none =>
    match s.seq.pos with
    | .idle => stepIdle s
    | .tx _ => stepBusy s
    | .dly _ _ => stepBusy s

/-- `s` with the opcode-table word `w` of `nbits` bits where the next step takes its operation from (log 4). -/
def State.withFetchWord (s : State) (nbits w : Nat) : State :=
  placeWord (tableFormat nbits w) (BitVec.ofNat 8 w) tableOperands s

end Sys2Proof.Machine
end

