-- ==== Sys2Proof/Machine/Schedule.lean ====
section
/-! DEFINITION. What a transmission looks like from outside, said without the sequencer: which bytes and bits go out in
which order (spec/20_memory.md rules R61, R62, R65) and at which cycles the edges fall (spec/42_byte_frame_transmitter.md
rule R177). Statements compare the meanings with it. -/

namespace Sys2Proof.Machine

/-- The eight symbols of a byte, bit 7 first (R61, R101). -/
def bitsOf (b : Byte) : List Bool := (List.range 8).map (bitOf b)

/-- The addresses read for one record, in wire order (R62, R172). -/
def recordAddresses (o : Order) (addr : Nat) : List Nat :=
  [pixelAddress o addr 0, pixelAddress o addr 1, pixelAddress o addr 2]

/-- The addresses a TRANSMIT reads, in wire order (R65). -/
def wireAddresses (o : Order) : Nat → Nat → List Nat
  | _, 0 => []
  | addr, n + 1 => recordAddresses o addr ++ wireAddresses o (addr + 3) n

/-- The value of every byte of a list of addresses, if each has one. -/
def bytesAt (m : Memory) : List Nat → Option (List Byte)
  | [] => some []
  | a :: rest =>
    match Memory.read m a, bytesAt m rest with
    | some v, some vs => some (v :: vs)
    | _, _ => none

/-- The bits of a byte sequence in wire order (R61). -/
def wireBits (bs : List Byte) : List Bool := bs.flatMap bitsOf

/-- `g_n` (R177): the gap after symbol `n` of a TRANSMIT. -/
def gapAt (c : Config) (n : Nat) : Nat :=
  (if n % 8 = 7 then c.gapByte else 0) + (if n % 24 = 23 then c.gapPixel else 0)

/-- The edge schedule (R177): symbol `n`, started at cycle `t`, rises at `t` and falls `N_H` later; the next symbol starts
after its `N_L` and `g_n`. -/
def edgeTimes (c : Config) : Nat → Nat → List Bool → List (Nat × Nat)
  | _, _, [] => []
  | n, t, b :: rest =>
    (t, t + highCycles c b) :: edgeTimes c (n + 1) (t + symbolCycles c b + gapAt c n) rest

/-- `t_M` (R177): the cycle at which the loops end. -/
def endTime (c : Config) : Nat → Nat → List Bool → Nat
  | _, t, [] => t
  | n, t, b :: rest => endTime c (n + 1) (t + symbolCycles c b + gapAt c n) rest

/-- The port writes of a schedule: the high value at each rise, the low value at each fall. -/
def edgeWrites (hi lo : Byte) (es : List (Nat × Nat)) : List (Nat × Byte) :=
  es.flatMap (fun e => [(e.1, hi), (e.2, lo)])

/-- How long one record lasts (R174): its three bytes and `GAP_PIXEL`. -/
def recordCycles (c : Config) (b0 b1 b2 : Byte) : Nat :=
  byteCycles c b0 + byteCycles c b1 + byteCycles c b2 + c.gapPixel

/-- How long the records of a byte sequence last (R174). -/
def streamCycles (c : Config) : List Byte → Nat
  | b0 :: b1 :: b2 :: rest => recordCycles c b0 b1 b2 + streamCycles c rest
  | _ => 0

end Sys2Proof.Machine
end

