-- ==== Sys2Proof/Machine/Observe.lean ====
section
/-! DEFINITION. What an observer of the pins sees (spec/10_state.md rule R47): functions of the `W` events of TRACE, none of
them state. -/

namespace Sys2Proof.Machine

/-- The `W` events of a port, in order: cycle and value. -/
def portWrites (a : Nat) : List Event → List (Nat × Byte)
  | [] => []
  | .w t b v :: rest => if a = b then (t, v) :: portWrites a rest else portWrites a rest
  | .r _ _ _ :: rest => portWrites a rest
  | .i _ _ :: rest => portWrites a rest

/-- The reads of pixel memory, in order: cycle, address, value. -/
def memoryReads : List Event → List (Nat × Nat × Byte)
  | [] => []
  | .r t a v :: rest => (t, a, v) :: memoryReads rest
  | .w _ _ _ :: rest => memoryReads rest
  | .i _ _ :: rest => memoryReads rest

/-- The level of pin `p` at cycle `t` (R47 a): that of the last write with effect by then, or the level `start`. -/
def levelAt (p t : Nat) (start : Bool) : List (Nat × Byte) → Bool
  | [] => start
  | (u, v) :: rest => if u ≤ t then levelAt p t (v.getLsbD p) rest else start

/-- Pin level (R47 a), from the platform's reset value of the port. -/
def pinLevel (a p t : Nat) (start : Byte) (tr : List Event) : Bool :=
  levelAt p t (start.getLsbD p) (portWrites a tr)

/-- One pulse of a pin: the cycles of its rising and of its falling edge. -/
structure Pulse where
  rise : Nat
  fall : Nat
deriving DecidableEq, Repr

/-- The completed pulses of pin `p`. `up` is the cycle since which the pin is high, if it is; a pin that is high at the
start has no rising edge there and its first fall completes no pulse (log 18). -/
def pulsesFrom (p : Nat) (level : Bool) (up : Option Nat) : List (Nat × Byte) → List Pulse
  | [] => []
  | (t, v) :: rest =>
    match level, v.getLsbD p, up with
    | false, true, _ => pulsesFrom p true (some t) rest
    | true, false, some r => ⟨r, t⟩ :: pulsesFrom p false none rest
    | true, false, none => pulsesFrom p false none rest
    | _, same, _ => pulsesFrom p same up rest

/-- The pulses of pin `p` of port `a`. -/
def pulses (a p : Nat) (start : Byte) (tr : List Event) : List Pulse :=
  pulsesFrom p (start.getLsbD p) none (portWrites a tr)

/-- What a pulse carries (R47 b): `1` if it is `N_1H` cycles high, `0` if `N_0H`, else no symbol (log 18). -/
def symbolOf (c : Config) (q : Pulse) : Option Bool :=
  if q.fall = q.rise + c.n1H then some true
  else if q.fall = q.rise + c.n0H then some false
  else none

/-- The symbol stream of a pin (R47 b): its pulses that are symbols; one of another length is left out (log 18). -/
def symbols (c : Config) (a p : Nat) (start : Byte) (tr : List Event) : List Bool :=
  (pulses a p start tr).filterMap (symbolOf c)

/-- The pin stayed low from `t` to `u` for at least `STRIP_RESET_US` microseconds (R47 c). -/
def latches (c : Config) (t u : Nat) : Bool := decide (c.stripResetUs * c.fClk ≤ (u - t) * 1000000)

/-- The pulses cut into frames (R47 c); `cur` is the frame in progress, its newest pulse first. -/
def framesFrom (c : Config) (cur : List Pulse) : List Pulse → List (List Pulse)
  | [] => if cur.isEmpty then [] else [cur.reverse]
  | q :: rest =>
    match cur with
    | [] => framesFrom c [q] rest
    | last :: _ =>
      if latches c last.fall q.rise then cur.reverse :: framesFrom c [q] rest
      else framesFrom c (q :: cur) rest

/-- The frames of a pin (R47 c): the symbol stream, cut wherever the pin stays low long enough. A pulse of another length
is no symbol of its frame, but it ends a low period (log 18). -/
def frames (c : Config) (a p : Nat) (start : Byte) (tr : List Event) : List (List Bool) :=
  (framesFrom c [] (pulses a p start tr)).map (fun f => f.filterMap (symbolOf c))

/-- The colour data of LED `n` of a frame: its symbols `24*n .. 24*n + 23` (R47 c). -/
def ledData (n : Nat) (frame : List Bool) : List Bool := (frame.drop (24 * n)).take 24

end Sys2Proof.Machine
end

