-- ==== Sys2Proof/WellFormed.lean ====
section
/-! DEFINITION. When an operation's operands are values the operand registers can hold and a handle the configuration
step can produce (spec/10_state.md rules R22 to R26, R29, R39). -/

namespace Sys2Proof

/-- A handle the core may be given: its fields fit their registers and it is `WF_DEV`. -/
def handleOk (c : Config) (d : Handle) : Bool :=
  decide (d.port < 2 ^ c.addrW) && decide (d.resetUs < 2 ^ delayBits c) && wfDev d

/-- A well-formed operation: every operand fits its register, every handle is well-formed. -/
def Instr.wf (c : Config) (i : Instr) : Bool :=
  match i with
  | .prepare d => handleOk c d
  | .transmit d b n => handleOk c d && decide (b < 2 ^ c.addrW) && decide (n < 2 ^ c.countW)
  | .waitReset d => handleOk c d
  | .close d => handleOk c d
  | .txbit0 => true
  | .txbit1 => true
  | .txbyte _ => true
  | .txpixel d a => handleOk c d && decide (a < 2 ^ c.addrW)
  | .delayUs n => decide (n < 2 ^ delayBits c)
  | .colortabRgb => true
  | .colortabRbg => true
  | .colortabGrb => true
  | .colortabGbr => true
  | .colortabBrg => true
  | .colortabBgr => true

end Sys2Proof
end

