-- ==== Sys2Proof/Safety.lean ====
section
/-! DEFINITION. What a sound state is, what the host must do and must never do (spec/70_reset_and_hazards.md rules R298 to
R317, Table H1), and what a state looks like in a run whose host does its duty. -/

namespace Sys2Proof.Machine

/-! ### Runs -/

/-- `n` steps, ending at the first that does not go on. -/
def runSteps : Nat → State → Result State
  | 0, s => .next s
  | n + 1, s => chain (step s) (runSteps n)

/-! ### The invariant of every run -/

/-- Every address of a list of cells exists. -/
def cellsInside (c : Config) (m : List Host.Cell) : Bool := m.all (fun e => decide (e.1 < 2 ^ c.addrW))

/-- The operand registers hold values of their widths (R22, R24, R39). The handle need not be `WF_DEV`: a command that
names one that is not is refused. -/
def operandsFit (c : Config) (o : Operands) : Bool :=
  (match o.dev with
    | none => true
    | some d => decide (d.port < 2 ^ c.addrW) && decide (d.resetUs < 2 ^ delayBits c)) &&
  decide (o.base < 2 ^ c.addrW) && decide (o.count < 2 ^ c.countW) &&
  decide (o.uaddr < 2 ^ c.addrW) && decide (o.un < 2 ^ delayBits c)

/-- The session's cached fields (R33, R34): the port exists, the low mask is the complement of the high one, and an open
session has been written by a PREPARE. -/
def sessionOk (c : Config) (x : Session) : Bool :=
  decide (x.cPort < 2 ^ c.addrW) && x.cMaskLo == ~~~x.cMaskHi && (!x.isOpen || x.written)

/-- `SEQ.POS` in its ranges (R40), and what a TRANSMIT in progress relies on (R34 d, R177): interrupts are disabled and
the session can be emitted from. -/
def positionOk (s : State) : Bool :=
  match s.seq.pos with
  | .idle => true
  | .tx p =>
    decide (p.i < p.count) && decide (p.j < 3) && decide (p.k < 8) && decide (1 ≤ p.rem) &&
    decide (p.base + 3 * p.count ≤ 2 ^ s.cfg.addrW) && permutes p.order &&
    !s.ie && (s.ses.isOpen || s.cfg.txClosed == .emit)
  | .dly rem _ => decide (1 ≤ rem) && decide (s.seq.dly * s.cfg.delayIterCyc < rem + s.cfg.delayIterCyc)

/-- The sequencer is busy exactly while `BUSY = 1` (R39, R41). -/
def busyAgrees (s : State) : Bool :=
  match s.seq.pos with
  | .idle => !s.busy
  | .tx _ => s.busy
  | .dly _ _ => s.busy

/-- The cycle of an event. -/
def eventTime : Event → Nat
  | .w t _ _ => t
  | .r t _ _ => t
  | .i t _ => t

/-- The events of the trace stand in order of occurrence, none later than now (R46). -/
def traceOrdered (s : State) : Prop :=
  (s.trace.map eventTime).Pairwise (· ≤ ·) ∧ ∀ e ∈ s.trace, eventTime e ≤ s.cycle

/-- What holds of every state of every run of a core that exists. -/
structure Inv (s : State) : Prop where
  config    : buildable s.cfg = true
  memory    : Memory.wf s.mem = true
  memInside : cellsInside s.cfg s.mem = true
  ports     : Ports.wf s.ports = true
  portsInside : cellsInside s.cfg s.ports = true
  operands  : operandsFit s.cfg s.ops = true
  session   : sessionOk s.cfg s.ses = true
  position  : positionOk s = true
  busy      : busyAgrees s = true
  trace     : traceOrdered s

/-- The precondition of emission (R153, R176): interrupts are disabled, and the session is open or emission while Closed
is allowed. -/
def MayEmit (s : State) : Prop :=
  s.ie = false ∧ (s.ses.isOpen = true ∨ s.cfg.txClosed = .emit)

/-! ### The host's duties (Table H1) -/

/-- The masked pins of a port are low. -/
def pinsAreLow (p : Ports) (a : Nat) (mask : Byte) : Bool := Ports.read p a &&& mask == 0

/-- The host's duty when it writes the command `w` (R299, R301, R305): PREPARE finds the pins of the handle low, and
TRANSMIT is issued only while Prepared. R299 asks for low pins before the first TRANSMIT after power-up only; that every
PREPARE while Closed finds them low is the model's choice (log 29, DESIGN CHOICE). -/
def dutifulCommand (s : State) (w : Byte) : Bool :=
  if w = 0x00 then
    s.ses.isOpen ||
      (match s.ops.dev with
        | none => true
        | some d => pinsAreLow s.ports d.port d.maskHi)
  else if w = 0x01 then s.ses.isOpen
  else true

/-- The host's duty in an act of its thread (R304, R311): while Prepared it never sets `IE` and never changes a masked
pin of the session's port. -/
def dutifulAct (s : State) (h : HostAct) : Bool :=
  match h with
  | .writeIe v => !(s.ses.isOpen && v)
  | .writePort a v =>
    !(s.ses.isOpen && a == s.ses.cPort) || (v ^^^ Ports.read s.ports a) &&& s.ses.cMaskHi == 0
  | .writeMem _ _ => true
  | .elapse _ => true
  | .setHandle _ => true
  | .setBase _ => true
  | .setCount _ => true
  | .setMicro _ _ _ => true

/-- An input that breaks no duty of the host. The micro-operation ports are not the host's (R94): a dutiful host leaves
them alone. -/
def dutiful (s : State) (inp : Input) : Bool :=
  match inp with
  | .cmd w => dutifulCommand s w
  | .cmdByCycle w => dutifulCommand s w
  | .uop _ => false
  | .bitsel => false
  | .cosel _ => true
  | .host h => dutifulAct s h
  | .interrupt _ _ => true

/-- The next thing from outside breaks no duty. -/
def nextIsDutiful (s : State) : Bool :=
  match s.inputs with
  | [] => true
  | inp :: _ => dutiful s inp

/-! ### What such a host can rely on -/

/-- The masked pins are in a high segment. -/
def inHighSegment (s : State) : Bool :=
  match s.seq.pos with
  | .idle => false
  | .tx p => p.phase == .h
  | .dly _ _ => false

/-- The precondition of emission stands (R34 d), and the line rests low outside the high segments (R95, R212). -/
structure Calm (s : State) : Prop where
  /-- Prepared means interrupts disabled. -/
  masked : s.ses.isOpen = true → s.ie = false
  /-- A delay inside a session puts a disabled `IE` back. -/
  saved  : s.ses.isOpen = true → ∀ rem x, s.seq.pos = .dly rem x → x = false
  /-- A TRANSMIT runs only inside a session. -/
  inside : ∀ p, s.seq.pos = .tx p → s.ses.isOpen = true
  /-- The masked pins are low. -/
  low    : s.ses.isOpen = true → inHighSegment s = false →
    pinsAreLow s.ports s.ses.cPort s.ses.cMaskHi = true

/-- The faults of Table X1: what misuse of a session ends in. -/
def isMisuse (f : Fault) : Bool :=
  match f with
  | .transmitWhileClosed => true
  | .primitiveOutsideSession => true
  | .interruptsEnabled => true
  | .sessionInterrupted => true
  | .pixelWithoutValue => false

/-- The launch premises of R298 to R300 that the state can show: a well-formed handle is in place and its data pins are
low. That the pins are outputs is outside the core (R298). -/
def readyToPrepare (s : State) : Bool :=
  match s.ops.dev with
  | none => false
  | some d => handleOk s.cfg d && pinsAreLow s.ports d.port d.maskHi

/-- The continuation hazard (R307): the line has been low since cycle `t`, and the strip would not have latched by `u`. -/
def continuesFrame (c : Config) (t u : Nat) : Bool := !latches c t u

end Sys2Proof.Machine
end

