-- ==== Sys2Proof/Certificates/Slice0/Obligations.lean ====
section
/-! DEFINITION. The statements for the provers, from the numbered rules of spec/. Each says in its docstring which rule it
formalises, or that it rests on a choice of the model. -/

open Sys2Proof Sys2Proof.Machine

/-! ## Decoding and encoding -/

/-- R108: a `CMD` byte 0x00 to 0x03 names one of the four commands, with the operands of the operand registers, and every
other byte, one with a nonzero high nibble among them, is refused. Where the handle operand was never populated the four
are refused too (R20, R258, I22). -/
def Obligations.CommandBytesDecodeAsTableE2 : Prop :=
  ∀ (w : Byte) (o : Operands),
    (∀ d, o.dev = some d →
      (w = 0x00 → decode .cmd w o = .ok (.prepare d)) ∧
      (w = 0x01 → decode .cmd w o = .ok (.transmit d o.base o.count)) ∧
      (w = 0x02 → decode .cmd w o = .ok (.waitReset d)) ∧
      (w = 0x03 → decode .cmd w o = .ok (.close d))) ∧
    (o.dev = none → w.toNat ≤ 0x03 → decode .cmd w o = .error .handleNotPopulated) ∧
    (0x03 < w.toNat → ∃ e, decode .cmd w o = .error e)

/-- R100, R109: the primitive is selected by bit 7 alone, and every byte selects one of the two. -/
def Obligations.BitSevenSelectsThePrimitive : Prop :=
  ∀ (w : Byte) (o : Operands),
    (w &&& 0x80 = 0x80 → decode .bitsel w o = .ok .txbit1) ∧
    (w &&& 0x80 = 0x00 → decode .bitsel w o = .ok .txbit0) ∧
    (w &&& 0x80 = 0x80 ∨ w &&& 0x80 = 0x00)

/-- R94 (Table E2): the indices 0x4 to 0x8 name the five micro-operations, and no other index names one; TXPIXEL, whose
handle operand was never populated, is refused (R20, I22). That a byte with a bit above the 4-bit index is refused is the
model's choice (log 6). -/
def Obligations.MicroOperationIndicesNameTheFive : Prop :=
  ∀ (w : Byte) (o : Operands),
    (w = 0x04 → decode .uop w o = .ok .txbit0) ∧
    (w = 0x05 → decode .uop w o = .ok .txbit1) ∧
    (w = 0x06 → decode .uop w o = .ok (.txbyte o.ub)) ∧
    (∀ d, w = 0x07 → o.dev = some d → decode .uop w o = .ok (.txpixel d o.uaddr)) ∧
    (w = 0x07 → o.dev = none → decode .uop w o = .error .handleNotPopulated) ∧
    (w = 0x08 → decode .uop w o = .ok (.delayUs o.un)) ∧
    (w.toNat < 0x04 ∨ 0x08 < w.toNat → ∃ e, decode .uop w o = .error e)

/-- R110, R114: selectors 0 to 5 by Table E3; 6 and 7 are refused. That a byte with a bit above the 3-bit selector is
refused too is the model's choice (log 6). -/
def Obligations.SelectorsDecodeAsTableE3 : Prop :=
  ∀ (w : Byte) (o : Operands),
    (w = 0 → decode .cosel w o = .ok .colortabRgb) ∧
    (w = 1 → decode .cosel w o = .ok .colortabRbg) ∧
    (w = 2 → decode .cosel w o = .ok .colortabGrb) ∧
    (w = 3 → decode .cosel w o = .ok .colortabGbr) ∧
    (w = 4 → decode .cosel w o = .ok .colortabBrg) ∧
    (w = 5 → decode .cosel w o = .ok .colortabBgr) ∧
    (5 < w.toNat → ∃ e, decode .cosel w o = .error e)

/-- Every well-formed operation, with every operand at every value its register holds, is what the decoder reads from its
encoding: the widths of the operand registers drop no bit of it. -/
def Obligations.DecodeOfEncodeIsTheOperation : Prop :=
  ∀ (c : Config) (i : Instr), i.wf c = true →
    decode (encode c i).format (encode c i).word (encode c i).ops = .ok i

/-- The other direction: in the formats `CMD`, `UOP` (but for the two indices that name the primitives, whose own format
is `BITSEL`) and `COSEL` an operation has one word, the encoder's. In `UOP` and `COSEL` that holds because a byte with a bit
above the 4-bit index or the 3-bit selector is refused, which is the model's choice (log 6). -/
def Obligations.EachOperationHasOneWord : Prop :=
  ∀ (c : Config) (f : Format) (w : Byte) (o : Operands) (i : Instr),
    f ≠ .bitsel → i ≠ .txbit0 → i ≠ .txbit1 → decode f w o = .ok i →
      f = (encode c i).format ∧ w = (encode c i).word

/-- A few words of the opcode table, written out: a sanity check of the decoder. -/
def Obligations.TableWordsDecode : Prop :=
  decodeTableWord 8 0b00000000 = some (.prepare ⟨0, 0x00, 0xFF, 0, ⟨0, 1, 2⟩⟩) ∧
  decodeTableWord 8 0b00000011 = some (.close ⟨0, 0x00, 0xFF, 0, ⟨0, 1, 2⟩⟩) ∧
  decodeTableWord 8 0b10000000 = some .txbit1 ∧
  decodeTableWord 8 0b01111111 = some .txbit0 ∧
  decodeTableWord 4 0b0110 = some (.txbyte 0x00) ∧
  decodeTableWord 4 0b1000 = some (.delayUs 0) ∧
  decodeTableWord 3 0b010 = some .colortabGrb ∧
  decodeTableWord 3 0b110 = none

/-! ## Reset and the step -/

/-- R31, R39, R40, R45, R46, R67 (Table I1 of R291): what reset leaves where the spec says it. -/
def Obligations.ResetLeavesWhatTableI1Gives : Prop :=
  State.reset.ses.isOpen = false ∧ State.reset.busy = false ∧ State.reset.seq.pos = .idle ∧
  State.reset.ops.dev = none ∧ State.reset.cycle = 0 ∧ State.reset.trace = [] ∧
  ∀ a, Memory.read State.reset.mem a = none

/-- The invariant `Inv` holds right after reset, and after the launch of every core that exists. -/
def Obligations.LaunchMeetsTheInvariant : Prop :=
  Inv State.reset ∧ ∀ c s, launch c = .ok s → Inv s

/-- When the host's next act is a write of `CMD` that decodes, the sequencer being idle and no held interrupt taken, the
step is `exec` of that operation, with the command's overhead around it: `CMD` and `BUSY` written and `pre` cycles before,
`post` cycles and `BUSY` cleared after (R39, R91, R320). -/
def Obligations.StepRunsTheDecodedCommand : Prop :=
  ∀ (s : State) (w : Byte) (rest : List Input) (i : Instr),
    s.seq.pos = .idle → (s.ie = false ∨ s.heldIrq = []) → s.inputs = .cmd w :: rest →
    decode .cmd w s.ops = .ok i →
      step s =
        chain (exec i { s with inputs := rest, cmd := w, busy := true,
                               cycle := s.cycle + Config.draw s.draws, draws := s.draws + 1 })
          (fun t => .next { t with busy := false, cycle := t.cycle + Config.draw t.draws, draws := t.draws + 1 })

/-- The same for the model's other ports: a micro-operation index, the primitive selected by `SEQ.SHREG`, a selector. They
have no overhead, so the step is `exec` of the decoded operation (model's choice: log 6). -/
def Obligations.StepRunsTheDecodedMicroOperation : Prop :=
  ∀ (s : State) (rest : List Input) (i : Instr),
    s.seq.pos = .idle → (s.ie = false ∨ s.heldIrq = []) →
    (∀ w, s.inputs = .uop w :: rest → decode .uop w s.ops = .ok i → step s = exec i { s with inputs := rest }) ∧
    (s.inputs = .bitsel :: rest → decode .bitsel s.seq.shreg s.ops = .ok i →
      step s = exec i { s with inputs := rest }) ∧
    (∀ w, s.inputs = .cosel w :: rest → decode .cosel w s.ops = .ok i → step s = exec i { s with inputs := rest })

/-- R113: a `CMD` byte with a nonzero bit in `[7:4]`, of a micro-operation, or unassigned, is refused; and every `CMD` byte
is while the handle operand was never populated (R20, R258). -/
def Obligations.OtherCommandBytesAreRefused : Prop :=
  ∀ (s : State) (w : Byte) (rest : List Input),
    s.seq.pos = .idle → (s.ie = false ∨ s.heldIrq = []) →
    (s.inputs = .cmd w :: rest ∨ s.inputs = .cmdByCycle w :: rest) →
    (w &&& 0xF0 ≠ 0 ∨ 0x04 ≤ w.toNat ∨ s.ops.dev = none) →
      ∃ e, step s = .refused (.undecodable e)

/-- R39, R77: while a command is in progress (and stepped: log 14) the host thread makes no step: nothing it would do next is taken, and neither
its memory nor its operand registers change. Only an interrupt request may be taken from outside. -/
def Obligations.HostThreadIsStoppedWhileBusy : Prop :=
  ∀ (s t : State), s.seq.pos ≠ .idle → step s = .next t →
    t.mem = s.mem ∧ t.ops = s.ops ∧ t.cfg = s.cfg ∧ t.cmd = s.cmd ∧
    (t.inputs = s.inputs ∨ ∃ c n, s.inputs = .interrupt c n :: t.inputs)

/-! ## The session -/

/-- R201: PREPARE of a well-formed handle while Closed stashes `IE`, clears it, caches the handle's port and masks and
marks the session Prepared, records the one write of `IE`, and changes nothing else; no cycle passes. While Prepared it
writes nothing. A handle that is not well-formed is not admitted. (`written` is the model's own note that a PREPARE has
run: log 10.) -/
def Obligations.PrepareOpensTheSession : Prop :=
  ∀ (s : State) (d : Handle),
    (wfDev d = true → s.ses.isOpen = false →
      exec (.prepare d) s = .next { s with
        ses := { isOpen := true, savedIe := s.ie, cPort := d.port, cMaskHi := d.maskHi, cMaskLo := d.maskLo,
                 written := true }
        ie := false
        trace := s.trace ++ [.i s.cycle false] }) ∧
    (wfDev d = true → s.ses.isOpen = true → exec (.prepare d) s = .next s) ∧
    (wfDev d = false → exec (.prepare d) s = .refused .malformedHandle)

/-- R205: a second PREPARE with no CLOSE between, even one that names another handle, writes nothing: the two leave the
very state the first one left, in whichever state the first one ran; and there is no nesting count: one CLOSE closes the
session. -/
def Obligations.PrepareTwiceIsPrepareOnce : Prop :=
  ∀ (s : State) (d d' : Handle), wfDev d = true → wfDev d' = true →
    ∃ t, exec (.prepare d) s = .next t ∧ exec (.prepare d') t = .next t ∧ t.ses.isOpen = true ∧
      ∀ e, wfDev e = true → ∃ u, exec (.close e) t = .next u ∧ u.ses.isOpen = false

/-- R202, R206: CLOSE of a well-formed handle while Prepared restores `IE`, marks the session Closed, then waits out the
named handle's reset time: it is DELAY_US from the restored and closed state, and it completes; the cached fields keep
their values. While Closed it writes nothing, appends no event and does not wait. A handle that is not well-formed is not
admitted. -/
def Obligations.CloseRestoresThenWaits : Prop :=
  ∀ (s : State) (d : Handle),
    (wfDev d = true → s.ses.isOpen = true →
      ∃ t, exec (.close d) s = .next t ∧
        exec (.delayUs d.resetUs) { s with
          ie := s.ses.savedIe
          trace := s.trace ++ [.i s.cycle s.ses.savedIe]
          ses := { s.ses with isOpen := false } } = .next t ∧
        t.ses = { s.ses with isOpen := false }) ∧
    (wfDev d = true → s.ses.isOpen = false → exec (.close d) s = .next s) ∧
    (wfDev d = false → exec (.close d) s = .refused .malformedHandle)

/-- R203: WAIT_RESET is DELAY_US of the named handle's reset time, in either state; it completes and leaves the session,
the ports and the memory as they are. -/
def Obligations.WaitResetOnlyWaits : Prop :=
  ∀ (s : State) (d : Handle), wfDev d = true →
    ∃ t, exec (.waitReset d) s = .next t ∧ exec (.delayUs d.resetUs) s = .next t ∧
      t.ses = s.ses ∧ t.ports = s.ports ∧ t.mem = s.mem

/-- R26, R115, R258: a command that names a handle failing `WF_DEV` is refused, before any check. -/
def Obligations.MalformedHandleIsRefused : Prop :=
  ∀ (s : State) (d : Handle), (d.maskLo ≠ ~~~d.maskHi ∨ permutes d.order = false) →
    exec (.prepare d) s = .refused .malformedHandle ∧
    (∀ b n, exec (.transmit d b n) s = .refused .malformedHandle) ∧
    exec (.waitReset d) s = .refused .malformedHandle ∧
    exec (.close d) s = .refused .malformedHandle ∧
    (∀ a, exec (.txpixel d a) s = .refused .malformedHandle)

/-- R26: an order is a permutation exactly when each of 0, 1 and 2 is one of its elements. -/
def Obligations.WellFormedOrderIsABijection : Prop :=
  ∀ o : Order, permutes o = true ↔ ∀ v : Nat, v < 3 → ∃ j, j < 3 ∧ (orderAt o j).toNat = v

/-! ## The delay -/

/-- R230, R232, R236: DELAY_US completes. With interrupts disabled during the wait (masked by the mode, or disabled before)
it lasts exactly `DELAY_OVH + iters(n) * DELAY_ITER_CYC` cycles and leaves `SEQ.DLY` 0; `IE` and the `I` events are those
of the mode; nothing else changes. -/
def Obligations.DelayLastsExactly : Prop :=
  ∀ (s : State) (n : Nat),
    (s.cfg.irqMode = .leaveAlone → s.ie = false →
      exec (.delayUs n) s = .next { s with
        cycle := s.cycle + (s.cfg.delayOvh + iters s.cfg n * s.cfg.delayIterCyc)
        seq := { s.seq with dly := 0 } }) ∧
    (s.cfg.irqMode = .saveRestore →
      exec (.delayUs n) s = .next { s with
        cycle := s.cycle + (s.cfg.delayOvh + iters s.cfg n * s.cfg.delayIterCyc)
        seq := { s.seq with dly := 0 }
        trace := s.trace ++
          [.i s.cycle false, .i (s.cycle + (s.cfg.delayOvh + iters s.cfg n * s.cfg.delayIterCyc)) s.ie] }) ∧
    (s.cfg.irqMode = .disableEnable →
      exec (.delayUs n) s = .next { s with
        cycle := s.cycle + (s.cfg.delayOvh + iters s.cfg n * s.cfg.delayIterCyc)
        seq := { s.seq with dly := 0 }
        ie := true
        trace := s.trace ++
          [.i s.cycle false, .i (s.cycle + (s.cfg.delayOvh + iters s.cfg n * s.cfg.delayIterCyc)) true] })

/-- R235: with `IE = 1` during the wait it lasts the same plus a draw, for every value of the draw; nothing else changes but
the count of draws. -/
def Obligations.InterruptsOnlyLengthenTheDelay : Prop :=
  ∀ (s : State) (n : Nat), s.cfg.irqMode = .leaveAlone → s.ie = true →
    exec (.delayUs n) s = .next { s with
      cycle := s.cycle + (s.cfg.delayOvh + iters s.cfg n * s.cfg.delayIterCyc) + Config.draw s.draws
      draws := s.draws + 1
      seq := { s.seq with dly := 0 } }

/-- R234: DELAY_US never returns before `n` microseconds have passed, whatever the mode and whatever interrupts do; and
when no interrupt is taken (none can be, or the free value they draw is 0), the excess is less than
`DELAY_OVH + DELAY_ITER_CYC` cycles. Times are compared in microseconds times `F_CLK`. -/
def Obligations.DelayIsNeverShort : Prop :=
  ∀ (s t : State) (n : Nat), 1 ≤ s.cfg.delayIterCyc → exec (.delayUs n) s = .next t →
    n * s.cfg.fClk ≤ (t.cycle - s.cycle) * 1000000 ∧
    (s.cfg.irqMode ≠ .leaveAlone ∨ s.ie = false ∨ Config.draw s.draws = 0 →
      (t.cycle - s.cycle) * 1000000 <
        n * s.cfg.fClk + (s.cfg.delayOvh + s.cfg.delayIterCyc) * 1000000)

/-- R231: `iters(n)` is the least number of iterations whose cycles cover `n` microseconds. -/
def Obligations.IterationCountIsLeast : Prop :=
  ∀ (c : Config) (n m : Nat), 1 ≤ c.delayIterCyc →
    (iters c n ≤ m ↔ n * c.fClk ≤ m * c.delayIterCyc * 1000000)

/-! ## Emission -/

/-- R151: TXBIT1, its precondition met (R153), drives the masked pins high for `N_1H` cycles and low for `N_1L`: two writes
of the session's port, two `W` events, the cycles, and nothing else. -/
def Obligations.Txbit1EmitsAOne : Prop :=
  ∀ s : State, MayEmit s →
    exec .txbit1 s = .next { s with
      ports := Ports.write s.ses.cPort
        (Ports.read (Ports.write s.ses.cPort (Ports.read s.ports s.ses.cPort ||| s.ses.cMaskHi) s.ports) s.ses.cPort
          &&& s.ses.cMaskLo)
        (Ports.write s.ses.cPort (Ports.read s.ports s.ses.cPort ||| s.ses.cMaskHi) s.ports)
      cycle := s.cycle + s.cfg.n1H + s.cfg.n1L
      trace := s.trace ++
        [.w s.cycle s.ses.cPort (Ports.read s.ports s.ses.cPort ||| s.ses.cMaskHi),
         .w (s.cycle + s.cfg.n1H) s.ses.cPort
          (Ports.read (Ports.write s.ses.cPort (Ports.read s.ports s.ses.cPort ||| s.ses.cMaskHi) s.ports) s.ses.cPort
            &&& s.ses.cMaskLo)] }

/-- R152: the same for TXBIT0, high for `N_0H`, low for `N_0L`. -/
def Obligations.Txbit0EmitsAZero : Prop :=
  ∀ s : State, MayEmit s →
    exec .txbit0 s = .next { s with
      ports := Ports.write s.ses.cPort
        (Ports.read (Ports.write s.ses.cPort (Ports.read s.ports s.ses.cPort ||| s.ses.cMaskHi) s.ports) s.ses.cPort
          &&& s.ses.cMaskLo)
        (Ports.write s.ses.cPort (Ports.read s.ports s.ses.cPort ||| s.ses.cMaskHi) s.ports)
      cycle := s.cycle + s.cfg.n0H + s.cfg.n0L
      trace := s.trace ++
        [.w s.cycle s.ses.cPort (Ports.read s.ports s.ses.cPort ||| s.ses.cMaskHi),
         .w (s.cycle + s.cfg.n0H) s.ses.cPort
          (Ports.read (Ports.write s.ses.cPort (Ports.read s.ports s.ses.cPort ||| s.ses.cMaskHi) s.ports) s.ses.cPort
            &&& s.ses.cMaskLo)] }

/-- R153, R251, R252, R176: when a primitive faults, and with which fault, in the order of the checks; else it completes.
While Closed under `TX_CLOSED = emit` it goes on with whatever `SES.C_*` hold, before any PREPARE with the values of reset,
which are the model's choice where R176 and I25 speak of a register without value (log 10). -/
def Obligations.PrimitivesFaultOutsideTheirPrecondition : Prop :=
  ∀ (s : State) (i : Instr), i = .txbit0 ∨ i = .txbit1 →
    (s.ses.isOpen = false → s.cfg.txClosed = .fault → exec i s = .fault .primitiveOutsideSession) ∧
    (s.ses.isOpen = true ∨ s.cfg.txClosed = .emit → s.ie = true → exec i s = .fault .interruptsEnabled) ∧
    (s.ses.isOpen = true ∨ s.cfg.txClosed = .emit → s.ie = false → ∃ t, exec i s = .next t)

/-- R171: TXBYTE completes in `ones(b)*LEN_1 + (8 - ones(b))*LEN_0 + GAP_BYTE` cycles with `SEQ.SHREG` 0; its port
writes are the eight symbols `b[7]` first, at the cycles of the schedule; the session's port ends with its masked pins low
and its other bits as they were; nothing else changes. -/
def Obligations.TxbyteSendsEightSymbols : Prop :=
  ∀ (s : State) (b : Byte), MayEmit s → Ports.wf s.ports = true → s.ses.cMaskLo = ~~~s.ses.cMaskHi →
    ∃ t, exec (.txbyte b) s = .next t ∧
      t.cycle = s.cycle + byteCycles s.cfg b ∧
      t.seq = { s.seq with shreg := 0x00 } ∧
      (∃ es, t.trace = s.trace ++ es ∧ es.length = 16 ∧ memoryReads es = [] ∧
        portWrites s.ses.cPort es =
          edgeWrites (Ports.read s.ports s.ses.cPort ||| s.ses.cMaskHi)
            (Ports.read s.ports s.ses.cPort &&& s.ses.cMaskLo)
            (edgeTimes s.cfg 0 s.cycle (bitsOf b))) ∧
      (∀ a, Ports.read t.ports a =
        if a = s.ses.cPort then Ports.read s.ports a &&& s.ses.cMaskLo else Ports.read s.ports a) ∧
      t = { s with ports := t.ports, cycle := t.cycle, trace := t.trace, seq := t.seq }

/-- R172: TXPIXEL completes when its three bytes have values: it reads them in the order of `dev.ORDER`, each in the cycle
of its first edge, sends them, and waits `GAP_PIXEL`; nothing but the port, the shift register, time and trace changes. -/
def Obligations.TxpixelSendsTheRecordInOrder : Prop :=
  ∀ (s : State) (d : Handle) (a : Nat) (b0 b1 b2 : Byte),
    MayEmit s → Ports.wf s.ports = true → s.ses.cMaskLo = ~~~s.ses.cMaskHi →
    wfDev d = true → a + 2 < 2 ^ s.cfg.addrW →
    bytesAt s.mem (recordAddresses d.order a) = some [b0, b1, b2] →
    ∃ t, exec (.txpixel d a) s = .next t ∧
      t.cycle = s.cycle + recordCycles s.cfg b0 b1 b2 ∧
      t.seq = { s.seq with shreg := 0x00 } ∧
      (∃ es, t.trace = s.trace ++ es ∧ es.length = 51 ∧
        memoryReads es =
          [(s.cycle, pixelAddress d.order a 0, b0),
           (s.cycle + byteCycles s.cfg b0, pixelAddress d.order a 1, b1),
           (s.cycle + byteCycles s.cfg b0 + byteCycles s.cfg b1, pixelAddress d.order a 2, b2)] ∧
        portWrites s.ses.cPort es =
          edgeWrites (Ports.read s.ports s.ses.cPort ||| s.ses.cMaskHi)
            (Ports.read s.ports s.ses.cPort &&& s.ses.cMaskLo)
            (edgeTimes s.cfg 0 s.cycle (wireBits [b0, b1, b2]))) ∧
      (∀ x, Ports.read t.ports x =
        if x = s.ses.cPort then Ports.read s.ports x &&& s.ses.cMaskLo else Ports.read s.ports x) ∧
      t = { s with ports := t.ports, cycle := t.cycle, trace := t.trace, seq := t.seq }

/-- R173, R65, R177: TRANSMIT of a sequence whose bytes have values completes. Its port writes are exactly the edge
schedule of its bits, in pixel order, then colour order, then bit 7 first, with the session's pins and the named handle's
order; it reads each byte once, in wire order; the masked pins end low; nothing but the port, the shift register, time and
trace changes. -/
def Obligations.TransmitFollowsTheEdgeSchedule : Prop :=
  ∀ (s : State) (d : Handle) (base count : Nat) (bs : List Byte),
    MayEmit s → Ports.wf s.ports = true → s.ses.cMaskLo = ~~~s.ses.cMaskHi →
    wfDev d = true → 0 < count → base + 3 * count ≤ 2 ^ s.cfg.addrW →
    bytesAt s.mem (wireAddresses d.order base count) = some bs →
    ∃ t, exec (.transmit d base count) s = .next t ∧
      t.cycle = endTime s.cfg 0 s.cycle (wireBits bs) ∧
      t.seq = { s.seq with shreg := 0x00 } ∧
      (∃ es, t.trace = s.trace ++ es ∧ es.length = 51 * count ∧
        (memoryReads es).map (fun r => r.2.1) = wireAddresses d.order base count ∧
        (memoryReads es).map (fun r => r.2.2) = bs ∧
        portWrites s.ses.cPort es =
          edgeWrites (Ports.read s.ports s.ses.cPort ||| s.ses.cMaskHi)
            (Ports.read s.ports s.ses.cPort &&& s.ses.cMaskLo)
            (edgeTimes s.cfg 0 s.cycle (wireBits bs))) ∧
      (∀ x, Ports.read t.ports x =
        if x = s.ses.cPort then Ports.read s.ports x &&& s.ses.cMaskLo else Ports.read s.ports x) ∧
      t = { s with ports := t.ports, cycle := t.cycle, trace := t.trace, seq := t.seq }

/-- R174: the duration of a TRANSMIT is the sum over its records of their bytes' durations and `GAP_PIXEL`. -/
def Obligations.TransmitLastsTheSumOfItsBytes : Prop :=
  ∀ (s t : State) (d : Handle) (base count : Nat) (bs : List Byte),
    exec (.transmit d base count) s = .next t →
    bytesAt s.mem (wireAddresses d.order base count) = some bs →
    t.cycle = s.cycle + streamCycles s.cfg bs

/-- R69: a TRANSMIT makes exactly `48 * count` port writes, all of the session's port, and `3 * count` reads. -/
def Obligations.TransmitMakesFortyEightWritesPerPixel : Prop :=
  ∀ (s t : State) (d : Handle) (base count : Nat), exec (.transmit d base count) s = .next t →
    ∃ es, t.trace = s.trace ++ es ∧ (portWrites s.ses.cPort es).length = 48 * count ∧
      (memoryReads es).length = 3 * count ∧ es.length = 51 * count

/-- R179: where the precondition of R176 is met, a TRANSMIT of no pixels changes nothing, whatever `base` is; as a command
it lasts only its overhead; and while Closed the precondition is checked first. -/
def Obligations.EmptyTransmitChangesNothing : Prop :=
  ∀ (s : State) (d : Handle) (base : Nat), wfDev d = true →
    ((s.ses.isOpen = true ∨ s.cfg.txClosed = .emit) → s.ie = false →
      exec (.transmit d base 0) s = .next s ∧
      ∀ rest, s.seq.pos = .idle → s.inputs = .cmd 0x01 :: rest →
        s.ops.dev = some d → s.ops.count = 0 →
        step s = .next { s with
          inputs := rest
          cmd := 0x01
          busy := false
          cycle := s.cycle + Config.draw s.draws + Config.draw (s.draws + 1)
          draws := s.draws + 1 + 1 }) ∧
    (s.ses.isOpen = false → s.cfg.txClosed = .fault →
      exec (.transmit d base 0) s = .fault .transmitWhileClosed)

/-- R176, R251, R252, R267: when a TRANSMIT that is not refused faults at its start, also when `count = 0`, and with which
fault, in the order of the checks; else it completes if its bytes have values. Under `TX_CLOSED = emit` that holds before
any PREPARE too, with the values the session registers have at reset (model's choice: log 10). -/
def Obligations.TransmitFaultsOutsideItsPrecondition : Prop :=
  ∀ (s : State) (d : Handle) (base count : Nat),
    wfDev d = true → (count = 0 ∨ base + 3 * count ≤ 2 ^ s.cfg.addrW) →
    (s.ses.isOpen = false → s.cfg.txClosed = .fault →
      exec (.transmit d base count) s = .fault .transmitWhileClosed) ∧
    (s.ses.isOpen = true ∨ s.cfg.txClosed = .emit → s.ie = true →
      exec (.transmit d base count) s = .fault .interruptsEnabled) ∧
    (s.ses.isOpen = true ∨ s.cfg.txClosed = .emit → s.ie = false →
      (∃ bs, bytesAt s.mem (wireAddresses d.order base count) = some bs) →
      ∃ t, exec (.transmit d base count) s = .next t)

/-- R72: a TRANSMIT whose addresses would pass `2^ADDR_W` is refused, before the preconditions are checked (R267). A
TXPIXEL run by itself is refused as a TRANSMIT of its one record is (model's choice: log 17). -/
def Obligations.WrappingTransmitIsRefused : Prop :=
  ∀ (s : State) (d : Handle) (base count : Nat), wfDev d = true →
    (0 < count → 2 ^ s.cfg.addrW < base + 3 * count → exec (.transmit d base count) s = .refused .addressWrap) ∧
    (2 ^ s.cfg.addrW < base + 3 → exec (.txpixel d base) s = .refused .addressWrap)

/-- R67: a TRANSMIT that is admitted and may start, but one of whose bytes the host never wrote, faults. -/
def Obligations.UnwrittenPixelByteFaults : Prop :=
  ∀ (s : State) (d : Handle) (base count : Nat),
    MayEmit s → wfDev d = true → base + 3 * count ≤ 2 ^ s.cfg.addrW →
    bytesAt s.mem (wireAddresses d.order base count) = none →
    exec (.transmit d base count) s = .fault .pixelWithoutValue

/-- R181: a TRANSMIT of `n + m` pixels is a TRANSMIT of `n` followed by a TRANSMIT of the remaining `m`, no time passing
between them, whatever either of them ends in. -/
def Obligations.SplitTransmitEqualsJoined : Prop :=
  ∀ (s : State) (d : Handle) (base n m : Nat), base + 3 * (n + m) ≤ 2 ^ s.cfg.addrW →
    exec (.transmit d base (n + m)) s =
      chain (exec (.transmit d base n) s) (exec (.transmit d (base + 3 * n) m))

/-- R47 (b), R61, R62: on every data pin that starts low, the symbol stream an observer reads from the trace of a completed
TRANSMIT is its bits, and every pulse of the pin is one of these symbols. It needs the two symbols distinct (R146). -/
def Obligations.ObserverReadsTheTransmittedBits : Prop :=
  ∀ (s t : State) (d : Handle) (base count p : Nat) (bs : List Byte),
    Ports.wf s.ports = true → s.ses.cMaskLo = ~~~s.ses.cMaskHi → buildable s.cfg = true →
    s.ses.cMaskHi.getLsbD p = true → (Ports.read s.ports s.ses.cPort).getLsbD p = false →
    exec (.transmit d base count) s = .next t →
    bytesAt s.mem (wireAddresses d.order base count) = some bs →
    ∃ es, t.trace = s.trace ++ es ∧
      symbols s.cfg s.ses.cPort p (Ports.read s.ports s.ses.cPort) es = wireBits bs ∧
      (pulses s.ses.cPort p (Ports.read s.ports s.ses.cPort) es).map (symbolOf s.cfg) = (wireBits bs).map some

/-! ## The colour orders -/

/-- R131 to R136: each selector's answer. The answer is an output of the model's own (log 7): no state of the core changes
and no cycle passes. -/
def Obligations.ColortabAnswersTableE3 : Prop :=
  ∀ s : State,
    exec .colortabRgb s = .next { s with colorOut := ⟨0, 1, 2⟩ } ∧
    exec .colortabRbg s = .next { s with colorOut := ⟨0, 2, 1⟩ } ∧
    exec .colortabGrb s = .next { s with colorOut := ⟨1, 0, 2⟩ } ∧
    exec .colortabGbr s = .next { s with colorOut := ⟨1, 2, 0⟩ } ∧
    exec .colortabBrg s = .next { s with colorOut := ⟨2, 0, 1⟩ } ∧
    exec .colortabBgr s = .next { s with colorOut := ⟨2, 1, 0⟩ }

/-- R130: every answer is a bijection on {0, 1, 2}, and every permutation of {0, 1, 2} is the answer of exactly one
selector. That no byte above the 3-bit selector answers too rests on log 6, and the latch that holds the answer is the
model's own (log 7). -/
def Obligations.EveryPermutationHasOneSelector : Prop :=
  ∀ o : Order, permutes o = true ↔
    ∃ w : Byte, (∀ s : State, ∃ i, decode .cosel w s.ops = .ok i ∧ exec i s = .next { s with colorOut := o }) ∧
      ∀ v : Byte, (∀ s : State, ∃ i, decode .cosel v s.ops = .ok i ∧ exec i s = .next { s with colorOut := o }) →
        v = w

/-! ## What no operation does -/

/-- The frame of every operation, R21, R65, R73: it changes no byte of pixel memory, no operand register, no parameter,
and nothing of the host's. -/
def Obligations.NoOperationWritesMemoryOrOperands : Prop :=
  ∀ (i : Instr) (s t : State), exec i s = .next t →
    (∀ a, Memory.read t.mem a = Memory.read s.mem a) ∧ t.mem = s.mem ∧ t.ops = s.ops ∧ t.cfg = s.cfg ∧
    t.cmd = s.cmd ∧ t.busy = s.busy ∧ t.inputs = s.inputs ∧ t.heldIrq = s.heldIrq ∧ t.seq.pos = s.seq.pos

/-- R37, R68, R79: whatever the operation, every port but the session's is unchanged, and of the session's port every bit
outside the mask is. -/
def Obligations.UnmaskedPinsAreNeverChanged : Prop :=
  ∀ (i : Instr) (s t : State), Ports.wf s.ports = true → s.ses.cMaskLo = ~~~s.ses.cMaskHi → exec i s = .next t →
    (∀ a, a ≠ s.ses.cPort → Ports.read t.ports a = Ports.read s.ports a) ∧
    (Ports.read t.ports s.ses.cPort) &&& ~~~s.ses.cMaskHi = Ports.read s.ports s.ses.cPort &&& ~~~s.ses.cMaskHi

/-- R69, R73: PREPARE, CLOSE, WAIT_RESET, DELAY_US and COLORTAB write no port register and leave the shift register. -/
def Obligations.SessionDelayAndLookupWriteNoPort : Prop :=
  ∀ (i : Instr) (s t : State), exec i s = .next t →
    (∃ d, i = .prepare d ∨ i = .close d ∨ i = .waitReset d) ∨ (∃ n, i = .delayUs n) ∨
      i = .colortabRgb ∨ i = .colortabRbg ∨ i = .colortabGrb ∨ i = .colortabGbr ∨ i = .colortabBrg ∨
      i = .colortabBgr →
    t.ports = s.ports ∧ t.seq.shreg = s.seq.shreg

/-- R31 to R33: `SES.OPEN` is written only by PREPARE and CLOSE, the other session fields only by PREPARE; and PREPARE
writes none of them while Prepared. -/
def Obligations.OnlyPrepareAndCloseWriteTheSession : Prop :=
  ∀ (i : Instr) (s t : State), exec i s = .next t →
    ((∀ d, i ≠ .prepare d) → (∀ d, i ≠ .close d) → t.ses = s.ses) ∧
    ((∀ d, i ≠ .prepare d) → t.ses = { s.ses with isOpen := t.ses.isOpen } ∧ (t.ses.isOpen = true → s.ses.isOpen = true)) ∧
    (s.ses.isOpen = true → (∀ d, i ≠ .close d) → t.ses = s.ses)

/-- R261: PREPARE, CLOSE, WAIT_RESET and DELAY_US are the only operations that write `IE`; and unless `DELAY_IRQ_MODE` is
`disable_enable` the last two leave it with the value it had. -/
def Obligations.OnlySessionAndDelayWriteIe : Prop :=
  ∀ (i : Instr) (s t : State), exec i s = .next t →
    ((∀ d, i ≠ .prepare d) → (∀ d, i ≠ .close d) → (∀ d, i ≠ .waitReset d) → (∀ n, i ≠ .delayUs n) → t.ie = s.ie) ∧
    ((∀ d, i ≠ .prepare d) → (∀ d, i ≠ .close d) → s.cfg.irqMode ≠ .disableEnable → t.ie = s.ie)

/-- R45, R46, R75: an operation only appends to the trace, in order of occurrence, at cycles between its start and its end;
its port writes are all of the session's port. -/
def Obligations.OperationsOnlyAppendToTheTrace : Prop :=
  ∀ (i : Instr) (s t : State), exec i s = .next t →
    s.cycle ≤ t.cycle ∧
    ∃ es, t.trace = s.trace ++ es ∧ (es.map eventTime).Pairwise (· ≤ ·) ∧
      (∀ e ∈ es, s.cycle ≤ eventTime e ∧ eventTime e ≤ t.cycle) ∧
      (∀ c a v, .w c a v ∈ es → a = s.ses.cPort)

/-! ## Every step -/

/-- The invariant is kept by every step from every state that meets it: memory and ports keep their canonical form and stay
inside their spaces, the operand registers their widths, an open session its cached fields, `SEQ.POS` its ranges, `BUSY`
says whether a command is in progress, the trace stays ordered. -/
def Obligations.EveryStepKeepsTheInvariant : Prop :=
  ∀ s t : State, Inv s → step s = .next t → Inv t

/-- R34 (d), R95, R212, R304: with a host that does its duty, on every target but one whose delay unconditionally enables
interrupts, every step keeps "Prepared means interrupts disabled" and "the line rests low outside the high segments". That
the pins are low right after a PREPARE rests on a duty that is the model's choice: low pins at every PREPARE while Closed,
where R299 asks for them before the first TRANSMIT only and Table H1 lets a host write any port while Closed (log 29). -/
def Obligations.DutifulHostKeepsTheSessionCalm : Prop :=
  ∀ s t : State, Inv s → Calm s → s.cfg.irqMode ≠ .disableEnable → nextIsDutiful s = true → step s = .next t → Calm t

/-- R34, R250 to R253: in such a run no step ends in a fault of Table X1. The duties it takes as a premise count low pins
at every PREPARE while Closed among them, which is the model's choice (log 29). -/
def Obligations.DutifulHostRaisesNoMisuseFault : Prop :=
  ∀ (s : State) (f : Fault), Inv s → Calm s → nextIsDutiful s = true → step s = .fault f → isMisuse f = false

/-- R34 (b), (c): in such a run `SES.C_*` are read only while the session is open and a PREPARE has written them: a step
whose events hold a port write, which is what reads them (R33), finds them so. The note `written` is the model's own
(log 10), and the duties are those of log 29. -/
def Obligations.SessionRegistersAreWrittenBeforeTheyAreRead : Prop :=
  ∀ (s t : State) (es : List Event), Inv s → Calm s → nextIsDutiful s = true → step s = .next t →
    t.trace = s.trace ++ es → (∃ c a v, .w c a v ∈ es) → s.ses.isOpen = true ∧ s.ses.written = true

/-- R253: where handlers run only while `IE = 1`, no run interrupts a TRANSMIT: from a state that meets the invariant no
step faults with SessionInterrupted. -/
def Obligations.TransmitIsNeverInterrupted : Prop :=
  ∀ s : State, Inv s → step s ≠ .fault .sessionInterrupted

/-- R235, R253, R262: what an interrupt that arrives while a command is stepped does, with `IE = 1`: it lengthens a delay
and moves nothing of the core, and it is a violation during a TRANSMIT. That requests come as inputs is the model's choice
(log 15). -/
def Obligations.InterruptDuringACommand : Prop :=
  ∀ (s : State) (c n : Nat) (rest : List Input), s.ie = true → s.heldIrq = [] →
    s.inputs = .interrupt c n :: rest → c ≤ s.cycle →
    (∀ rem x, s.seq.pos = .dly rem x → step s = .next { s with inputs := rest, cycle := s.cycle + n }) ∧
    (∀ p, s.seq.pos = .tx p → step s = .fault .sessionInterrupted)

/-- R263 (general knowledge in the spec, log 15): a request that arrives while `IE = 0` is held, the core idle or a stepped
command in progress; and the oldest held one is taken by the first step with `IE = 1` that is not inside a TRANSMIT, in the
reset wait of a CLOSE that has restored `IE` too. Inside a TRANSMIT it is the violation of R253. -/
def Obligations.RequestsAreHeldWhileDisabled : Prop :=
  ∀ (s : State) (n : Nat) (rest : List Input) (held : List Nat),
    (∀ c, s.ie = false → s.inputs = .interrupt c n :: rest → c ≤ s.cycle →
      step s = .next { s with inputs := rest, heldIrq := s.heldIrq ++ [n] }) ∧
    (s.ie = true → s.heldIrq = n :: held → (∀ p, s.seq.pos ≠ .tx p) →
      step s = .next { s with heldIrq := held, cycle := s.cycle + n }) ∧
    (∀ p, s.ie = true → s.heldIrq = n :: held → s.seq.pos = .tx p → step s = .fault .sessionInterrupted)

/-- R184 (the model keeps both readings: log 14): the cycle-by-cycle reading of TRANSMIT agrees with the reading that governs. If TRANSMIT answers `t`, the
sequencer started and stepped for exactly the cycles it lasts is idle again in that very state; if it faults, the stepped
sequencer comes to the same fault. -/
def Obligations.CycleFormOfTransmitAgrees : Prop :=
  ∀ (s : State) (d : Handle) (base count : Nat), buildable s.cfg = true → s.seq.pos = .idle →
    (∀ t, exec (.transmit d base count) s = .next t →
      chain (startTransmit d base count s) (runCycles (t.cycle - s.cycle)) = .next t ∧ t.seq.pos = .idle) ∧
    (∀ f, exec (.transmit d base count) s = .fault f →
      ∃ k, chain (startTransmit d base count s) (runCycles k) = .fault f)

/-- R41, R230: the cycle-by-cycle reading of DELAY_US agrees: when interrupts are disabled during the wait, the sequencer
started and stepped for exactly the cycles it lasts is idle again in the state DELAY_US answers. Where they are enabled the
stepped wait lasts exactly its cycles too as long as no request comes; each one that comes adds its handler (R235,
InterruptDuringACommand). -/
def Obligations.CycleFormOfDelayAgrees : Prop :=
  ∀ (s : State) (n : Nat), s.seq.pos = .idle →
    (∀ t, 1 ≤ s.cfg.delayIterCyc → (s.cfg.irqMode ≠ .leaveAlone ∨ s.ie = false) → exec (.delayUs n) s = .next t →
      runCycles (t.cycle - s.cycle) (startDelay n s) = .next t) ∧
    (s.cfg.irqMode = .leaveAlone →
      runCycles (s.cfg.delayOvh + iters s.cfg n * s.cfg.delayIterCyc) (startDelay n s) = .next { s with
        cycle := s.cycle + (s.cfg.delayOvh + iters s.cfg n * s.cfg.delayIterCyc)
        seq := { s.seq with dly := 0 } })

/-- R39, R184, R320 (log 14): what a step does with a command that is stepped. A `CMD` write of that form starts the
command, with the overhead before it; while the command is in progress and no request is taken, a step is one clock cycle
of the sequencer; and when the sequencer is idle again the overhead after it passes and `BUSY` is cleared. -/
def Obligations.StepRunsASteppedCommand : Prop :=
  ∀ s : State, (s.ie = false ∨ s.heldIrq = []) →
    (∀ w rest i, s.seq.pos = .idle → s.inputs = .cmdByCycle w :: rest → decode .cmd w s.ops = .ok i →
      step s = settle (startCommand i { s with inputs := rest, cmd := w, busy := true,
                                               cycle := s.cycle + Config.draw s.draws, draws := s.draws + 1 })) ∧
    (s.seq.pos ≠ .idle → (∀ c n rest, s.inputs = .interrupt c n :: rest → s.cycle < c) →
      step s = settle (tick s)) ∧
    (∀ t : State, t.seq.pos ≠ .idle → settle (.next t) = .next t) ∧
    (∀ t : State, t.seq.pos = .idle → settle (.next t) =
      .next { t with busy := false, cycle := t.cycle + Config.draw t.draws, draws := t.draws + 1 })

/-- R184, R41 (log 14): a command stepped cycle by cycle by the machine's own steps comes to what the same command does in
one step, for each of the four commands. No request comes meanwhile, and where a wait runs with interrupts enabled the one
step draws the handlers' time (R235), so the two agree where it drew nothing but the two overheads. A fault and a refusal
are the same in both. -/
def Obligations.SteppedCommandAgreesWithTheWholeOne : Prop :=
  ∀ (s : State) (w : Byte) (rest : List Input),
    buildable s.cfg = true → s.seq.pos = .idle → s.heldIrq = [] → (∀ c n more, rest ≠ .interrupt c n :: more) →
    (∀ t, step { s with inputs := .cmd w :: rest } = .next t → t.draws = s.draws + 2 →
      ∃ k, runSteps k { s with inputs := .cmdByCycle w :: rest } = .next t) ∧
    (∀ f, step { s with inputs := .cmd w :: rest } = .fault f →
      ∃ k, runSteps k { s with inputs := .cmdByCycle w :: rest } = .fault f) ∧
    (∀ r, step { s with inputs := .cmd w :: rest } = .refused r →
      step { s with inputs := .cmdByCycle w :: rest } = .refused r)

/-! ## Memory, and the configuration -/

/-- R67, R77: a read of pixel memory returns the last value the host wrote to that byte, and a write changes no other. At
an address of more than `ADDR_W` bits, which does not exist (R38), a write is refused (model's choice: log 17). -/
def Obligations.MemoryHoldsWhatTheHostWrote : Prop :=
  ∀ (s : State) (a : Nat) (v : Byte),
    (a < 2 ^ s.cfg.addrW →
      ∃ t, hostAct (.writeMem a v) s = .next t ∧ t = { s with mem := t.mem } ∧
        Memory.read t.mem a = some v ∧ (∀ b, b ≠ a → Memory.read t.mem b = Memory.read s.mem b) ∧
        (Memory.wf s.mem = true → Memory.wf t.mem = true)) ∧
    (2 ^ s.cfg.addrW ≤ a → hostAct (.writeMem a v) s = .refused .noSuchAddress)

/-- R7, R143, R144, R146, R147: a core is launched exactly for the parameters in the ranges of Table P1 with no negative
padding, a "0" low phase of at least 450 ns and distinct symbols, and it is the reset state with those parameters. -/
def Obligations.OnlyFeasibleConfigurationsLaunch : Prop :=
  ∀ (c : Config) (s : State), launch c = .ok s ↔
    s = { State.reset with cfg := c } ∧
    (1 ≤ c.fClk ∧ 1 ≤ c.fix1H ∧ 1 ≤ c.fix1L ∧ 1 ≤ c.fix0H ∧ 1 ≤ c.fix0L ∧ 1 ≤ c.addrW ∧ 1 ≤ c.countW ∧
      1 ≤ c.delayIterCyc ∧ 1 ≤ c.stripResetUs ∧ c.cfgErrNoDevice ≠ 0 ∧ c.cfgErrPinGroup ≠ 0 ∧
      c.cfgErrNoDevice ≠ c.cfgErrPinGroup) ∧
    (c.fix1H ≤ c.n1H ∧ c.fix1L ≤ c.n1L ∧ c.fix0H ≤ c.n0H ∧ c.fix0L ≤ c.n0L ∧
      450 * c.fClk ≤ c.n0L * 1000000000 ∧ c.n0H < c.n1H)

/-- R144: with the lengths derived from the clock (R141) the "0" low phase is too short only when `N_0L = 0`, which is
already a negative padding: such a configuration is never rejected as ZeroLowTooShort. Where both apply it is the model's
precedence that names the padding (log 28): R255 gives none. -/
def Obligations.DerivedLengthsAreNeverTooShort : Prop :=
  ∀ (c : Config) (f : Nat), 1 ≤ c.fix0L → configError (derivedFrom c f) ≠ some .zeroLowTooShort
end

