-- ==== Sys2Proof/Laws/Cells.lean ====
section
/-! SUPPORT. The laws of pixel memory and of the port space: a read after a write, and the canonical form every write
keeps. -/

namespace Sys2Proof.Machine

/-! ### Lookups after an update -/

theorem Cells.lookup_put (a b : Nat) (v : Byte) (m : List Host.Cell) :
    Cells.lookup b (Cells.put a v m) = if b = a then some v else Cells.lookup b m := by
  induction m with
  | nil => simp [Cells.put, Cells.lookup]
  | cons c rest ih =>
    obtain ⟨x, w⟩ := c
    simp only [Cells.put]
    split
    · simp [Cells.lookup]
    · split
      · subst x
        by_cases hb : b = a <;> simp [Cells.lookup, hb]
      · simp only [Cells.lookup, ih]
        by_cases hb : b = x <;> simp [hb] <;> omega

theorem Cells.lookup_none_of_risesFrom {a b : Nat} {m : List Host.Cell} (h : Cells.risesFrom a m = true)
    (hb : b ≤ a) : Cells.lookup b m = none := by
  induction m generalizing a with
  | nil => rfl
  | cons c rest ih =>
    obtain ⟨x, w⟩ := c
    simp only [Cells.risesFrom, Bool.and_eq_true, decide_eq_true_eq] at h
    simp only [Cells.lookup]
    rw [if_neg (by omega), ih h.2 (by omega)]

theorem Cells.risesFrom_mono {a b : Nat} {m : List Host.Cell} (h : Cells.risesFrom b m = true) (hab : a ≤ b) :
    Cells.risesFrom a m = true := by
  cases m with
  | nil => rfl
  | cons c rest =>
    obtain ⟨x, w⟩ := c
    simp only [Cells.risesFrom, Bool.and_eq_true, decide_eq_true_eq] at h ⊢
    exact ⟨by omega, h.2⟩

theorem Cells.sorted_of_risesFrom {a : Nat} {m : List Host.Cell} (h : Cells.risesFrom a m = true) :
    Cells.sorted m = true := by
  cases m with
  | nil => rfl
  | cons c rest =>
    simp only [Cells.risesFrom, Bool.and_eq_true] at h
    exact h.2

theorem Cells.lookup_remove_from (a b lo : Nat) (m : List Host.Cell) (h : Cells.risesFrom lo m = true) :
    Cells.lookup b (Cells.remove a m) = if b = a then none else Cells.lookup b m := by
  induction m generalizing lo with
  | nil => simp [Cells.remove, Cells.lookup]
  | cons c rest ih =>
    obtain ⟨x, w⟩ := c
    simp only [Cells.risesFrom, Bool.and_eq_true, decide_eq_true_eq] at h
    simp only [Cells.remove]
    split
    · subst x
      by_cases hb : b = a
      · subst b
        simp [Cells.lookup_none_of_risesFrom h.2 (Nat.le_refl a)]
      · simp [Cells.lookup, hb]
    · simp only [Cells.lookup, ih x h.2]
      by_cases hb : b = x <;> simp [hb] <;> omega

theorem Cells.lookup_remove (a b : Nat) (m : List Host.Cell) (h : Cells.sorted m = true) :
    Cells.lookup b (Cells.remove a m) = if b = a then none else Cells.lookup b m := by
  cases m with
  | nil => simp [Cells.remove, Cells.lookup]
  | cons c rest =>
    obtain ⟨x, w⟩ := c
    simp only [Cells.sorted] at h
    simp only [Cells.remove]
    split
    · subst x
      by_cases hb : b = a
      · subst b
        simp [Cells.lookup_none_of_risesFrom h (Nat.le_refl a)]
      · simp [Cells.lookup, hb]
    · simp only [Cells.lookup, Cells.lookup_remove_from a b x rest h]
      by_cases hb : b = x <;> simp [hb] <;> omega

/-! ### The canonical form -/

theorem Cells.risesFrom_put {lo a : Nat} {v : Byte} {m : List Host.Cell} (h : Cells.risesFrom lo m = true)
    (ha : lo < a) : Cells.risesFrom lo (Cells.put a v m) = true := by
  induction m generalizing lo with
  | nil => simp [Cells.put, Cells.risesFrom, ha]
  | cons c rest ih =>
    obtain ⟨x, w⟩ := c
    simp only [Cells.risesFrom, Bool.and_eq_true, decide_eq_true_eq] at h
    simp only [Cells.put]
    split
    · simp [Cells.risesFrom, h.2, *]
    · split
      · subst x
        simp [Cells.risesFrom, ha, h.2]
      · simp only [Cells.risesFrom, Bool.and_eq_true, decide_eq_true_eq]
        exact ⟨h.1, ih h.2 (by omega)⟩

theorem Cells.sorted_put {a : Nat} {v : Byte} {m : List Host.Cell} (h : Cells.sorted m = true) :
    Cells.sorted (Cells.put a v m) = true := by
  cases m with
  | nil => rfl
  | cons c rest =>
    obtain ⟨x, w⟩ := c
    simp only [Cells.sorted] at h
    simp only [Cells.put]
    split
    · simp [Cells.sorted, Cells.risesFrom, *]
    · split
      · subst x
        exact h
      · exact Cells.risesFrom_put h (by omega)

theorem Cells.risesFrom_remove {lo a : Nat} {m : List Host.Cell} (h : Cells.risesFrom lo m = true) :
    Cells.risesFrom lo (Cells.remove a m) = true := by
  induction m generalizing lo with
  | nil => rfl
  | cons c rest ih =>
    obtain ⟨x, w⟩ := c
    simp only [Cells.risesFrom, Bool.and_eq_true, decide_eq_true_eq] at h
    simp only [Cells.remove]
    split
    · exact Cells.risesFrom_mono h.2 (by omega)
    · simp only [Cells.risesFrom, Bool.and_eq_true, decide_eq_true_eq]
      exact ⟨h.1, ih h.2⟩

theorem Cells.sorted_remove {a : Nat} {m : List Host.Cell} (h : Cells.sorted m = true) :
    Cells.sorted (Cells.remove a m) = true := by
  cases m with
  | nil => rfl
  | cons c rest =>
    obtain ⟨x, w⟩ := c
    simp only [Cells.sorted] at h
    simp only [Cells.remove]
    split
    · exact Cells.sorted_of_risesFrom h
    · exact Cells.risesFrom_remove h

theorem Cells.mem_of_mem_put {a : Nat} {v : Byte} {m : List Host.Cell} {c : Host.Cell}
    (h : c ∈ Cells.put a v m) : c = (a, v) ∨ c ∈ m := by
  induction m with
  | nil => simpa [Cells.put] using h
  | cons d rest ih =>
    obtain ⟨x, w⟩ := d
    simp only [Cells.put] at h
    split at h
    · simpa using h
    · split at h
      · rcases List.mem_cons.1 h with h | h
        · exact .inl h
        · exact .inr (List.mem_cons_of_mem _ h)
      · rcases List.mem_cons.1 h with h | h
        · exact .inr (h ▸ List.mem_cons_self ..)
        · exact (ih h).imp_right (List.mem_cons_of_mem _)

theorem Cells.mem_of_mem_remove {a : Nat} {m : List Host.Cell} {c : Host.Cell}
    (h : c ∈ Cells.remove a m) : c ∈ m := by
  induction m with
  | nil => exact h
  | cons d rest ih =>
    obtain ⟨x, w⟩ := d
    simp only [Cells.remove] at h
    split at h
    · exact List.mem_cons_of_mem _ h
    · rcases List.mem_cons.1 h with h | h
      · exact h ▸ List.mem_cons_self ..
      · exact List.mem_cons_of_mem _ (ih h)

/-! ### Pixel memory -/

theorem Memory.read_write (a b : Nat) (v : Byte) (m : Memory) :
    Memory.read (Memory.write a v m) b = if b = a then some v else Memory.read m b := by
  simp only [Memory.read, Memory.write, Cells.lookup_put]
  by_cases h : b = a <;> simp [h]

theorem Memory.wf_write {a : Nat} {v : Byte} {m : Memory} (h : Memory.wf m = true) :
    Memory.wf (Memory.write a v m) = true := Cells.sorted_put h

/-! ### The port space -/

theorem Ports.sorted_of_wf {p : Ports} (h : Ports.wf p = true) : Cells.sorted p = true := by
  simp only [Ports.wf, Bool.and_eq_true] at h
  exact h.1

theorem Ports.read_write_of_sorted (a b : Nat) (v : Byte) (p : Ports) (h : Cells.sorted p = true) :
    Ports.read (Ports.write a v p) b = if b = a then v else Ports.read p b := by
  unfold Ports.write
  split
  · rename_i hv
    simp only [Ports.read, Cells.lookup_remove a b p h]
    by_cases hb : b = a <;> simp [hb, hv]
  · simp only [Ports.read, Cells.lookup_put]
    by_cases hb : b = a <;> simp [hb]

theorem Ports.read_write (a b : Nat) (v : Byte) (p : Ports) (h : Ports.wf p = true) :
    Ports.read (Ports.write a v p) b = if b = a then v else Ports.read p b :=
  Ports.read_write_of_sorted a b v p (Ports.sorted_of_wf h)

theorem Ports.wf_write {a : Nat} {v : Byte} {p : Ports} (h : Ports.wf p = true) :
    Ports.wf (Ports.write a v p) = true := by
  simp only [Ports.wf, Bool.and_eq_true, List.all_eq_true] at h ⊢
  unfold Ports.write
  split
  · exact ⟨Cells.sorted_remove h.1, fun c hc => h.2 c (Cells.mem_of_mem_remove hc)⟩
  · rename_i hv
    refine ⟨Cells.sorted_put h.1, fun c hc => ?_⟩
    rcases Cells.mem_of_mem_put hc with rfl | hc
    · simpa using hv
    · exact h.2 c hc

end Sys2Proof.Machine
end

