-- ==== Sys2Proof/Laws/State.lean ====
section
/-! SUPPORT. One lemma per field per update of State, each true by rfl: later proofs never unfold a record update. -/

namespace Sys2Proof.Machine

variable (s : State)

/-! ### wait -/

@[simp] theorem wait_cfg (n : Nat) : (wait n s).cfg = s.cfg := rfl
@[simp] theorem wait_ses (n : Nat) : (wait n s).ses = s.ses := rfl
@[simp] theorem wait_seq (n : Nat) : (wait n s).seq = s.seq := rfl
@[simp] theorem wait_ie (n : Nat) : (wait n s).ie = s.ie := rfl
@[simp] theorem wait_ports (n : Nat) : (wait n s).ports = s.ports := rfl
@[simp] theorem wait_mem (n : Nat) : (wait n s).mem = s.mem := rfl
@[simp] theorem wait_cmd (n : Nat) : (wait n s).cmd = s.cmd := rfl
@[simp] theorem wait_ops (n : Nat) : (wait n s).ops = s.ops := rfl
@[simp] theorem wait_busy (n : Nat) : (wait n s).busy = s.busy := rfl
@[simp] theorem wait_cycle (n : Nat) : (wait n s).cycle = s.cycle + n := rfl
@[simp] theorem wait_trace (n : Nat) : (wait n s).trace = s.trace := rfl
@[simp] theorem wait_colorOut (n : Nat) : (wait n s).colorOut = s.colorOut := rfl
@[simp] theorem wait_inputs (n : Nat) : (wait n s).inputs = s.inputs := rfl
@[simp] theorem wait_heldIrq (n : Nat) : (wait n s).heldIrq = s.heldIrq := rfl
@[simp] theorem wait_draws (n : Nat) : (wait n s).draws = s.draws := rfl

/-! ### record -/

@[simp] theorem record_cfg (e : Event) : (record e s).cfg = s.cfg := rfl
@[simp] theorem record_ses (e : Event) : (record e s).ses = s.ses := rfl
@[simp] theorem record_seq (e : Event) : (record e s).seq = s.seq := rfl
@[simp] theorem record_ie (e : Event) : (record e s).ie = s.ie := rfl
@[simp] theorem record_ports (e : Event) : (record e s).ports = s.ports := rfl
@[simp] theorem record_mem (e : Event) : (record e s).mem = s.mem := rfl
@[simp] theorem record_cmd (e : Event) : (record e s).cmd = s.cmd := rfl
@[simp] theorem record_ops (e : Event) : (record e s).ops = s.ops := rfl
@[simp] theorem record_busy (e : Event) : (record e s).busy = s.busy := rfl
@[simp] theorem record_cycle (e : Event) : (record e s).cycle = s.cycle := rfl
@[simp] theorem record_trace (e : Event) : (record e s).trace = s.trace ++ [e] := rfl
@[simp] theorem record_colorOut (e : Event) : (record e s).colorOut = s.colorOut := rfl
@[simp] theorem record_inputs (e : Event) : (record e s).inputs = s.inputs := rfl
@[simp] theorem record_heldIrq (e : Event) : (record e s).heldIrq = s.heldIrq := rfl
@[simp] theorem record_draws (e : Event) : (record e s).draws = s.draws := rfl

/-! ### drawWait -/

@[simp] theorem drawWait_cfg : (drawWait s).cfg = s.cfg := rfl
@[simp] theorem drawWait_ses : (drawWait s).ses = s.ses := rfl
@[simp] theorem drawWait_seq : (drawWait s).seq = s.seq := rfl
@[simp] theorem drawWait_ie : (drawWait s).ie = s.ie := rfl
@[simp] theorem drawWait_ports : (drawWait s).ports = s.ports := rfl
@[simp] theorem drawWait_mem : (drawWait s).mem = s.mem := rfl
@[simp] theorem drawWait_cmd : (drawWait s).cmd = s.cmd := rfl
@[simp] theorem drawWait_ops : (drawWait s).ops = s.ops := rfl
@[simp] theorem drawWait_busy : (drawWait s).busy = s.busy := rfl
@[simp] theorem drawWait_cycle : (drawWait s).cycle = s.cycle + Config.draw s.draws := rfl
@[simp] theorem drawWait_trace : (drawWait s).trace = s.trace := rfl
@[simp] theorem drawWait_colorOut : (drawWait s).colorOut = s.colorOut := rfl
@[simp] theorem drawWait_inputs : (drawWait s).inputs = s.inputs := rfl
@[simp] theorem drawWait_heldIrq : (drawWait s).heldIrq = s.heldIrq := rfl
@[simp] theorem drawWait_draws : (drawWait s).draws = s.draws + 1 := rfl

/-! ### ioWrite -/

@[simp] theorem ioWrite_cfg (a : Nat) (v : Byte) : (ioWrite a v s).cfg = s.cfg := rfl
@[simp] theorem ioWrite_ses (a : Nat) (v : Byte) : (ioWrite a v s).ses = s.ses := rfl
@[simp] theorem ioWrite_seq (a : Nat) (v : Byte) : (ioWrite a v s).seq = s.seq := rfl
@[simp] theorem ioWrite_ie (a : Nat) (v : Byte) : (ioWrite a v s).ie = s.ie := rfl
@[simp] theorem ioWrite_ports (a : Nat) (v : Byte) : (ioWrite a v s).ports = Ports.write a v s.ports := rfl
@[simp] theorem ioWrite_mem (a : Nat) (v : Byte) : (ioWrite a v s).mem = s.mem := rfl
@[simp] theorem ioWrite_cmd (a : Nat) (v : Byte) : (ioWrite a v s).cmd = s.cmd := rfl
@[simp] theorem ioWrite_ops (a : Nat) (v : Byte) : (ioWrite a v s).ops = s.ops := rfl
@[simp] theorem ioWrite_busy (a : Nat) (v : Byte) : (ioWrite a v s).busy = s.busy := rfl
@[simp] theorem ioWrite_cycle (a : Nat) (v : Byte) : (ioWrite a v s).cycle = s.cycle := rfl
@[simp] theorem ioWrite_trace (a : Nat) (v : Byte) : (ioWrite a v s).trace = s.trace ++ [.w s.cycle a v] := rfl
@[simp] theorem ioWrite_colorOut (a : Nat) (v : Byte) : (ioWrite a v s).colorOut = s.colorOut := rfl
@[simp] theorem ioWrite_inputs (a : Nat) (v : Byte) : (ioWrite a v s).inputs = s.inputs := rfl
@[simp] theorem ioWrite_heldIrq (a : Nat) (v : Byte) : (ioWrite a v s).heldIrq = s.heldIrq := rfl
@[simp] theorem ioWrite_draws (a : Nat) (v : Byte) : (ioWrite a v s).draws = s.draws := rfl

/-! ### pinsHigh -/

@[simp] theorem pinsHigh_cfg : (pinsHigh s).cfg = s.cfg := rfl
@[simp] theorem pinsHigh_ses : (pinsHigh s).ses = s.ses := rfl
@[simp] theorem pinsHigh_seq : (pinsHigh s).seq = s.seq := rfl
@[simp] theorem pinsHigh_ie : (pinsHigh s).ie = s.ie := rfl
@[simp] theorem pinsHigh_ports : (pinsHigh s).ports = Ports.write s.ses.cPort (Ports.read s.ports s.ses.cPort ||| s.ses.cMaskHi) s.ports := rfl
@[simp] theorem pinsHigh_mem : (pinsHigh s).mem = s.mem := rfl
@[simp] theorem pinsHigh_cmd : (pinsHigh s).cmd = s.cmd := rfl
@[simp] theorem pinsHigh_ops : (pinsHigh s).ops = s.ops := rfl
@[simp] theorem pinsHigh_busy : (pinsHigh s).busy = s.busy := rfl
@[simp] theorem pinsHigh_cycle : (pinsHigh s).cycle = s.cycle := rfl
@[simp] theorem pinsHigh_trace : (pinsHigh s).trace = s.trace ++ [.w s.cycle s.ses.cPort (Ports.read s.ports s.ses.cPort ||| s.ses.cMaskHi)] := rfl
@[simp] theorem pinsHigh_colorOut : (pinsHigh s).colorOut = s.colorOut := rfl
@[simp] theorem pinsHigh_inputs : (pinsHigh s).inputs = s.inputs := rfl
@[simp] theorem pinsHigh_heldIrq : (pinsHigh s).heldIrq = s.heldIrq := rfl
@[simp] theorem pinsHigh_draws : (pinsHigh s).draws = s.draws := rfl

/-! ### pinsLow -/

@[simp] theorem pinsLow_cfg : (pinsLow s).cfg = s.cfg := rfl
@[simp] theorem pinsLow_ses : (pinsLow s).ses = s.ses := rfl
@[simp] theorem pinsLow_seq : (pinsLow s).seq = s.seq := rfl
@[simp] theorem pinsLow_ie : (pinsLow s).ie = s.ie := rfl
@[simp] theorem pinsLow_ports : (pinsLow s).ports = Ports.write s.ses.cPort (Ports.read s.ports s.ses.cPort &&& s.ses.cMaskLo) s.ports := rfl
@[simp] theorem pinsLow_mem : (pinsLow s).mem = s.mem := rfl
@[simp] theorem pinsLow_cmd : (pinsLow s).cmd = s.cmd := rfl
@[simp] theorem pinsLow_ops : (pinsLow s).ops = s.ops := rfl
@[simp] theorem pinsLow_busy : (pinsLow s).busy = s.busy := rfl
@[simp] theorem pinsLow_cycle : (pinsLow s).cycle = s.cycle := rfl
@[simp] theorem pinsLow_trace : (pinsLow s).trace = s.trace ++ [.w s.cycle s.ses.cPort (Ports.read s.ports s.ses.cPort &&& s.ses.cMaskLo)] := rfl
@[simp] theorem pinsLow_colorOut : (pinsLow s).colorOut = s.colorOut := rfl
@[simp] theorem pinsLow_inputs : (pinsLow s).inputs = s.inputs := rfl
@[simp] theorem pinsLow_heldIrq : (pinsLow s).heldIrq = s.heldIrq := rfl
@[simp] theorem pinsLow_draws : (pinsLow s).draws = s.draws := rfl

/-! ### loadShreg -/

@[simp] theorem loadShreg_cfg (b : Byte) : (loadShreg b s).cfg = s.cfg := rfl
@[simp] theorem loadShreg_ses (b : Byte) : (loadShreg b s).ses = s.ses := rfl
@[simp] theorem loadShreg_seq (b : Byte) : (loadShreg b s).seq = { s.seq with shreg := b } := rfl
@[simp] theorem loadShreg_ie (b : Byte) : (loadShreg b s).ie = s.ie := rfl
@[simp] theorem loadShreg_ports (b : Byte) : (loadShreg b s).ports = s.ports := rfl
@[simp] theorem loadShreg_mem (b : Byte) : (loadShreg b s).mem = s.mem := rfl
@[simp] theorem loadShreg_cmd (b : Byte) : (loadShreg b s).cmd = s.cmd := rfl
@[simp] theorem loadShreg_ops (b : Byte) : (loadShreg b s).ops = s.ops := rfl
@[simp] theorem loadShreg_busy (b : Byte) : (loadShreg b s).busy = s.busy := rfl
@[simp] theorem loadShreg_cycle (b : Byte) : (loadShreg b s).cycle = s.cycle := rfl
@[simp] theorem loadShreg_trace (b : Byte) : (loadShreg b s).trace = s.trace := rfl
@[simp] theorem loadShreg_colorOut (b : Byte) : (loadShreg b s).colorOut = s.colorOut := rfl
@[simp] theorem loadShreg_inputs (b : Byte) : (loadShreg b s).inputs = s.inputs := rfl
@[simp] theorem loadShreg_heldIrq (b : Byte) : (loadShreg b s).heldIrq = s.heldIrq := rfl
@[simp] theorem loadShreg_draws (b : Byte) : (loadShreg b s).draws = s.draws := rfl

/-! ### shiftShreg -/

@[simp] theorem shiftShreg_cfg : (shiftShreg s).cfg = s.cfg := rfl
@[simp] theorem shiftShreg_ses : (shiftShreg s).ses = s.ses := rfl
@[simp] theorem shiftShreg_seq : (shiftShreg s).seq = { s.seq with shreg := s.seq.shreg <<< 1 } := rfl
@[simp] theorem shiftShreg_ie : (shiftShreg s).ie = s.ie := rfl
@[simp] theorem shiftShreg_ports : (shiftShreg s).ports = s.ports := rfl
@[simp] theorem shiftShreg_mem : (shiftShreg s).mem = s.mem := rfl
@[simp] theorem shiftShreg_cmd : (shiftShreg s).cmd = s.cmd := rfl
@[simp] theorem shiftShreg_ops : (shiftShreg s).ops = s.ops := rfl
@[simp] theorem shiftShreg_busy : (shiftShreg s).busy = s.busy := rfl
@[simp] theorem shiftShreg_cycle : (shiftShreg s).cycle = s.cycle := rfl
@[simp] theorem shiftShreg_trace : (shiftShreg s).trace = s.trace := rfl
@[simp] theorem shiftShreg_colorOut : (shiftShreg s).colorOut = s.colorOut := rfl
@[simp] theorem shiftShreg_inputs : (shiftShreg s).inputs = s.inputs := rfl
@[simp] theorem shiftShreg_heldIrq : (shiftShreg s).heldIrq = s.heldIrq := rfl
@[simp] theorem shiftShreg_draws : (shiftShreg s).draws = s.draws := rfl

/-! ### loadDly -/

@[simp] theorem loadDly_cfg (n : Nat) : (loadDly n s).cfg = s.cfg := rfl
@[simp] theorem loadDly_ses (n : Nat) : (loadDly n s).ses = s.ses := rfl
@[simp] theorem loadDly_seq (n : Nat) : (loadDly n s).seq = { s.seq with dly := n } := rfl
@[simp] theorem loadDly_ie (n : Nat) : (loadDly n s).ie = s.ie := rfl
@[simp] theorem loadDly_ports (n : Nat) : (loadDly n s).ports = s.ports := rfl
@[simp] theorem loadDly_mem (n : Nat) : (loadDly n s).mem = s.mem := rfl
@[simp] theorem loadDly_cmd (n : Nat) : (loadDly n s).cmd = s.cmd := rfl
@[simp] theorem loadDly_ops (n : Nat) : (loadDly n s).ops = s.ops := rfl
@[simp] theorem loadDly_busy (n : Nat) : (loadDly n s).busy = s.busy := rfl
@[simp] theorem loadDly_cycle (n : Nat) : (loadDly n s).cycle = s.cycle := rfl
@[simp] theorem loadDly_trace (n : Nat) : (loadDly n s).trace = s.trace := rfl
@[simp] theorem loadDly_colorOut (n : Nat) : (loadDly n s).colorOut = s.colorOut := rfl
@[simp] theorem loadDly_inputs (n : Nat) : (loadDly n s).inputs = s.inputs := rfl
@[simp] theorem loadDly_heldIrq (n : Nat) : (loadDly n s).heldIrq = s.heldIrq := rfl
@[simp] theorem loadDly_draws (n : Nat) : (loadDly n s).draws = s.draws := rfl

/-! ### setPos -/

@[simp] theorem setPos_cfg (p : SeqPos) : (setPos p s).cfg = s.cfg := rfl
@[simp] theorem setPos_ses (p : SeqPos) : (setPos p s).ses = s.ses := rfl
@[simp] theorem setPos_seq (p : SeqPos) : (setPos p s).seq = { s.seq with pos := p } := rfl
@[simp] theorem setPos_ie (p : SeqPos) : (setPos p s).ie = s.ie := rfl
@[simp] theorem setPos_ports (p : SeqPos) : (setPos p s).ports = s.ports := rfl
@[simp] theorem setPos_mem (p : SeqPos) : (setPos p s).mem = s.mem := rfl
@[simp] theorem setPos_cmd (p : SeqPos) : (setPos p s).cmd = s.cmd := rfl
@[simp] theorem setPos_ops (p : SeqPos) : (setPos p s).ops = s.ops := rfl
@[simp] theorem setPos_busy (p : SeqPos) : (setPos p s).busy = s.busy := rfl
@[simp] theorem setPos_cycle (p : SeqPos) : (setPos p s).cycle = s.cycle := rfl
@[simp] theorem setPos_trace (p : SeqPos) : (setPos p s).trace = s.trace := rfl
@[simp] theorem setPos_colorOut (p : SeqPos) : (setPos p s).colorOut = s.colorOut := rfl
@[simp] theorem setPos_inputs (p : SeqPos) : (setPos p s).inputs = s.inputs := rfl
@[simp] theorem setPos_heldIrq (p : SeqPos) : (setPos p s).heldIrq = s.heldIrq := rfl
@[simp] theorem setPos_draws (p : SeqPos) : (setPos p s).draws = s.draws := rfl

/-! ### writeIe -/

@[simp] theorem writeIe_cfg (v : Bool) : (writeIe v s).cfg = s.cfg := rfl
@[simp] theorem writeIe_ses (v : Bool) : (writeIe v s).ses = s.ses := rfl
@[simp] theorem writeIe_seq (v : Bool) : (writeIe v s).seq = s.seq := rfl
@[simp] theorem writeIe_ie (v : Bool) : (writeIe v s).ie = v := rfl
@[simp] theorem writeIe_ports (v : Bool) : (writeIe v s).ports = s.ports := rfl
@[simp] theorem writeIe_mem (v : Bool) : (writeIe v s).mem = s.mem := rfl
@[simp] theorem writeIe_cmd (v : Bool) : (writeIe v s).cmd = s.cmd := rfl
@[simp] theorem writeIe_ops (v : Bool) : (writeIe v s).ops = s.ops := rfl
@[simp] theorem writeIe_busy (v : Bool) : (writeIe v s).busy = s.busy := rfl
@[simp] theorem writeIe_cycle (v : Bool) : (writeIe v s).cycle = s.cycle := rfl
@[simp] theorem writeIe_trace (v : Bool) : (writeIe v s).trace = s.trace ++ [.i s.cycle v] := rfl
@[simp] theorem writeIe_colorOut (v : Bool) : (writeIe v s).colorOut = s.colorOut := rfl
@[simp] theorem writeIe_inputs (v : Bool) : (writeIe v s).inputs = s.inputs := rfl
@[simp] theorem writeIe_heldIrq (v : Bool) : (writeIe v s).heldIrq = s.heldIrq := rfl
@[simp] theorem writeIe_draws (v : Bool) : (writeIe v s).draws = s.draws := rfl

/-! ### openSession -/

@[simp] theorem openSession_cfg (d : Handle) : (openSession d s).cfg = s.cfg := rfl
@[simp] theorem openSession_ses (d : Handle) : (openSession d s).ses = ⟨true, s.ie, d.port, d.maskHi, d.maskLo, true⟩ := rfl
@[simp] theorem openSession_seq (d : Handle) : (openSession d s).seq = s.seq := rfl
@[simp] theorem openSession_ie (d : Handle) : (openSession d s).ie = false := rfl
@[simp] theorem openSession_ports (d : Handle) : (openSession d s).ports = s.ports := rfl
@[simp] theorem openSession_mem (d : Handle) : (openSession d s).mem = s.mem := rfl
@[simp] theorem openSession_cmd (d : Handle) : (openSession d s).cmd = s.cmd := rfl
@[simp] theorem openSession_ops (d : Handle) : (openSession d s).ops = s.ops := rfl
@[simp] theorem openSession_busy (d : Handle) : (openSession d s).busy = s.busy := rfl
@[simp] theorem openSession_cycle (d : Handle) : (openSession d s).cycle = s.cycle := rfl
@[simp] theorem openSession_trace (d : Handle) : (openSession d s).trace = s.trace ++ [.i s.cycle false] := rfl
@[simp] theorem openSession_colorOut (d : Handle) : (openSession d s).colorOut = s.colorOut := rfl
@[simp] theorem openSession_inputs (d : Handle) : (openSession d s).inputs = s.inputs := rfl
@[simp] theorem openSession_heldIrq (d : Handle) : (openSession d s).heldIrq = s.heldIrq := rfl
@[simp] theorem openSession_draws (d : Handle) : (openSession d s).draws = s.draws := rfl

/-! ### closeSession -/

@[simp] theorem closeSession_cfg : (closeSession s).cfg = s.cfg := rfl
@[simp] theorem closeSession_ses : (closeSession s).ses = { s.ses with isOpen := false } := rfl
@[simp] theorem closeSession_seq : (closeSession s).seq = s.seq := rfl
@[simp] theorem closeSession_ie : (closeSession s).ie = s.ses.savedIe := rfl
@[simp] theorem closeSession_ports : (closeSession s).ports = s.ports := rfl
@[simp] theorem closeSession_mem : (closeSession s).mem = s.mem := rfl
@[simp] theorem closeSession_cmd : (closeSession s).cmd = s.cmd := rfl
@[simp] theorem closeSession_ops : (closeSession s).ops = s.ops := rfl
@[simp] theorem closeSession_busy : (closeSession s).busy = s.busy := rfl
@[simp] theorem closeSession_cycle : (closeSession s).cycle = s.cycle := rfl
@[simp] theorem closeSession_trace : (closeSession s).trace = s.trace ++ [.i s.cycle s.ses.savedIe] := rfl
@[simp] theorem closeSession_colorOut : (closeSession s).colorOut = s.colorOut := rfl
@[simp] theorem closeSession_inputs : (closeSession s).inputs = s.inputs := rfl
@[simp] theorem closeSession_heldIrq : (closeSession s).heldIrq = s.heldIrq := rfl
@[simp] theorem closeSession_draws : (closeSession s).draws = s.draws := rfl

/-! ### answerTable -/

@[simp] theorem answerTable_cfg (o : Order) : (answerTable o s).cfg = s.cfg := rfl
@[simp] theorem answerTable_ses (o : Order) : (answerTable o s).ses = s.ses := rfl
@[simp] theorem answerTable_seq (o : Order) : (answerTable o s).seq = s.seq := rfl
@[simp] theorem answerTable_ie (o : Order) : (answerTable o s).ie = s.ie := rfl
@[simp] theorem answerTable_ports (o : Order) : (answerTable o s).ports = s.ports := rfl
@[simp] theorem answerTable_mem (o : Order) : (answerTable o s).mem = s.mem := rfl
@[simp] theorem answerTable_cmd (o : Order) : (answerTable o s).cmd = s.cmd := rfl
@[simp] theorem answerTable_ops (o : Order) : (answerTable o s).ops = s.ops := rfl
@[simp] theorem answerTable_busy (o : Order) : (answerTable o s).busy = s.busy := rfl
@[simp] theorem answerTable_cycle (o : Order) : (answerTable o s).cycle = s.cycle := rfl
@[simp] theorem answerTable_trace (o : Order) : (answerTable o s).trace = s.trace := rfl
@[simp] theorem answerTable_colorOut (o : Order) : (answerTable o s).colorOut = o := rfl
@[simp] theorem answerTable_inputs (o : Order) : (answerTable o s).inputs = s.inputs := rfl
@[simp] theorem answerTable_heldIrq (o : Order) : (answerTable o s).heldIrq = s.heldIrq := rfl
@[simp] theorem answerTable_draws (o : Order) : (answerTable o s).draws = s.draws := rfl

/-! ### latchCmd -/

@[simp] theorem latchCmd_cfg (w : Byte) : (latchCmd w s).cfg = s.cfg := rfl
@[simp] theorem latchCmd_ses (w : Byte) : (latchCmd w s).ses = s.ses := rfl
@[simp] theorem latchCmd_seq (w : Byte) : (latchCmd w s).seq = s.seq := rfl
@[simp] theorem latchCmd_ie (w : Byte) : (latchCmd w s).ie = s.ie := rfl
@[simp] theorem latchCmd_ports (w : Byte) : (latchCmd w s).ports = s.ports := rfl
@[simp] theorem latchCmd_mem (w : Byte) : (latchCmd w s).mem = s.mem := rfl
@[simp] theorem latchCmd_cmd (w : Byte) : (latchCmd w s).cmd = w := rfl
@[simp] theorem latchCmd_ops (w : Byte) : (latchCmd w s).ops = s.ops := rfl
@[simp] theorem latchCmd_busy (w : Byte) : (latchCmd w s).busy = s.busy := rfl
@[simp] theorem latchCmd_cycle (w : Byte) : (latchCmd w s).cycle = s.cycle := rfl
@[simp] theorem latchCmd_trace (w : Byte) : (latchCmd w s).trace = s.trace := rfl
@[simp] theorem latchCmd_colorOut (w : Byte) : (latchCmd w s).colorOut = s.colorOut := rfl
@[simp] theorem latchCmd_inputs (w : Byte) : (latchCmd w s).inputs = s.inputs := rfl
@[simp] theorem latchCmd_heldIrq (w : Byte) : (latchCmd w s).heldIrq = s.heldIrq := rfl
@[simp] theorem latchCmd_draws (w : Byte) : (latchCmd w s).draws = s.draws := rfl

/-! ### accept -/

@[simp] theorem accept_cfg : (accept s).cfg = s.cfg := rfl
@[simp] theorem accept_ses : (accept s).ses = s.ses := rfl
@[simp] theorem accept_seq : (accept s).seq = s.seq := rfl
@[simp] theorem accept_ie : (accept s).ie = s.ie := rfl
@[simp] theorem accept_ports : (accept s).ports = s.ports := rfl
@[simp] theorem accept_mem : (accept s).mem = s.mem := rfl
@[simp] theorem accept_cmd : (accept s).cmd = s.cmd := rfl
@[simp] theorem accept_ops : (accept s).ops = s.ops := rfl
@[simp] theorem accept_busy : (accept s).busy = true := rfl
@[simp] theorem accept_cycle : (accept s).cycle = s.cycle + Config.draw s.draws := rfl
@[simp] theorem accept_trace : (accept s).trace = s.trace := rfl
@[simp] theorem accept_colorOut : (accept s).colorOut = s.colorOut := rfl
@[simp] theorem accept_inputs : (accept s).inputs = s.inputs := rfl
@[simp] theorem accept_heldIrq : (accept s).heldIrq = s.heldIrq := rfl
@[simp] theorem accept_draws : (accept s).draws = s.draws + 1 := rfl

/-! ### retire -/

@[simp] theorem retire_cfg : (retire s).cfg = s.cfg := rfl
@[simp] theorem retire_ses : (retire s).ses = s.ses := rfl
@[simp] theorem retire_seq : (retire s).seq = s.seq := rfl
@[simp] theorem retire_ie : (retire s).ie = s.ie := rfl
@[simp] theorem retire_ports : (retire s).ports = s.ports := rfl
@[simp] theorem retire_mem : (retire s).mem = s.mem := rfl
@[simp] theorem retire_cmd : (retire s).cmd = s.cmd := rfl
@[simp] theorem retire_ops : (retire s).ops = s.ops := rfl
@[simp] theorem retire_busy : (retire s).busy = false := rfl
@[simp] theorem retire_cycle : (retire s).cycle = s.cycle + Config.draw s.draws := rfl
@[simp] theorem retire_trace : (retire s).trace = s.trace := rfl
@[simp] theorem retire_colorOut : (retire s).colorOut = s.colorOut := rfl
@[simp] theorem retire_inputs : (retire s).inputs = s.inputs := rfl
@[simp] theorem retire_heldIrq : (retire s).heldIrq = s.heldIrq := rfl
@[simp] theorem retire_draws : (retire s).draws = s.draws + 1 := rfl

/-! ### holdIrq -/

@[simp] theorem holdIrq_cfg (n : Nat) : (holdIrq n s).cfg = s.cfg := rfl
@[simp] theorem holdIrq_ses (n : Nat) : (holdIrq n s).ses = s.ses := rfl
@[simp] theorem holdIrq_seq (n : Nat) : (holdIrq n s).seq = s.seq := rfl
@[simp] theorem holdIrq_ie (n : Nat) : (holdIrq n s).ie = s.ie := rfl
@[simp] theorem holdIrq_ports (n : Nat) : (holdIrq n s).ports = s.ports := rfl
@[simp] theorem holdIrq_mem (n : Nat) : (holdIrq n s).mem = s.mem := rfl
@[simp] theorem holdIrq_cmd (n : Nat) : (holdIrq n s).cmd = s.cmd := rfl
@[simp] theorem holdIrq_ops (n : Nat) : (holdIrq n s).ops = s.ops := rfl
@[simp] theorem holdIrq_busy (n : Nat) : (holdIrq n s).busy = s.busy := rfl
@[simp] theorem holdIrq_cycle (n : Nat) : (holdIrq n s).cycle = s.cycle := rfl
@[simp] theorem holdIrq_trace (n : Nat) : (holdIrq n s).trace = s.trace := rfl
@[simp] theorem holdIrq_colorOut (n : Nat) : (holdIrq n s).colorOut = s.colorOut := rfl
@[simp] theorem holdIrq_inputs (n : Nat) : (holdIrq n s).inputs = s.inputs := rfl
@[simp] theorem holdIrq_heldIrq (n : Nat) : (holdIrq n s).heldIrq = s.heldIrq ++ [n] := rfl
@[simp] theorem holdIrq_draws (n : Nat) : (holdIrq n s).draws = s.draws := rfl

/-! ### idleTime -/

@[simp] theorem idleTime_cfg : (idleTime s).cfg = s.cfg := rfl
@[simp] theorem idleTime_ses : (idleTime s).ses = s.ses := rfl
@[simp] theorem idleTime_seq : (idleTime s).seq = s.seq := rfl
@[simp] theorem idleTime_ie : (idleTime s).ie = s.ie := rfl
@[simp] theorem idleTime_ports : (idleTime s).ports = s.ports := rfl
@[simp] theorem idleTime_mem : (idleTime s).mem = s.mem := rfl
@[simp] theorem idleTime_cmd : (idleTime s).cmd = s.cmd := rfl
@[simp] theorem idleTime_ops : (idleTime s).ops = s.ops := rfl
@[simp] theorem idleTime_busy : (idleTime s).busy = s.busy := rfl
@[simp] theorem idleTime_cycle : (idleTime s).cycle = s.cycle + Config.draw s.draws := rfl
@[simp] theorem idleTime_trace : (idleTime s).trace = s.trace := rfl
@[simp] theorem idleTime_colorOut : (idleTime s).colorOut = s.colorOut := rfl
@[simp] theorem idleTime_inputs : (idleTime s).inputs = s.inputs := rfl
@[simp] theorem idleTime_heldIrq : (idleTime s).heldIrq = s.heldIrq := rfl
@[simp] theorem idleTime_draws : (idleTime s).draws = s.draws + 1 := rfl

/-! ### waitUntil -/

@[simp] theorem waitUntil_cfg (t : Nat) : (waitUntil t s).cfg = s.cfg := rfl
@[simp] theorem waitUntil_ses (t : Nat) : (waitUntil t s).ses = s.ses := rfl
@[simp] theorem waitUntil_seq (t : Nat) : (waitUntil t s).seq = s.seq := rfl
@[simp] theorem waitUntil_ie (t : Nat) : (waitUntil t s).ie = s.ie := rfl
@[simp] theorem waitUntil_ports (t : Nat) : (waitUntil t s).ports = s.ports := rfl
@[simp] theorem waitUntil_mem (t : Nat) : (waitUntil t s).mem = s.mem := rfl
@[simp] theorem waitUntil_cmd (t : Nat) : (waitUntil t s).cmd = s.cmd := rfl
@[simp] theorem waitUntil_ops (t : Nat) : (waitUntil t s).ops = s.ops := rfl
@[simp] theorem waitUntil_busy (t : Nat) : (waitUntil t s).busy = s.busy := rfl
@[simp] theorem waitUntil_cycle (t : Nat) : (waitUntil t s).cycle = s.cycle + (t - s.cycle) := rfl
@[simp] theorem waitUntil_trace (t : Nat) : (waitUntil t s).trace = s.trace := rfl
@[simp] theorem waitUntil_colorOut (t : Nat) : (waitUntil t s).colorOut = s.colorOut := rfl
@[simp] theorem waitUntil_inputs (t : Nat) : (waitUntil t s).inputs = s.inputs := rfl
@[simp] theorem waitUntil_heldIrq (t : Nat) : (waitUntil t s).heldIrq = s.heldIrq := rfl
@[simp] theorem waitUntil_draws (t : Nat) : (waitUntil t s).draws = s.draws := rfl

end Sys2Proof.Machine
end

