-- ==== Sys2Proof/Laws/Delay.lean ====
section
/-! SUPPORT. What the delay does, in closed form. -/

namespace Sys2Proof.Machine

/-- The loop of R230: `n` turns pass `n * DELAY_ITER_CYC` cycles and take `SEQ.DLY` down by `n`. -/
theorem delayLoop_eq (n : Nat) (s : State) :
    delayLoop n s =
      { s with
        cycle := s.cycle + n * s.cfg.delayIterCyc
        seq := { s.seq with dly := s.seq.dly - n } } := by
  induction n generalizing s with
  | zero => simp [delayLoop]
  | succ n ih =>
    simp only [delayLoop, ih, wait, loadDly]
    congr 1
    · congr 1; omega
    · rw [Nat.add_mul]; omega

/-- `irq_enter()` writes at most `IE`, and records what it writes. -/
theorem irqEnter_eq (s : State) :
    irqEnter s = if s.cfg.irqMode = .leaveAlone then s else writeIe false s := by
  unfold irqEnter
  cases s.cfg.irqMode <;> simp

/-- What `irq_leave()` puts in `IE` (R236). -/
theorem irqLeave_eq (saved : Bool) (s : State) :
    irqLeave saved s =
      if s.cfg.irqMode = .leaveAlone then s
      else if s.cfg.irqMode = .saveRestore then writeIe saved s
      else writeIe true s := by
  unfold irqLeave
  cases s.cfg.irqMode <;> simp

/-- Everything a delay can do, whatever the mode: time passes, `SEQ.DLY` ends 0, free values may be drawn, `IE` is as the
mode leaves it, and `I` events, if any, stand at its start and its end. -/
theorem delay_frame (n : Nat) (s : State) :
    ∃ x y es, delay n s =
      { s with
        cycle := s.cycle + delayCycles s.cfg n + x
        draws := y
        ie := if s.cfg.irqMode = .disableEnable then true else s.ie
        trace := s.trace ++ es
        seq := { s.seq with dly := 0 } } ∧
      (es = [] ∨ ∃ v, es = [.i s.cycle false, .i (s.cycle + delayCycles s.cfg n + x) v]) := by
  cases hm : s.cfg.irqMode with
  | leaveAlone =>
    cases hi : s.ie with
    | false =>
      refine ⟨0, s.draws, [], ?_, .inl rfl⟩
      simp [delay, delayLoop_eq, irqEnter, irqLeave, stretchIfEnabled, hm, hi, wait, loadDly, delayCycles, Nat.add_assoc]
    | true =>
      refine ⟨Config.draw s.draws, s.draws + 1, [], ?_, .inl rfl⟩
      simp [delay, delayLoop_eq, irqEnter, irqLeave, stretchIfEnabled, hm, hi, wait, loadDly, drawWait, delayCycles,
        Nat.add_assoc]
  | saveRestore =>
    refine ⟨0, s.draws, [.i s.cycle false, .i (s.cycle + delayCycles s.cfg n + 0) s.ie], ?_, .inr ⟨_, rfl⟩⟩
    simp [delay, delayLoop_eq, irqEnter, irqLeave, stretchIfEnabled, hm, wait, loadDly, writeIe, record, delayCycles,
      Nat.add_assoc]
  | disableEnable =>
    refine ⟨0, s.draws, [.i s.cycle false, .i (s.cycle + delayCycles s.cfg n + 0) true], ?_, .inr ⟨_, rfl⟩⟩
    simp [delay, delayLoop_eq, irqEnter, irqLeave, stretchIfEnabled, hm, wait, loadDly, writeIe, record, delayCycles,
      Nat.add_assoc]

end Sys2Proof.Machine
end

