-- ==== Sys2Proof/Laws/Ops.lean ====
section
/-! SUPPORT. What the control of an operation can do: going on, stopping, the checks in front of a meaning. -/

namespace Sys2Proof.Machine

variable {α β : Type}

@[simp] theorem chain_next (a : α) (f : α → Result β) : chain (.next a) f = f a := rfl
@[simp] theorem chain_fault (e : Fault) (f : α → Result β) : chain (.fault e) f = .fault e := rfl
@[simp] theorem chain_refused (e : Refusal) (f : α → Result β) : chain (.refused e) f = .refused e := rfl

theorem chain_eq_next {o : Result α} {f : α → Result β} {b : β} :
    chain o f = .next b ↔ ∃ a, o = .next a ∧ f a = .next b := by
  cases o <;> simp

theorem chain_eq_fault {o : Result α} {f : α → Result β} {e : Fault} :
    chain o f = .fault e ↔ o = .fault e ∨ ∃ a, o = .next a ∧ f a = .fault e := by
  cases o <;> simp

theorem chain_eq_refused {o : Result α} {f : α → Result β} {e : Refusal} :
    chain o f = .refused e ↔ o = .refused e ∨ ∃ a, o = .next a ∧ f a = .refused e := by
  cases o <;> simp

theorem chain_assoc {γ : Type} (o : Result α) (f : α → Result β) (g : β → Result γ) :
    chain (chain o f) g = chain o (fun a => chain (f a) g) := by
  cases o <;> rfl

@[simp] theorem chain_next_right (o : Result α) : chain o .next = o := by
  cases o <;> rfl

@[simp] theorem unlessFault_none (go : Result State) : unlessFault none go = go := rfl
@[simp] theorem unlessFault_some (e : Fault) (go : Result State) : unlessFault (some e) go = .fault e := rfl

theorem unlessFault_eq_next {f : Option Fault} {go : Result State} {t : State} :
    unlessFault f go = .next t ↔ f = none ∧ go = .next t := by
  cases f <;> simp

theorem admitHandle_eq_next {d : Handle} {go : Result State} {t : State} :
    admitHandle d go = .next t ↔ wfDev d = true ∧ go = .next t := by
  unfold admitHandle
  split <;> simp_all

theorem admitHandle_eq_fault {d : Handle} {go : Result State} {e : Fault} :
    admitHandle d go = .fault e ↔ wfDev d = true ∧ go = .fault e := by
  unfold admitHandle
  split <;> simp_all

theorem admitRange_eq_next {c : Config} {b n : Nat} {go : Result State} {t : State} :
    admitRange c b n go = .next t ↔ fitsMemory c b n = true ∧ go = .next t := by
  unfold admitRange
  split <;> simp_all

theorem admitRange_eq_fault {c : Config} {b n : Nat} {go : Result State} {e : Fault} :
    admitRange c b n go = .fault e ↔ fitsMemory c b n = true ∧ go = .fault e := by
  unfold admitRange
  split <;> simp_all

/-- A read of pixel memory that goes on: the byte has a value, and only the trace changes. -/
theorem memRead_eq_next {a : Nat} {s : State} {r : Byte × State} :
    memRead a s = .next r ↔ Memory.read s.mem a = some r.1 ∧ r.2 = record (.r s.cycle a r.1) s := by
  obtain ⟨v, t⟩ := r
  unfold memRead
  cases hm : Memory.read s.mem a with
  | none => simp
  | some w =>
    simp only [Host.Outcome.next.injEq, Prod.mk.injEq, Option.some.injEq]
    constructor
    · rintro ⟨rfl, rfl⟩
      exact ⟨rfl, rfl⟩
    · rintro ⟨rfl, rfl⟩
      exact ⟨rfl, rfl⟩

/-- A read of pixel memory that stops: the byte has no value. -/
theorem memRead_eq_fault {a : Nat} {s : State} {f : Fault} :
    memRead a s = .fault f ↔ Memory.read s.mem a = none ∧ f = .pixelWithoutValue := by
  unfold memRead
  cases Memory.read s.mem a <;> simp [eq_comm]

theorem memRead_ne_refused {a : Nat} {s : State} {e : Refusal} : memRead a s ≠ .refused e := by
  unfold memRead
  split <;> simp

/-- A primitive's check passes exactly when `IE = 0` and the session can be emitted from (R153). -/
theorem primitiveFault_eq_none {s : State} :
    primitiveFault s = none ↔
      s.ie = false ∧ (s.ses.isOpen = true ∨ s.cfg.txClosed = .emit) := by
  unfold primitiveFault
  cases s.ses.isOpen <;> cases s.cfg.txClosed <;> cases s.ie <;> simp

/-- TRANSMIT's check passes exactly when `IE = 0` and it may start (R176). -/
theorem transmitFault_eq_none {s : State} :
    transmitFault s = none ↔ s.ie = false ∧ (s.ses.isOpen = true ∨ s.cfg.txClosed = .emit) := by
  unfold transmitFault
  cases s.ses.isOpen <;> cases s.cfg.txClosed <;> cases s.ie <;> simp

end Sys2Proof.Machine
end

