-- ==== Sys2Proof/Laws/Emission.lean ====
section
/-! SUPPORT. What emission can do, said once: a relation between the state before and after a run of symbols and reads, that
holds of one symbol and composes; and what each loop of the transmitter answers, in terms of it. -/

namespace Sys2Proof.Machine

/-! ### Lists of events -/

theorem portWrites_append (a : Nat) (x y : List Event) :
    portWrites a (x ++ y) = portWrites a x ++ portWrites a y := by
  induction x with
  | nil => rfl
  | cons e rest ih =>
    cases e <;> simp only [List.cons_append, portWrites, ih]
    split <;> simp

theorem memoryReads_append (x y : List Event) : memoryReads (x ++ y) = memoryReads x ++ memoryReads y := by
  induction x with
  | nil => rfl
  | cons e rest ih => cases e <;> simp [memoryReads, ih]

theorem edgeWrites_append (hi lo : Byte) (x y : List (Nat × Nat)) :
    edgeWrites hi lo (x ++ y) = edgeWrites hi lo x ++ edgeWrites hi lo y := by
  simp [edgeWrites]

/-! ### The relation -/

/-- The port values of the high and the low segments of an emission that starts in `s`. -/
def highValue (s : State) : Byte := Ports.read s.ports s.ses.cPort ||| s.ses.cMaskHi
def lowValue (s : State) : Byte := Ports.read s.ports s.ses.cPort &&& s.ses.cMaskLo

/-- The ports are canonical and the low mask is the complement of the high one. -/
def PortsReady (s : State) : Prop := Ports.wf s.ports = true ∧ s.ses.cMaskLo = ~~~s.ses.cMaskHi

/-- `t` comes from `s` by symbols with the given edges and reads of the given bytes, and nothing else. -/
structure Emission (s t : State) (edges : List (Nat × Nat)) (reads : List (Nat × Nat × Byte)) : Prop where
  /-- Only the ports, time, the trace and the shift register change. -/
  frame : t = { s with ports := t.ports, cycle := t.cycle, trace := t.trace,
                       seq := { s.seq with shreg := t.seq.shreg } }
  later : s.cycle ≤ t.cycle
  wf : Ports.wf s.ports = true → Ports.wf t.ports = true
  inside : ∀ c : Config, s.ses.cPort < 2 ^ c.addrW → cellsInside c s.ports = true → cellsInside c t.ports = true
  values : PortsReady s → ∀ x, Ports.read t.ports x =
    if x = s.ses.cPort ∧ edges ≠ [] then lowValue s else Ports.read s.ports x
  events : ∃ es, t.trace = s.trace ++ es ∧ memoryReads es = reads ∧
    es.length = 2 * edges.length + reads.length ∧
    (portWrites s.ses.cPort es).length = 2 * edges.length ∧
    (PortsReady s → portWrites s.ses.cPort es = edgeWrites (highValue s) (lowValue s) edges) ∧
    (es.map eventTime).Pairwise (· ≤ ·) ∧ (∀ e ∈ es, s.cycle ≤ eventTime e ∧ eventTime e ≤ t.cycle) ∧
    (∀ c a v, .w c a v ∈ es → a = s.ses.cPort) ∧ (∀ c v, .i c v ∉ es)

namespace Emission

variable {s t u : State} {e1 e2 : List (Nat × Nat)} {r1 r2 : List (Nat × Nat × Byte)}

theorem refl (s : State) : Emission s s [] [] where
  frame := rfl
  later := Nat.le_refl _
  wf := id
  inside := fun _ _ h => h
  values := by simp
  events := ⟨[], by simp [memoryReads, portWrites, edgeWrites]⟩

theorem cfg_eq (h : Emission s t e1 r1) : t.cfg = s.cfg := by rw [h.frame]
theorem ses_eq (h : Emission s t e1 r1) : t.ses = s.ses := by rw [h.frame]
theorem ie_eq (h : Emission s t e1 r1) : t.ie = s.ie := by rw [h.frame]
theorem mem_eq (h : Emission s t e1 r1) : t.mem = s.mem := by rw [h.frame]
theorem pos_eq (h : Emission s t e1 r1) : t.seq.pos = s.seq.pos := by rw [h.frame]

theorem ready (h : Emission s t e1 r1) (hs : PortsReady s) : PortsReady t :=
  ⟨h.wf hs.1, by rw [h.ses_eq]; exact hs.2⟩

theorem lowValue_eq (h : Emission s t e1 r1) (hs : PortsReady s) : lowValue t = lowValue s := by
  unfold lowValue
  rw [h.ses_eq, h.values hs]
  split
  · unfold lowValue
    rw [BitVec.and_assoc, BitVec.and_self]
  · rfl

theorem highValue_eq (h : Emission s t e1 r1) (hs : PortsReady s) : highValue t = highValue s := by
  unfold highValue
  rw [h.ses_eq, h.values hs]
  split
  · unfold lowValue
    rw [hs.2]
    ext i hi
    simp
    cases (Ports.read s.ports s.ses.cPort)[i] <;> cases s.ses.cMaskHi[i] <;> rfl
  · rfl

theorem trans (h1 : Emission s t e1 r1) (h2 : Emission t u e2 r2) : Emission s u (e1 ++ e2) (r1 ++ r2) where
  frame := by
    rw [h2.frame, h1.frame]
  later := Nat.le_trans h1.later h2.later
  wf := fun h => h2.wf (h1.wf h)
  inside := fun c hc h => h2.inside c (by rw [h1.ses_eq]; exact hc) (h1.inside c hc h)
  values := by
    intro hs x
    rw [h2.values (h1.ready hs), h1.lowValue_eq hs, h1.values hs, h1.ses_eq]
    by_cases hx : x = s.ses.cPort <;> by_cases he1 : e1 = [] <;> by_cases he2 : e2 = [] <;> simp [hx, he1, he2]
  events := by
    obtain ⟨x, hx, hxr, hxl, hxn, hxp, hxo, hxb, hxw, hxi⟩ := h1.events
    obtain ⟨y, hy, hyr, hyl, hyn, hyp, hyo, hyb, hyw, hyi⟩ := h2.events
    rw [h1.ses_eq] at hyn hyp hyw
    refine ⟨x ++ y, by rw [hy, hx, List.append_assoc], by rw [memoryReads_append, hxr, hyr], ?_, ?_, ?_, ?_, ?_,
      ?_, ?_⟩
    · simp only [List.length_append, hxl, hyl]
      omega
    · rw [portWrites_append, List.length_append, hxn, hyn, List.length_append]
      omega
    · intro hs
      rw [portWrites_append, hxp hs, hyp (h1.ready hs), h1.highValue_eq hs, h1.lowValue_eq hs, edgeWrites_append]
    · rw [List.map_append, List.pairwise_append]
      refine ⟨hxo, hyo, ?_⟩
      intro a ha b hb
      obtain ⟨e, he, rfl⟩ := List.mem_map.1 ha
      obtain ⟨f, hf, rfl⟩ := List.mem_map.1 hb
      exact Nat.le_trans (hxb e he).2 (hyb f hf).1
    · intro e he
      have := h1.later
      have := h2.later
      rcases List.mem_append.1 he with he | he
      · have := hxb e he
        omega
      · have := hyb e he
        omega
    · intro c a v h
      rcases List.mem_append.1 h with h | h
      · exact hxw c a v h
      · exact hyw c a v h
    · intro c v h
      rcases List.mem_append.1 h with h | h
      · exact hxi c v h
      · exact hyi c v h

end Emission

/-! ### The steps an emission is made of -/

theorem emission_wait (n : Nat) (s : State) : Emission s (wait n s) [] [] where
  frame := rfl
  later := by simp
  wf := id
  inside := fun _ _ h => h
  values := by simp
  events := ⟨[], by simp [memoryReads, portWrites, edgeWrites]⟩

theorem emission_loadShreg (b : Byte) (s : State) : Emission s (loadShreg b s) [] [] where
  frame := rfl
  later := Nat.le_refl _
  wf := id
  inside := fun _ _ h => h
  values := by simp
  events := ⟨[], by simp [memoryReads, portWrites, edgeWrites]⟩

theorem emission_shiftShreg (s : State) : Emission s (shiftShreg s) [] [] := emission_loadShreg _ s

theorem emission_record_r (a : Nat) (v : Byte) (s : State) :
    Emission s (record (.r s.cycle a v) s) [] [(s.cycle, a, v)] where
  frame := rfl
  later := Nat.le_refl _
  wf := id
  inside := fun _ _ h => h
  values := by simp
  events := ⟨[.r s.cycle a v], by simp [memoryReads, portWrites, edgeWrites, eventTime]⟩

theorem cellsInside_write {c : Config} {a : Nat} {v : Byte} {p : Ports} (ha : a < 2 ^ c.addrW)
    (h : cellsInside c p = true) : cellsInside c (Ports.write a v p) = true := by
  simp only [cellsInside, List.all_eq_true, decide_eq_true_eq] at h ⊢
  intro e he
  unfold Ports.write at he
  split at he
  · exact h e (Cells.mem_of_mem_remove he)
  · rcases Cells.mem_of_mem_put he with rfl | he
    · exact ha
    · exact h e he

theorem emission_symbol (nh nl : Nat) (s : State) :
    Emission s (symbol nh nl s) [(s.cycle, s.cycle + nh)] [] where
  frame := rfl
  later := by simp [symbol]; omega
  wf := fun h => by
    simp only [symbol, wait_ports, pinsLow_ports, pinsHigh_ports]
    exact Ports.wf_write (Ports.wf_write h)
  inside := fun c hc h => by
    simp only [symbol, wait_ports, pinsLow_ports, pinsHigh_ports, wait_ses, pinsHigh_ses]
    exact cellsInside_write hc (cellsInside_write hc h)
  values := by
    intro hs x
    simp only [symbol, wait_ports, pinsLow_ports, pinsHigh_ports, wait_ses, pinsHigh_ses]
    rw [Ports.read_write _ _ _ _ (Ports.wf_write hs.1), Ports.read_write _ _ _ _ hs.1,
      Ports.read_write _ _ _ _ hs.1]
    by_cases hx : x = s.ses.cPort
    · simp only [hx, if_true, ne_eq, List.cons_ne_self, not_false_eq_true, and_self, lowValue, hs.2]
      ext i hi
      simp
      cases (Ports.read s.ports s.ses.cPort)[i] <;> cases s.ses.cMaskHi[i] <;> rfl
    · simp [hx]
  events := by
    refine ⟨[.w s.cycle s.ses.cPort (highValue s),
      .w (s.cycle + nh) s.ses.cPort (Ports.read (Ports.write s.ses.cPort (highValue s) s.ports) s.ses.cPort
        &&& s.ses.cMaskLo)], ?_, rfl, rfl, ?_, ?_, ?_, ?_, ?_, ?_⟩
    · simp [symbol, highValue]
    · simp [portWrites]
    · intro hs
      simp only [portWrites, if_true, edgeWrites, List.flatMap_cons, List.flatMap_nil, List.append_nil]
      rw [Ports.read_write _ _ _ _ hs.1]
      simp only [if_true, highValue, lowValue, hs.2]
      congr 3
      ext i hi
      simp
      cases (Ports.read s.ports s.ses.cPort)[i] <;> cases s.ses.cMaskHi[i] <;> rfl
    · simp [eventTime]
    · intro e he
      simp only [List.mem_cons, List.not_mem_nil, or_false] at he
      rcases he with rfl | rfl <;> simp [eventTime, symbol] <;> omega
    · intro c a v h
      simp only [List.mem_cons, List.not_mem_nil, or_false, Event.w.injEq] at h
      rcases h with h | h <;> exact h.2.1
    · intro c v h
      simp at h

/-- A read that goes on is an emission of no symbol. -/
theorem emission_memRead {a : Nat} {s : State} {r : Byte × State} (h : memRead a s = .next r) :
    Emission s r.2 [] [(s.cycle, a, r.1)] := by
  obtain ⟨-, h⟩ := memRead_eq_next.1 h
  rw [h]
  exact emission_record_r a r.1 s

/-- The precondition of emission is not changed by emission. -/
theorem Emission.primitiveFault_eq {s t : State} {es : List (Nat × Nat)} {rs : List (Nat × Nat × Byte)}
    (h : Emission s t es rs) : primitiveFault t = primitiveFault s := by
  unfold primitiveFault
  rw [h.ses_eq, h.cfg_eq, h.ie_eq]

/-! ### Bits and bytes -/

/-- The state after the symbol that bit 7 of `SEQ.SHREG` selects. -/
def sentBit (s : State) : State :=
  shiftShreg (symbol (highCycles s.cfg (selectsOne s.seq.shreg)) (lowCycles s.cfg (selectsOne s.seq.shreg)) s)

/-- The state after `n` symbols. -/
def sentBits : Nat → State → State
  | 0, s => s
  | n + 1, s => sentBits n (sentBit s)

/-- The state after TXBYTE. -/
def sentByte (b : Byte) (s : State) : State :=
  wait s.cfg.gapByte (sentBits 8 (loadShreg b s))

theorem sendBit_eq (s : State) : sendBit s = unlessFault (primitiveFault s) (.next (sentBit s)) := by
  unfold sendBit sentBit execTxbit1 execTxbit0
  cases primitiveFault s <;> cases selectsOne s.seq.shreg <;> rfl

theorem emission_sentBit (s : State) :
    Emission s (sentBit s) [(s.cycle, s.cycle + highCycles s.cfg (selectsOne s.seq.shreg))] [] := by
  have h := (emission_symbol (highCycles s.cfg (selectsOne s.seq.shreg)) (lowCycles s.cfg (selectsOne s.seq.shreg))
    s).trans (emission_shiftShreg _)
  rwa [List.append_nil, List.append_nil] at h

@[simp] theorem sentBit_cfg (s : State) : (sentBit s).cfg = s.cfg := rfl
@[simp] theorem sentBit_cycle (s : State) :
    (sentBit s).cycle = s.cycle + symbolCycles s.cfg (selectsOne s.seq.shreg) := by
  simp [sentBit, symbol, symbolCycles, Nat.add_assoc]
@[simp] theorem sentBit_shreg (s : State) : (sentBit s).seq.shreg = s.seq.shreg <<< 1 := rfl

/-- The bits that `n` symbols carry, from the register `w`. -/
def firstBits : Nat → Byte → List Bool
  | 0, _ => []
  | n + 1, w => selectsOne w :: firstBits n (w <<< 1)

/-- The edges of symbols with no gap between them, from cycle `t`, and the cycle at which they end. -/
def rawEdges (c : Config) : Nat → List Bool → List (Nat × Nat)
  | _, [] => []
  | t, b :: rest => (t, t + highCycles c b) :: rawEdges c (t + symbolCycles c b) rest

def rawEnd (c : Config) : Nat → List Bool → Nat
  | t, [] => t
  | t, b :: rest => rawEnd c (t + symbolCycles c b) rest

theorem sendBits_eq (n : Nat) (s : State) :
    sendBits (n + 1) s = unlessFault (primitiveFault s) (.next (sentBits (n + 1) s)) := by
  induction n generalizing s with
  | zero =>
    rw [sendBits, sendBit_eq]
    cases primitiveFault s <;> rfl
  | succ n ih =>
    rw [sendBits, sendBit_eq]
    cases h : primitiveFault s with
    | some e => rfl
    | none =>
      rw [unlessFault_none, chain_next, ih, (emission_sentBit s).primitiveFault_eq, h]
      rfl

theorem emission_sentBits (n : Nat) (s : State) :
    Emission s (sentBits n s) (rawEdges s.cfg s.cycle (firstBits n s.seq.shreg)) [] := by
  induction n generalizing s with
  | zero => exact Emission.refl s
  | succ n ih => simpa [sentBits, firstBits, rawEdges] using (emission_sentBit s).trans (ih (sentBit s))

theorem sentBits_cycle (n : Nat) (s : State) :
    (sentBits n s).cycle = rawEnd s.cfg s.cycle (firstBits n s.seq.shreg) := by
  induction n generalizing s with
  | zero => rfl
  | succ n ih => simp [sentBits, firstBits, rawEnd, ih]

theorem sentBits_shreg (n : Nat) (s : State) : (sentBits n s).seq.shreg = s.seq.shreg <<< n := by
  induction n generalizing s with
  | zero => simp [sentBits]
  | succ n ih => rw [sentBits, ih, sentBit_shreg, ← BitVec.shiftLeft_add, Nat.add_comm]

/-- The eight symbols of a byte are its bits, bit 7 first. -/
theorem firstBits_eight (b : Byte) : firstBits 8 b = bitsOf b := by
  simp [firstBits, bitsOf, bitOf, selectsOne, List.range_succ]

theorem rawEdges_length (c : Config) (t : Nat) (bits : List Bool) : (rawEdges c t bits).length = bits.length := by
  induction bits generalizing t with
  | nil => rfl
  | cons b rest ih => simp [rawEdges, ih]

/-- TXBYTE, in closed form: the precondition is checked once, then the byte is sent. -/
theorem execTxbyte_eq (b : Byte) (s : State) :
    execTxbyte b s = unlessFault (primitiveFault s) (.next (sentByte b s)) := by
  rw [execTxbyte, sendBits_eq, (emission_loadShreg b s).primitiveFault_eq]
  cases primitiveFault s with
  | some e => rfl
  | none =>
    rw [unlessFault_none, chain_next, unlessFault_none, sentByte, (emission_sentBits _ _).cfg_eq]
    rfl

theorem emission_sentByte (b : Byte) (s : State) :
    Emission s (sentByte b s) (rawEdges s.cfg s.cycle (bitsOf b)) [] := by
  have h := (emission_sentBits 8 (loadShreg b s)).trans (emission_wait s.cfg.gapByte _)
  rw [show (loadShreg b s).seq.shreg = b from rfl, firstBits_eight] at h
  simpa [sentByte] using (emission_loadShreg b s).trans h

theorem sentByte_shreg (b : Byte) (s : State) : (sentByte b s).seq.shreg = 0x00 := by
  simp [sentByte, sentBits_shreg]

theorem rawEnd_eq (c : Config) (t : Nat) (bits : List Bool) :
    rawEnd c t bits =
      t + (bits.filter id).length * symbolCycles c true +
        (bits.length - (bits.filter id).length) * symbolCycles c false := by
  induction bits generalizing t with
  | nil => simp [rawEnd]
  | cons b rest ih =>
    have hle := List.length_filter_le id rest
    cases b
    · simp only [rawEnd, ih, List.length_cons]
      rw [List.filter_cons_of_neg (by simp), Nat.succ_sub hle, Nat.succ_mul]
      omega
    · simp only [rawEnd, ih, List.length_cons]
      rw [List.filter_cons_of_pos (by simp), List.length_cons, Nat.succ_mul, Nat.succ_sub_succ]
      omega

theorem ones_eq (b : Byte) : ((bitsOf b).filter id).length = ones b := by
  simp only [ones, bitsOf, ← List.countP_eq_length_filter, List.countP_map, List.range_succ, List.range_zero,
    List.nil_append, List.countP_append, List.countP_cons, List.countP_nil, Function.comp, id, bitOf]
  norm_num
  ring

theorem sentByte_cycle (b : Byte) (s : State) : (sentByte b s).cycle = s.cycle + byteCycles s.cfg b := by
  have h8 : (bitsOf b).length = 8 := by simp [bitsOf]
  simp only [sentByte, wait_cycle, sentBits_cycle, loadShreg_cycle, loadShreg_cfg]
  rw [show (loadShreg b s).seq.shreg = b from rfl, firstBits_eight, rawEnd_eq, ones_eq, h8, byteCycles]
  omega

/-! ### Records and sequences -/

/-- The state after a byte that was read and sent. -/
theorem sendPosition_eq_next {o : Order} {addr j : Nat} {s t : State} :
    sendPosition o addr j s = .next t ↔
      primitiveFault s = none ∧ ∃ r, memRead (pixelAddress o addr j) s = .next r ∧ t = sentByte r.1 r.2 := by
  unfold sendPosition
  rw [chain_eq_next]
  constructor
  · rintro ⟨r, hr, h⟩
    rw [execTxbyte_eq, (emission_memRead hr).primitiveFault_eq, unlessFault_eq_next] at h
    exact ⟨h.1, r, hr, by simpa using h.2.symm⟩
  · rintro ⟨hp, r, hr, rfl⟩
    exact ⟨r, hr, by rw [execTxbyte_eq, (emission_memRead hr).primitiveFault_eq, hp]; rfl⟩

/-- What a byte that was read and sent did. -/
theorem sendPosition_emission {o : Order} {addr j : Nat} {s t : State} (h : sendPosition o addr j s = .next t) :
    ∃ b, Memory.read s.mem (pixelAddress o addr j) = some b ∧
      Emission s t (rawEdges s.cfg s.cycle (bitsOf b)) [(s.cycle, pixelAddress o addr j, b)] ∧
      t.cycle = s.cycle + byteCycles s.cfg b ∧ t.seq.shreg = 0x00 := by
  obtain ⟨-, r, hr, rfl⟩ := sendPosition_eq_next.1 h
  have he := emission_memRead hr
  obtain ⟨hread, hs⟩ := memRead_eq_next.1 hr
  refine ⟨r.1, hread, ?_, ?_, sentByte_shreg _ _⟩
  · have := he.trans (emission_sentByte r.1 r.2)
    rw [hs] at this ⊢
    simpa using this
  · rw [sentByte_cycle, hs]
    rfl

/-- A record that was sent: its three bytes have values, and what it did. -/
theorem sendPixel_emission {o : Order} {addr : Nat} {s t : State} (h : sendPixel o addr s = .next t) :
    ∃ b0 b1 b2, bytesAt s.mem (recordAddresses o addr) = some [b0, b1, b2] ∧
      Emission s t
        (rawEdges s.cfg s.cycle (bitsOf b0) ++
          (rawEdges s.cfg (s.cycle + byteCycles s.cfg b0) (bitsOf b1) ++
            rawEdges s.cfg (s.cycle + byteCycles s.cfg b0 + byteCycles s.cfg b1) (bitsOf b2)))
        [(s.cycle, pixelAddress o addr 0, b0),
         (s.cycle + byteCycles s.cfg b0, pixelAddress o addr 1, b1),
         (s.cycle + byteCycles s.cfg b0 + byteCycles s.cfg b1, pixelAddress o addr 2, b2)] ∧
      t.cycle = s.cycle + recordCycles s.cfg b0 b1 b2 ∧ t.seq.shreg = 0x00 := by
  unfold sendPixel at h
  obtain ⟨s0, h0, h⟩ := chain_eq_next.1 h
  obtain ⟨s1, h1, h⟩ := chain_eq_next.1 h
  obtain ⟨s2, h2, h⟩ := chain_eq_next.1 h
  obtain ⟨b0, hm0, he0, hc0, -⟩ := sendPosition_emission h0
  obtain ⟨b1, hm1, he1, hc1, -⟩ := sendPosition_emission h1
  obtain ⟨b2, hm2, he2, hc2, hsh⟩ := sendPosition_emission h2
  cases h
  have hcfg1 : s1.cfg = s.cfg := by rw [he1.cfg_eq, he0.cfg_eq]
  rw [he0.mem_eq] at hm1
  rw [he1.mem_eq, he0.mem_eq] at hm2
  rw [he0.cfg_eq, hc0] at he1 hc1
  rw [hcfg1, hc1] at he2 hc2
  have he := (he0.trans (he1.trans (he2.trans (emission_wait s2.cfg.gapPixel s2))))
  refine ⟨b0, b1, b2, ?_, by simpa using he, ?_, hsh⟩
  · simp [bytesAt, recordAddresses, hm0, hm1, hm2]
  · rw [wait_cycle, hc2, he2.cfg_eq, hcfg1, recordCycles]
    omega

end Sys2Proof.Machine
end

