-- ==== Sys2Proof/Laws/Stream.lean ====
section
/-! SUPPORT. What a sequence of records does, against the edge schedule of Machine/Schedule.lean. -/

namespace Sys2Proof.Machine

/-! ### The schedule of a byte and of a record -/

theorem edgeTimes_append (c : Config) (n t : Nat) (x y : List Bool) :
    edgeTimes c n t (x ++ y) = edgeTimes c n t x ++ edgeTimes c (n + x.length) (endTime c n t x) y := by
  induction x generalizing n t with
  | nil => rfl
  | cons b rest ih =>
    simp only [List.cons_append, edgeTimes, endTime, ih, List.length_cons]
    rw [show n + (rest.length + 1) = n + 1 + rest.length by omega]

theorem endTime_append (c : Config) (n t : Nat) (x y : List Bool) :
    endTime c n t (x ++ y) = endTime c (n + x.length) (endTime c n t x) y := by
  induction x generalizing n t with
  | nil => rfl
  | cons b rest ih =>
    simp only [List.cons_append, endTime, ih, List.length_cons]
    rw [show n + (rest.length + 1) = n + 1 + rest.length by omega]

/-- Where no gap falls between them, the schedule of symbols is that of symbols with no gap. -/
theorem edgeTimes_eq_rawEdges (c : Config) (n t : Nat) (bits : List Bool)
    (h : ∀ k, k + 1 < bits.length → gapAt c (n + k) = 0) : edgeTimes c n t bits = rawEdges c t bits := by
  induction bits generalizing n t with
  | nil => rfl
  | cons b rest ih =>
    rw [edgeTimes, rawEdges]
    cases rest with
    | nil => rfl
    | cons b' rest' =>
      have h0 : gapAt c n = 0 := by simpa using h 0 (by simp)
      rw [ih (n + 1), h0, Nat.add_zero]
      intro k hk
      rw [show n + 1 + k = n + (k + 1) by omega]
      exact h (k + 1) (by simpa using hk)

theorem endTime_eq_rawEnd (c : Config) (n t : Nat) (bits : List Bool) (hne : bits ≠ [])
    (h : ∀ k, k + 1 < bits.length → gapAt c (n + k) = 0) :
    endTime c n t bits = rawEnd c t bits + gapAt c (n + (bits.length - 1)) := by
  induction bits generalizing n t with
  | nil => exact absurd rfl hne
  | cons b rest ih =>
    rw [endTime, rawEnd]
    cases rest with
    | nil => simp [endTime, rawEnd]
    | cons b' rest' =>
      have h0 : gapAt c n = 0 := by simpa using h 0 (by simp)
      rw [ih (n + 1) _ (by simp), h0]
      · simp only [List.length_cons, Nat.add_sub_cancel, Nat.add_zero]
        rw [show n + 1 + rest'.length = n + (rest'.length + 1) by omega]
      · intro k hk
        rw [show n + 1 + k = n + (k + 1) by omega]
        exact h (k + 1) (by simpa using hk)

theorem bitsOf_length (b : Byte) : (bitsOf b).length = 8 := by simp [bitsOf]

theorem gapAt_inside (c : Config) (n k : Nat) (hn : n % 8 = 0) (hk : k < 7) : gapAt c (n + k) = 0 := by
  unfold gapAt
  rw [if_neg (by omega), if_neg (by omega)]

/-- The schedule of a byte that starts at a byte boundary. -/
theorem edgeTimes_byte (c : Config) (n t : Nat) (b : Byte) (hn : n % 8 = 0) :
    edgeTimes c n t (bitsOf b) = rawEdges c t (bitsOf b) :=
  edgeTimes_eq_rawEdges c n t _ fun k hk => gapAt_inside c n k hn (by rw [bitsOf_length] at hk; omega)

theorem endTime_byte (c : Config) (n t : Nat) (b : Byte) (hn : n % 8 = 0) :
    endTime c n t (bitsOf b) = t + byteCycles c b + if n % 24 = 16 then c.gapPixel else 0 := by
  rw [endTime_eq_rawEnd c n t _ (by intro h; simpa [h] using bitsOf_length b)
    fun k hk => gapAt_inside c n k hn (by rw [bitsOf_length] at hk; omega)]
  rw [rawEnd_eq, ones_eq, bitsOf_length, byteCycles, gapAt, if_pos (by omega)]
  by_cases h : n % 24 = 16
  · rw [if_pos h, if_pos (by omega)]
    omega
  · rw [if_neg h, if_neg (by omega)]
    omega

theorem wireBits_cons (b : Byte) (rest : List Byte) : wireBits (b :: rest) = bitsOf b ++ wireBits rest := rfl

/-- The schedule of a record that starts at a record boundary, and of what follows it. -/
theorem edgeTimes_record (c : Config) (n t : Nat) (b0 b1 b2 : Byte) (rest : List Byte) (hn : n % 24 = 0) :
    edgeTimes c n t (wireBits (b0 :: b1 :: b2 :: rest)) =
      rawEdges c t (bitsOf b0) ++
        (rawEdges c (t + byteCycles c b0) (bitsOf b1) ++
          rawEdges c (t + byteCycles c b0 + byteCycles c b1) (bitsOf b2)) ++
        edgeTimes c (n + 24) (t + recordCycles c b0 b1 b2) (wireBits rest) := by
  rw [wireBits_cons, wireBits_cons, wireBits_cons, edgeTimes_append, edgeTimes_append, edgeTimes_append]
  rw [endTime_byte c n t b0 (by omega), if_neg (by omega), Nat.add_zero, bitsOf_length, bitsOf_length, bitsOf_length]
  rw [endTime_byte c (n + 8) _ b1 (by omega), if_neg (by omega), Nat.add_zero]
  rw [endTime_byte c (n + 8 + 8) _ b2 (by omega), if_pos (by omega)]
  rw [edgeTimes_byte c n t b0 (by omega), edgeTimes_byte c (n + 8) _ b1 (by omega),
    edgeTimes_byte c (n + 8 + 8) _ b2 (by omega)]
  simp only [List.append_assoc, recordCycles, Nat.add_assoc, Nat.add_zero, Nat.reduceAdd]

theorem endTime_record (c : Config) (n t : Nat) (b0 b1 b2 : Byte) (rest : List Byte) (hn : n % 24 = 0) :
    endTime c n t (wireBits (b0 :: b1 :: b2 :: rest)) =
      endTime c (n + 24) (t + recordCycles c b0 b1 b2) (wireBits rest) := by
  rw [wireBits_cons, wireBits_cons, wireBits_cons, endTime_append, endTime_append, endTime_append]
  rw [endTime_byte c n t b0 (by omega), if_neg (by omega), Nat.add_zero, bitsOf_length, bitsOf_length, bitsOf_length]
  rw [endTime_byte c (n + 8) _ b1 (by omega), if_neg (by omega), Nat.add_zero]
  rw [endTime_byte c (n + 8 + 8) _ b2 (by omega), if_pos (by omega)]
  simp only [recordCycles, Nat.add_assoc, Nat.zero_add]

/-! ### The bytes of a sequence -/

theorem bytesAt_append (m : Memory) (x y : List Nat) :
    bytesAt m (x ++ y) = (bytesAt m x).bind (fun vs => (bytesAt m y).map (fun ws => vs ++ ws)) := by
  induction x with
  | nil => cases h : bytesAt m y <;> simp [bytesAt, h]
  | cons a rest ih =>
    simp only [List.cons_append, bytesAt, ih]
    cases Memory.read m a <;> cases bytesAt m rest <;> cases bytesAt m y <;> rfl

/-! ### Sequences of records -/

/-- A sequence that was sent: its bytes have values, its edges are the schedule's, its reads are in wire order. -/
theorem sendPixels_emission {o : Order} {addr n q : Nat} {s t : State} (h : sendPixels o addr n s = .next t)
    (hq : q % 24 = 0) :
    ∃ bs rs, bytesAt s.mem (wireAddresses o addr n) = some bs ∧
      Emission s t (edgeTimes s.cfg q s.cycle (wireBits bs)) rs ∧
      rs.map (fun r => r.2.1) = wireAddresses o addr n ∧ rs.map (fun r => r.2.2) = bs ∧
      t.cycle = endTime s.cfg q s.cycle (wireBits bs) ∧ t.cycle = s.cycle + streamCycles s.cfg bs ∧
      bs.length = 3 * n ∧ t.seq.shreg = (if n = 0 then s.seq.shreg else 0x00) := by
  induction n generalizing addr q s with
  | zero =>
    simp only [sendPixels, Host.Outcome.next.injEq] at h
    subst h
    exact ⟨[], [], rfl, Emission.refl s, rfl, rfl, rfl, rfl, rfl, rfl⟩
  | succ n ih =>
    rw [sendPixels] at h
    obtain ⟨u, hu, h⟩ := chain_eq_next.1 h
    obtain ⟨b0, b1, b2, hb, he, hc, hsh⟩ := sendPixel_emission hu
    obtain ⟨bs, rs, hbs, hes, hra, hrv, hce, hcs, hlen, hsh'⟩ := ih (q := q + 24) h (by omega)
    rw [he.mem_eq] at hbs
    rw [he.cfg_eq, hc] at hes hce hcs
    refine ⟨b0 :: b1 :: b2 :: bs,
      (s.cycle, pixelAddress o addr 0, b0) ::
        (s.cycle + byteCycles s.cfg b0, pixelAddress o addr 1, b1) ::
        (s.cycle + byteCycles s.cfg b0 + byteCycles s.cfg b1, pixelAddress o addr 2, b2) :: rs,
      ?_, ?_, ?_, ?_, ?_, ?_, ?_, ?_⟩
    · rw [wireAddresses, bytesAt_append, hb, hbs]
      rfl
    · rw [edgeTimes_record _ _ _ _ _ _ _ hq]
      exact he.trans hes
    · simp [wireAddresses, recordAddresses, hra]
    · simp [hrv]
    · rw [endTime_record _ _ _ _ _ _ _ hq, hce]
    · rw [hcs, streamCycles]
      omega
    · simp only [List.length_cons, hlen]
      omega
    · rw [hsh', hsh]
      simp

/-- Past the check, nothing but a missing value stops a byte. -/
theorem sendPosition_eq (o : Order) (addr j : Nat) (s : State) (hp : primitiveFault s = none) :
    (∀ b, Memory.read s.mem (pixelAddress o addr j) = some b → ∃ t, sendPosition o addr j s = .next t) ∧
    (Memory.read s.mem (pixelAddress o addr j) = none → sendPosition o addr j s = .fault .pixelWithoutValue) := by
  constructor
  · intro b hb
    exact ⟨_, sendPosition_eq_next.2 ⟨hp, (b, record (.r s.cycle (pixelAddress o addr j) b) s), memRead_eq_next.2 ⟨hb, rfl⟩, rfl⟩⟩
  · intro hb
    rw [sendPosition, memRead_eq_fault.2 ⟨hb, rfl⟩]
    rfl

theorem orderAt_le_two {o : Order} (ho : permutes o = true) (j : Nat) : (orderAt o j).toNat ≤ 2 := by
  simp only [permutes, Bool.and_eq_true, bne_iff_ne, ne_eq] at ho
  have key : ∀ v : BitVec 2, v ≠ 3 → v.toNat ≤ 2 := by decide
  unfold orderAt
  split
  · exact key _ ho.1.1.1.1.1
  · exact key _ ho.1.1.1.1.2
  · exact key _ ho.1.1.1.2

/-- A record that may be sent is sent if its bytes have values, and else faults for want of one. -/
theorem sendPixel_eq {o : Order} (addr : Nat) (s : State) (hp : primitiveFault s = none) :
    (∀ bs, bytesAt s.mem (recordAddresses o addr) = some bs → ∃ t, sendPixel o addr s = .next t) ∧
    (bytesAt s.mem (recordAddresses o addr) = none → sendPixel o addr s = .fault .pixelWithoutValue) := by
  obtain ⟨y0, n0⟩ := sendPosition_eq o addr 0 s hp
  cases h0 : Memory.read s.mem (pixelAddress o addr 0) with
  | none =>
    refine ⟨fun bs hb => ?_, fun _ => ?_⟩
    · simp [bytesAt, recordAddresses, h0] at hb
    · rw [sendPixel, n0 h0]
      rfl
  | some b0 =>
    obtain ⟨s0, hs0⟩ := y0 b0 h0
    obtain ⟨_, -, he0, -, -⟩ := sendPosition_emission hs0
    obtain ⟨y1, n1⟩ := sendPosition_eq o addr 1 s0 (by rw [he0.primitiveFault_eq, hp])
    rw [he0.mem_eq] at y1 n1
    cases h1 : Memory.read s.mem (pixelAddress o addr 1) with
    | none =>
      refine ⟨fun bs hb => ?_, fun _ => ?_⟩
      · simp [bytesAt, recordAddresses, h0, h1] at hb
      · rw [sendPixel, hs0, chain_next, n1 h1]
        rfl
    | some b1 =>
      obtain ⟨s1, hs1⟩ := y1 b1 h1
      obtain ⟨_, -, he1, -, -⟩ := sendPosition_emission hs1
      obtain ⟨y2, n2⟩ := sendPosition_eq o addr 2 s1 (by rw [he1.primitiveFault_eq, he0.primitiveFault_eq, hp])
      rw [he1.mem_eq, he0.mem_eq] at y2 n2
      cases h2 : Memory.read s.mem (pixelAddress o addr 2) with
      | none =>
        refine ⟨fun bs hb => ?_, fun _ => ?_⟩
        · simp [bytesAt, recordAddresses, h0, h1, h2] at hb
        · rw [sendPixel, hs0, chain_next, hs1, chain_next, n2 h2]
          rfl
      | some b2 =>
        obtain ⟨s2, hs2⟩ := y2 b2 h2
        refine ⟨fun _ _ => ⟨wait s2.cfg.gapPixel s2, ?_⟩, fun hb => ?_⟩
        · rw [sendPixel, hs0, chain_next, hs1, chain_next, hs2, chain_next]
        · simp [bytesAt, recordAddresses, h0, h1, h2] at hb

/-- A sequence that may be sent is sent if its bytes have values, and else faults for want of one. -/
theorem sendPixels_eq {o : Order} (addr n : Nat) (s : State) (hp : primitiveFault s = none) :
    (∀ bs, bytesAt s.mem (wireAddresses o addr n) = some bs → ∃ t, sendPixels o addr n s = .next t) ∧
    (bytesAt s.mem (wireAddresses o addr n) = none → sendPixels o addr n s = .fault .pixelWithoutValue) := by
  induction n generalizing addr s with
  | zero => exact ⟨fun _ _ => ⟨s, rfl⟩, fun h => by simp [wireAddresses, bytesAt] at h⟩
  | succ n ih =>
    obtain ⟨y, f⟩ := sendPixel_eq (o := o) addr s hp
    rw [wireAddresses, bytesAt_append]
    cases hb : bytesAt s.mem (recordAddresses o addr) with
    | none =>
      refine ⟨fun bs h => by simp at h, fun _ => ?_⟩
      rw [sendPixels, f hb]
      rfl
    | some vs =>
      obtain ⟨u, hu⟩ := y vs hb
      obtain ⟨_, _, _, -, he, -, -⟩ := sendPixel_emission hu
      obtain ⟨y', f'⟩ := ih (addr + 3) u (by rw [he.primitiveFault_eq, hp])
      rw [he.mem_eq] at y' f'
      cases hb' : bytesAt s.mem (wireAddresses o (addr + 3) n) with
      | none =>
        refine ⟨fun bs h => by simp at h, fun _ => ?_⟩
        rw [sendPixels, hu, chain_next, f' hb']
      | some ws =>
        obtain ⟨t, ht⟩ := y' ws hb'
        exact ⟨fun _ _ => ⟨t, by rw [sendPixels, hu, chain_next, ht]⟩, fun h => by simp at h⟩

/-- A sequence cut in two. -/
theorem sendPixels_add (o : Order) (addr n m : Nat) (s : State) :
    sendPixels o addr (n + m) s = chain (sendPixels o addr n s) (sendPixels o (addr + 3 * n) m) := by
  induction n generalizing addr s with
  | zero => simp [sendPixels]
  | succ n ih =>
    rw [show n + 1 + m = n + m + 1 by omega, sendPixels, sendPixels, chain_assoc]
    congr 1
    funext u
    rw [ih, show addr + 3 + 3 * n = addr + 3 * (n + 1) by omega]

end Sys2Proof.Machine
end

