-- ==== Sys2Proof/Laws/Exec.lean ====
section
/-! SUPPORT. Everything an operation can do, said once: the inversion of `exec`. -/

namespace Sys2Proof.Machine

/-- What an operation that completes has done. -/
inductive Done (i : Instr) (s : State) : State → Prop where
  /-- Nothing: PREPARE while Prepared, CLOSE while Closed. -/
  | nothing (h : (∃ d, i = .prepare d ∧ s.ses.isOpen = true) ∨ (∃ d, i = .close d ∧ s.ses.isOpen = false)) :
    Done i s s
  /-- PREPARE while Closed. -/
  | opened (d : Handle) (hi : i = .prepare d) (hd : wfDev d = true) (ho : s.ses.isOpen = false) :
    Done i s (openSession d s)
  /-- CLOSE while Prepared. -/
  | closed (d : Handle) (hi : i = .close d) (ho : s.ses.isOpen = true) :
    Done i s (delay d.resetUs (closeSession s))
  /-- WAIT_RESET and DELAY_US. -/
  | waited (n : Nat) (hi : (∃ d, i = .waitReset d ∧ n = d.resetUs) ∨ i = .delayUs n) : Done i s (delay n s)
  /-- TRANSMIT and the micro-operations that emit. -/
  | emitted (es : List (Nat × Nat)) (rs : List (Nat × Nat × Byte)) (t : State) (he : Emission s t es rs)
    (hp : es = [] ∨ primitiveFault s = none)
    (hi : i = .txbit0 ∨ i = .txbit1 ∨ (∃ b, i = .txbyte b) ∨ (∃ d a, i = .txpixel d a) ∨ ∃ d b n, i = .transmit d b n) :
    Done i s t
  /-- COLORTAB. -/
  | answered (o : Order) (hi : i = .colortabRgb ∨ i = .colortabRbg ∨ i = .colortabGrb ∨ i = .colortabGbr ∨
      i = .colortabBrg ∨ i = .colortabBgr) (ho : permutes o = true) :
    Done i s (answerTable o s)

/-- Nothing is sent but past the primitives' check. -/
theorem sendPixel_checked {o : Order} {addr : Nat} {s t : State} (h : sendPixel o addr s = .next t) :
    primitiveFault s = none := by
  unfold sendPixel at h
  obtain ⟨s0, h0, -⟩ := chain_eq_next.1 h
  exact (sendPosition_eq_next.1 h0).1

theorem sendPixels_checked {o : Order} {addr n : Nat} {s t : State} (h : sendPixels o addr n s = .next t) :
    n = 0 ∨ primitiveFault s = none := by
  cases n with
  | zero => exact .inl rfl
  | succ n =>
    rw [sendPixels] at h
    obtain ⟨u, hu, -⟩ := chain_eq_next.1 h
    exact .inr (sendPixel_checked hu)

theorem exec_done {i : Instr} {s t : State} (h : exec i s = .next t) : Done i s t := by
  cases i with
  | prepare d =>
    obtain ⟨hd, h⟩ := admitHandle_eq_next.1 h
    simp only [Host.Outcome.next.injEq] at h
    subst h
    by_cases ho : s.ses.isOpen
    · rw [if_pos ho]
      exact .nothing (.inl ⟨d, rfl, ho⟩)
    · rw [if_neg ho]
      exact .opened d rfl hd (by simpa using ho)
  | transmit d b n =>
    obtain ⟨-, h⟩ := admitHandle_eq_next.1 h
    obtain ⟨-, h⟩ := admitRange_eq_next.1 h
    obtain ⟨-, h⟩ := unlessFault_eq_next.1 h
    obtain ⟨bs, rs, -, he, -, -, -, -, hl, -⟩ := sendPixels_emission (q := 0) h rfl
    refine .emitted _ rs t he ?_ (.inr (.inr (.inr (.inr ⟨d, b, n, rfl⟩))))
    rcases sendPixels_checked h with hn | hp
    · subst hn
      left
      rw [show bs = [] from List.eq_nil_of_length_eq_zero (by simpa using hl)]
      rfl
    · exact .inr hp
  | waitReset d =>
    obtain ⟨-, h⟩ := admitHandle_eq_next.1 h
    simp only [Host.Outcome.next.injEq] at h
    subst h
    exact .waited _ (.inl ⟨d, rfl, rfl⟩)
  | close d =>
    obtain ⟨-, h⟩ := admitHandle_eq_next.1 h
    simp only [Host.Outcome.next.injEq] at h
    subst h
    by_cases ho : s.ses.isOpen
    · rw [if_pos ho]
      exact .closed d rfl ho
    · rw [if_neg ho]
      exact .nothing (.inr ⟨d, rfl, by simpa using ho⟩)
  | txbit0 =>
    obtain ⟨hp, h⟩ := unlessFault_eq_next.1 h
    simp only [Host.Outcome.next.injEq] at h
    subst h
    exact .emitted _ _ _ (emission_symbol _ _ s) (.inr hp) (.inl rfl)
  | txbit1 =>
    obtain ⟨hp, h⟩ := unlessFault_eq_next.1 h
    simp only [Host.Outcome.next.injEq] at h
    subst h
    exact .emitted _ _ _ (emission_symbol _ _ s) (.inr hp) (.inr (.inl rfl))
  | txbyte b =>
    have h : execTxbyte b s = .next t := h
    rw [execTxbyte_eq] at h
    obtain ⟨hp, h⟩ := unlessFault_eq_next.1 h
    simp only [Host.Outcome.next.injEq] at h
    subst h
    exact .emitted _ _ _ (emission_sentByte b s) (.inr hp) (.inr (.inr (.inl ⟨b, rfl⟩)))
  | txpixel d a =>
    obtain ⟨-, h⟩ := admitHandle_eq_next.1 h
    obtain ⟨-, h⟩ := admitRange_eq_next.1 h
    obtain ⟨_, _, _, -, he, -, -⟩ := sendPixel_emission h
    exact .emitted _ _ _ he (.inr (sendPixel_checked h)) (.inr (.inr (.inr (.inl ⟨d, a, rfl⟩))))
  | delayUs n =>
    simp only [exec, execDelayUs, Host.Outcome.next.injEq] at h
    subst h
    exact .waited n (.inr rfl)
  | colortabRgb =>
    simp only [exec, execColortabRgb, Host.Outcome.next.injEq] at h
    subst h
    exact .answered _ (by simp) (by decide)
  | colortabRbg =>
    simp only [exec, execColortabRbg, Host.Outcome.next.injEq] at h
    subst h
    exact .answered _ (by simp) (by decide)
  | colortabGrb =>
    simp only [exec, execColortabGrb, Host.Outcome.next.injEq] at h
    subst h
    exact .answered _ (by simp) (by decide)
  | colortabGbr =>
    simp only [exec, execColortabGbr, Host.Outcome.next.injEq] at h
    subst h
    exact .answered _ (by simp) (by decide)
  | colortabBrg =>
    simp only [exec, execColortabBrg, Host.Outcome.next.injEq] at h
    subst h
    exact .answered _ (by simp) (by decide)
  | colortabBgr =>
    simp only [exec, execColortabBgr, Host.Outcome.next.injEq] at h
    subst h
    exact .answered _ (by simp) (by decide)

end Sys2Proof.Machine
end

