-- ==== Sys2Proof/Laws/Faults.lean ====
section
/-! SUPPORT. Which faults an operation, or a clock cycle of the sequencer, can end in. -/

namespace Sys2Proof.Machine

theorem unlessFault_eq_fault {o : Option Fault} {go : Result State} {f : Fault} (h : unlessFault o go = .fault f) :
    o = some f ∨ go = .fault f := by
  unfold unlessFault at h
  split at h
  · cases h
    exact .inl rfl
  · exact .inr h

theorem sendPosition_fault {o : Order} {addr j : Nat} {s : State} {f : Fault} (h : sendPosition o addr j s = .fault f) :
    f = .pixelWithoutValue ∨ primitiveFault s = some f := by
  rcases chain_eq_fault.1 h with h | ⟨r, h1, h⟩
  · exact .inl (memRead_eq_fault.1 h).2
  · rw [execTxbyte_eq, (emission_memRead h1).primitiveFault_eq] at h
    rcases unlessFault_eq_fault h with h | h
    · exact .inr h
    · cases h

theorem sendPixel_fault {o : Order} {addr : Nat} {s : State} {f : Fault} (h : sendPixel o addr s = .fault f) :
    f = .pixelWithoutValue ∨ primitiveFault s = some f := by
  unfold sendPixel at h
  rcases chain_eq_fault.1 h with h | ⟨s0, h0, h⟩
  · exact sendPosition_fault h
  obtain ⟨_, -, e0, -⟩ := sendPosition_emission h0
  rcases chain_eq_fault.1 h with h | ⟨s1, h1, h⟩
  · have := sendPosition_fault h
    rwa [e0.primitiveFault_eq] at this
  obtain ⟨_, -, e1, -⟩ := sendPosition_emission h1
  rcases chain_eq_fault.1 h with h | ⟨s2, h2, h⟩
  · have := sendPosition_fault h
    rwa [e1.primitiveFault_eq, e0.primitiveFault_eq] at this
  cases h

theorem sendPixels_fault {o : Order} {addr n : Nat} {s : State} {f : Fault} (h : sendPixels o addr n s = .fault f) :
    f = .pixelWithoutValue ∨ primitiveFault s = some f := by
  induction n generalizing addr s with
  | zero => cases h
  | succ n ih =>
    rcases chain_eq_fault.1 h with h | ⟨s0, h0, h⟩
    · exact sendPixel_fault h
    obtain ⟨_, _, _, -, e0, -⟩ := sendPixel_emission h0
    have := ih h
    rwa [e0.primitiveFault_eq] at this

/-- What an operation may fault with. -/
theorem exec_fault {i : Instr} {s : State} {f : Fault} (h : exec i s = .fault f) :
    f = .pixelWithoutValue ∨ (primitiveFault s = some f ∧ ∀ d, i ≠ .prepare d) ∨
      (transmitFault s = some f ∧ ∃ d b n, i = .transmit d b n) := by
  cases i with
  | prepare d =>
    have := admitHandle_eq_fault.1 h
    simp at this
  | transmit d b n =>
    obtain ⟨-, h⟩ := admitHandle_eq_fault.1 h
    obtain ⟨-, h⟩ := admitRange_eq_fault.1 h
    rcases unlessFault_eq_fault h with h | h
    · exact .inr (.inr ⟨h, _, _, _, rfl⟩)
    · rcases sendPixels_fault h with h | h <;> simp [h]
  | waitReset d =>
    have := admitHandle_eq_fault.1 h
    simp at this
  | close d =>
    have := admitHandle_eq_fault.1 h
    simp at this
  | txbit0 =>
    rcases unlessFault_eq_fault h with h | h
    · simp [h]
    · cases h
  | txbit1 =>
    rcases unlessFault_eq_fault h with h | h
    · simp [h]
    · cases h
  | txbyte b =>
    change execTxbyte b s = _ at h
    rw [execTxbyte_eq] at h
    rcases unlessFault_eq_fault h with h | h
    · simp [h]
    · cases h
  | txpixel d a =>
    obtain ⟨-, h⟩ := admitHandle_eq_fault.1 h
    obtain ⟨-, h⟩ := admitRange_eq_fault.1 h
    rcases sendPixel_fault h with h | h <;> simp [h]
  | delayUs n => cases h
  | colortabRgb => cases h
  | colortabRbg => cases h
  | colortabGrb => cases h
  | colortabGbr => cases h
  | colortabBrg => cases h
  | colortabBgr => cases h

/-! ### The sequencer -/

theorem riseAt_fault {p : TxPos} {s : State} {f : Fault} (h : riseAt p s = .fault f) : primitiveFault s = some f := by
  rcases unlessFault_eq_fault h with h | h
  · exact h
  · cases h

theorem enterByte_fault {p : TxPos} {s : State} {f : Fault} (h : enterByte p s = .fault f) :
    f = .pixelWithoutValue ∨ primitiveFault s = some f := by
  rcases chain_eq_fault.1 h with h | ⟨r, h1, h⟩
  · exact .inl (memRead_eq_fault.1 h).2
  · have := riseAt_fault h
    obtain ⟨-, h5⟩ := memRead_eq_next.1 h1
    rw [h5] at this
    exact .inr this

theorem advance_fault {p : TxPos} {s : State} {f : Fault} (h : advance p s = .fault f) :
    f = .pixelWithoutValue ∨ primitiveFault s = some f := by
  unfold advance at h
  dsimp only at h
  split at h
  · exact .inr (riseAt_fault (s := shiftShreg s) h)
  split at h
  · exact enterByte_fault (s := shiftShreg s) h
  split at h
  · exact enterByte_fault (s := shiftShreg s) h
  · cases h

/-- What a clock cycle may fault with, and only while `op = TX`. -/
theorem tick_fault {s : State} {f : Fault} (h : tick s = .fault f) :
    (∃ p, s.seq.pos = .tx p) ∧
      (f = .pixelWithoutValue ∨ primitiveFault s = some f) := by
  unfold tick at h
  split at h
  · cases h
  · refine ⟨⟨_, ‹_›⟩, ?_⟩
    unfold tickTx at h
    dsimp only at h
    split at h
    · cases h
    split at h
    · cases h
    · split at h
      · cases h
      · exact advance_fault (s := wait 1 s) h
    · exact advance_fault (s := wait 1 s) h
  · cases h

/-- What the start of a command, to be stepped, may fault with. -/
theorem startCommand_fault {i : Instr} {s : State} {f : Fault} (h : startCommand i s = .fault f) :
    f = .pixelWithoutValue ∨ (primitiveFault s = some f ∧ ∀ d, i ≠ .prepare d) ∨
      (transmitFault s = some f ∧ ∃ d b n, i = .transmit d b n) := by
  have gen : exec i s = .fault f → _ := fun h => exec_fault h
  cases i <;> try exact gen h
  · obtain ⟨-, h⟩ := admitHandle_eq_fault.1 h
    obtain ⟨-, h⟩ := admitRange_eq_fault.1 h
    rcases unlessFault_eq_fault h with h | h
    · exact .inr (.inr ⟨h, _, _, _, rfl⟩)
    · split at h
      · cases h
      · rcases enterByte_fault h with h | h <;> simp [h]
  · have := admitHandle_eq_fault.1 h
    simp at this
  · have := admitHandle_eq_fault.1 h
    simp at this

/-! ### Emission is never refused: refusals come before it (R267) -/

theorem unlessFault_ne_refused {f : Option Fault} {s : State} {e : Refusal} : unlessFault f (.next s) ≠ .refused e := by
  cases f <;> simp [unlessFault]

theorem sendBits_ne_refused {n : Nat} {s : State} {e : Refusal} : sendBits n s ≠ .refused e := by
  induction n generalizing s with
  | zero => simp [sendBits]
  | succ n ih =>
    intro h
    rcases chain_eq_refused.1 h with h | ⟨t, -, h⟩
    · rcases chain_eq_refused.1 h with h | ⟨u, -, h⟩
      · split at h <;> exact unlessFault_ne_refused h
      · cases h
    · exact ih h

theorem sendPosition_ne_refused {o : Order} {addr j : Nat} {s : State} {e : Refusal} :
    sendPosition o addr j s ≠ .refused e := by
  intro h
  rcases chain_eq_refused.1 h with h | ⟨r, -, h⟩
  · exact memRead_ne_refused h
  · rcases chain_eq_refused.1 h with h | ⟨t, -, h⟩
    · exact sendBits_ne_refused h
    · cases h

theorem sendPixels_ne_refused {o : Order} {addr n : Nat} {s : State} {e : Refusal} : sendPixels o addr n s ≠ .refused e := by
  induction n generalizing addr s with
  | zero => simp [sendPixels]
  | succ n ih =>
    intro h
    rcases chain_eq_refused.1 h with h | ⟨t, -, h⟩
    · rcases chain_eq_refused.1 h with h | ⟨s0, -, h⟩
      · exact sendPosition_ne_refused h
      rcases chain_eq_refused.1 h with h | ⟨s1, -, h⟩
      · exact sendPosition_ne_refused h
      rcases chain_eq_refused.1 h with h | ⟨s2, -, h⟩
      · exact sendPosition_ne_refused h
      · cases h
    · exact ih h

end Sys2Proof.Machine
end

