-- ==== Sys2Proof/Laws/Grows.lean ====
section
/-! SUPPORT. What every shared operation keeps: the configuration, the memory and the operand registers as they are, the
ports in their canonical form and inside their space, the trace in order. -/

namespace Sys2Proof.Machine

/-- `t` comes after `s` in a run of the core, with no act of the host between. -/
structure Grows (s t : State) : Prop where
  later : s.cycle ≤ t.cycle
  cfg_eq : t.cfg = s.cfg
  mem_eq : t.mem = s.mem
  ops_eq : t.ops = s.ops
  wf : Ports.wf s.ports = true → Ports.wf t.ports = true
  inside : s.ses.cPort < 2 ^ s.cfg.addrW → cellsInside s.cfg s.ports = true → cellsInside s.cfg t.ports = true
  events : ∃ es, t.trace = s.trace ++ es ∧ (es.map eventTime).Pairwise (· ≤ ·) ∧
    ∀ e ∈ es, s.cycle ≤ eventTime e ∧ eventTime e ≤ t.cycle

namespace Grows

variable {s t u : State}

/-- No port is written and no event recorded. -/
theorem quiet (hl : s.cycle ≤ t.cycle) (hc : t.cfg = s.cfg) (hm : t.mem = s.mem) (ho : t.ops = s.ops)
    (hp : t.ports = s.ports) (ht : t.trace = s.trace) : Grows s t where
  later := hl
  cfg_eq := hc
  mem_eq := hm
  ops_eq := ho
  wf := by rw [hp]; exact id
  inside := by rw [hp]; exact fun _ h => h
  events := ⟨[], by simp [ht]⟩

theorem refl (s : State) : Grows s s := quiet (Nat.le_refl _) rfl rfl rfl rfl rfl

theorem trans (h1 : Grows s t) (h2 : Grows t u) (hport : t.ses.cPort = s.ses.cPort) : Grows s u where
  later := Nat.le_trans h1.later h2.later
  cfg_eq := h2.cfg_eq.trans h1.cfg_eq
  mem_eq := h2.mem_eq.trans h1.mem_eq
  ops_eq := h2.ops_eq.trans h1.ops_eq
  wf := fun h => h2.wf (h1.wf h)
  inside := fun hp h => by
    have := h2.inside (by rw [h1.cfg_eq, hport]; exact hp) (by rw [h1.cfg_eq]; exact h1.inside hp h)
    rwa [h1.cfg_eq] at this
  events := by
    obtain ⟨e1, t1, p1, r1⟩ := h1.events
    obtain ⟨e2, t2, p2, r2⟩ := h2.events
    refine ⟨e1 ++ e2, by rw [t2, t1, List.append_assoc], ?_, ?_⟩
    · rw [List.map_append, List.pairwise_append]
      refine ⟨p1, p2, fun x hx y hy => ?_⟩
      obtain ⟨a, ha, rfl⟩ := List.mem_map.1 hx
      obtain ⟨b, hb, rfl⟩ := List.mem_map.1 hy
      exact Nat.le_trans (r1 a ha).2 (r2 b hb).1
    · intro e he
      rcases List.mem_append.1 he with he | he
      · exact ⟨(r1 e he).1, Nat.le_trans (r1 e he).2 h2.later⟩
      · exact ⟨Nat.le_trans h1.later (r2 e he).1, (r2 e he).2⟩

/-- The order of the trace is kept. -/
theorem traceOrdered (h : Grows s t) (hs : traceOrdered s) : traceOrdered t := by
  obtain ⟨es, ht, hp, hr⟩ := h.events
  constructor
  · rw [ht, List.map_append, List.pairwise_append]
    refine ⟨hs.1, hp, fun x hx y hy => ?_⟩
    obtain ⟨a, ha, rfl⟩ := List.mem_map.1 hx
    obtain ⟨b, hb, rfl⟩ := List.mem_map.1 hy
    exact Nat.le_trans (hs.2 a ha) (hr b hb).1
  · rw [ht]
    intro e he
    rcases List.mem_append.1 he with he | he
    · exact Nat.le_trans (hs.2 e he) h.later
    · exact (hr e he).2

end Grows

theorem Emission.grows {s t : State} {es : List (Nat × Nat)} {rs : List (Nat × Nat × Byte)}
    (h : Emission s t es rs) : Grows s t where
  later := h.later
  cfg_eq := h.cfg_eq
  mem_eq := h.mem_eq
  ops_eq := by rw [h.frame]
  wf := h.wf
  inside := h.inside s.cfg
  events := by
    obtain ⟨es, h1, -, -, -, -, h2, h3, -⟩ := h.events
    exact ⟨es, h1, h2, h3⟩

/-! ### One lemma for each shared operation -/

theorem grows_wait (n : Nat) (s : State) : Grows s (wait n s) :=
  Grows.quiet (Nat.le_add_right _ _) rfl rfl rfl rfl rfl

theorem grows_drawWait (s : State) : Grows s (drawWait s) :=
  Grows.quiet (Nat.le_add_right _ _) rfl rfl rfl rfl rfl

theorem grows_record (e : Event) (s : State) (he : eventTime e = s.cycle) : Grows s (record e s) where
  later := Nat.le_refl _
  cfg_eq := rfl
  mem_eq := rfl
  ops_eq := rfl
  wf := id
  inside := fun _ h => h
  events := ⟨[e], rfl, by simp, by simp [he, record]⟩

theorem grows_writeIe (v : Bool) (s : State) : Grows s (writeIe v s) :=
  (Grows.quiet (s := s) (t := { s with ie := v }) (Nat.le_refl _) rfl rfl rfl rfl rfl).trans
    (grows_record (.i s.cycle v) { s with ie := v } rfl) rfl

theorem grows_ioWrite (v : Byte) (s : State) : Grows s (ioWrite s.ses.cPort v s) where
  later := Nat.le_refl _
  cfg_eq := rfl
  mem_eq := rfl
  ops_eq := rfl
  wf := Ports.wf_write
  inside := fun hp h => cellsInside_write hp h
  events := ⟨[.w s.cycle s.ses.cPort v], rfl, by simp, by simp [eventTime, ioWrite, record]⟩

theorem grows_pinsHigh (s : State) : Grows s (pinsHigh s) := grows_ioWrite _ s
theorem grows_pinsLow (s : State) : Grows s (pinsLow s) := grows_ioWrite _ s

theorem grows_setPos (p : SeqPos) (s : State) : Grows s (setPos p s) :=
  Grows.quiet (Nat.le_refl _) rfl rfl rfl rfl rfl

theorem grows_loadDly (n : Nat) (s : State) : Grows s (loadDly n s) :=
  Grows.quiet (Nat.le_refl _) rfl rfl rfl rfl rfl

theorem grows_loadShreg (b : Byte) (s : State) : Grows s (loadShreg b s) :=
  Grows.quiet (Nat.le_refl _) rfl rfl rfl rfl rfl

theorem grows_irqEnter (s : State) : Grows s (irqEnter s) := by
  rw [irqEnter_eq]
  split
  · exact Grows.refl s
  · exact grows_writeIe _ s

theorem grows_irqLeave (saved : Bool) (s : State) : Grows s (irqLeave saved s) := by
  rw [irqLeave_eq]
  split
  · exact Grows.refl s
  · split <;> exact grows_writeIe _ s

theorem grows_openSession (d : Handle) (s : State) : Grows s (openSession d s) where
  later := Nat.le_refl _
  cfg_eq := rfl
  mem_eq := rfl
  ops_eq := rfl
  wf := id
  inside := fun _ h => h
  events := ⟨[.i s.cycle false], rfl, by simp, by simp [eventTime, openSession, writeIe, record]⟩

theorem grows_closeSession (s : State) : Grows s (closeSession s) where
  later := Nat.le_refl _
  cfg_eq := rfl
  mem_eq := rfl
  ops_eq := rfl
  wf := id
  inside := fun _ h => h
  events := ⟨[.i s.cycle s.ses.savedIe], rfl, by simp, by simp [eventTime, closeSession, writeIe, record]⟩

theorem grows_delay (n : Nat) (s : State) : Grows s (delay n s) := by
  obtain ⟨x, y, es, h, he⟩ := delay_frame n s
  rw [h]
  refine ⟨by simp only; omega, rfl, rfl, rfl, id, fun _ h => h, es, rfl, ?_⟩
  rcases he with rfl | ⟨v, rfl⟩
  · simp
  · simp only [List.map_cons, List.map_nil, eventTime, List.pairwise_cons, List.mem_cons, List.not_mem_nil]
    refine ⟨⟨?_, ?_⟩, ?_⟩
    · simp only [or_false]
      rintro a rfl
      omega
    · simp
    · rintro e (rfl | rfl | h)
      · exact ⟨Nat.le_refl _, by simp only; omega⟩
      · exact ⟨by simp only; omega, Nat.le_refl _⟩
      · exact absurd h id

/-- Every operation. -/
theorem grows_exec {i : Instr} {s t : State} (h : exec i s = .next t) : Grows s t := by
  cases exec_done h with
  | nothing h => exact Grows.refl s
  | opened d => exact grows_openSession d s
  | closed d => exact (grows_closeSession s).trans (grows_delay _ _) rfl
  | waited n => exact grows_delay n s
  | emitted es rs t he => exact he.grows
  | answered o => exact Grows.quiet (Nat.le_refl _) rfl rfl rfl rfl rfl

end Sys2Proof.Machine
end

