-- ==== Sys2Proof/Laws/PerInstr.lean ====
section
/-! SUPPORT. One statement for every instruction, as syntax: the encoder puts it in its row of spec/opcode_table.json, in
the row's format, with the row's fixed bits, and with no bit above the width of the row's field. -/

namespace Sys2Proof.Laws

/-- A row of spec/opcode_table.json: its format, and the mask and match of its byte. -/
structure Row where
  format : Format
  mask   : Byte
  fixed  : Byte
deriving DecidableEq, Repr

/-- The row of each instruction, written out from the table. -/
def rowOf (i : Instr) : Row :=
  match i with
  | .prepare _ => ⟨.cmd, 0xFF, 0x00⟩
  | .transmit _ _ _ => ⟨.cmd, 0xFF, 0x01⟩
  | .waitReset _ => ⟨.cmd, 0xFF, 0x02⟩
  | .close _ => ⟨.cmd, 0xFF, 0x03⟩
  | .txbit0 => ⟨.bitsel, 0x80, 0x00⟩
  | .txbit1 => ⟨.bitsel, 0x80, 0x80⟩
  | .txbyte _ => ⟨.uop, 0x0F, 0x06⟩
  | .txpixel _ _ => ⟨.uop, 0x0F, 0x07⟩
  | .delayUs _ => ⟨.uop, 0x0F, 0x08⟩
  | .colortabRgb => ⟨.cosel, 0x07, 0x00⟩
  | .colortabRbg => ⟨.cosel, 0x07, 0x01⟩
  | .colortabGrb => ⟨.cosel, 0x07, 0x02⟩
  | .colortabGbr => ⟨.cosel, 0x07, 0x03⟩
  | .colortabBrg => ⟨.cosel, 0x07, 0x04⟩
  | .colortabBgr => ⟨.cosel, 0x07, 0x05⟩

/-- The bits of a format's byte that the format has no field for (Tables E1 to E3): they are zero in an encoding. -/
def unusedBits (f : Format) : Byte :=
  match f with
  | .cmd => 0xF0
  | .uop => 0xF0
  | .bitsel => 0x00
  | .cosel => 0xF8

/-- The encoding of `i` stands in its row. -/
def EncodedInRow.Statement (i : Instr) : Prop :=
  ∀ c : Config, (encode c i).format = (rowOf i).format ∧ (encode c i).word &&& (rowOf i).mask = (rowOf i).fixed ∧
    (encode c i).word &&& unusedBits (encode c i).format = 0

theorem EncodedInRow.prepare (dev : Handle) : EncodedInRow.Statement (.prepare dev) :=
  fun _ => ⟨rfl, by simp [encode, rowOf], by simp [encode, unusedBits]⟩
theorem EncodedInRow.transmit (dev : Handle) (base count : Nat) : EncodedInRow.Statement (.transmit dev base count) :=
  fun _ => ⟨rfl, by simp [encode, rowOf], by simp [encode, unusedBits]⟩
theorem EncodedInRow.waitReset (dev : Handle) : EncodedInRow.Statement (.waitReset dev) :=
  fun _ => ⟨rfl, by simp [encode, rowOf], by simp [encode, unusedBits]⟩
theorem EncodedInRow.close (dev : Handle) : EncodedInRow.Statement (.close dev) :=
  fun _ => ⟨rfl, by simp [encode, rowOf], by simp [encode, unusedBits]⟩
theorem EncodedInRow.txbit0 : EncodedInRow.Statement .txbit0 :=
  fun _ => ⟨rfl, by simp [encode, rowOf], by simp [encode, unusedBits]⟩
theorem EncodedInRow.txbit1 : EncodedInRow.Statement .txbit1 :=
  fun _ => ⟨rfl, by simp [encode, rowOf], by simp [encode, unusedBits]⟩
theorem EncodedInRow.txbyte (b : Byte) : EncodedInRow.Statement (.txbyte b) :=
  fun _ => ⟨rfl, by simp [encode, rowOf], by simp [encode, unusedBits]⟩
theorem EncodedInRow.txpixel (dev : Handle) (addr : Nat) : EncodedInRow.Statement (.txpixel dev addr) :=
  fun _ => ⟨rfl, by simp [encode, rowOf], by simp [encode, unusedBits]⟩
theorem EncodedInRow.delayUs (n : Nat) : EncodedInRow.Statement (.delayUs n) :=
  fun _ => ⟨rfl, by simp [encode, rowOf], by simp [encode, unusedBits]⟩
theorem EncodedInRow.colortabRgb : EncodedInRow.Statement .colortabRgb :=
  fun _ => ⟨rfl, by simp [encode, rowOf], by simp [encode, unusedBits]⟩
theorem EncodedInRow.colortabRbg : EncodedInRow.Statement .colortabRbg :=
  fun _ => ⟨rfl, by simp [encode, rowOf], by simp [encode, unusedBits]⟩
theorem EncodedInRow.colortabGrb : EncodedInRow.Statement .colortabGrb :=
  fun _ => ⟨rfl, by simp [encode, rowOf], by simp [encode, unusedBits]⟩
theorem EncodedInRow.colortabGbr : EncodedInRow.Statement .colortabGbr :=
  fun _ => ⟨rfl, by simp [encode, rowOf], by simp [encode, unusedBits]⟩
theorem EncodedInRow.colortabBrg : EncodedInRow.Statement .colortabBrg :=
  fun _ => ⟨rfl, by simp [encode, rowOf], by simp [encode, unusedBits]⟩
theorem EncodedInRow.colortabBgr : EncodedInRow.Statement .colortabBgr :=
  fun _ => ⟨rfl, by simp [encode, rowOf], by simp [encode, unusedBits]⟩

end Sys2Proof.Laws
end

