-- ==== Sys2Proof/Laws/Sequencer.lean ====
section
/-! SUPPORT. What the cycle-by-cycle sequencer does: what a clock cycle leaves alone, that `SEQ.POS` is its own to write,
and the countdown of one segment. -/

namespace Sys2Proof.Machine

/-! ### The position's conditions, read off -/

theorem positionOk_tx {s : State} {p : TxPos} (h : s.seq.pos = .tx p) :
    positionOk s = true ↔
      p.i < p.count ∧ p.j < 3 ∧ p.k < 8 ∧ 1 ≤ p.rem ∧ p.base + 3 * p.count ≤ 2 ^ s.cfg.addrW ∧
        permutes p.order = true ∧ s.ie = false ∧
        (s.ses.isOpen = true ∨ s.cfg.txClosed = .emit) := by
  simp [positionOk, h, and_assoc]

theorem positionOk_dly {s : State} {rem : Nat} {saved : Bool} (h : s.seq.pos = .dly rem saved) :
    positionOk s = true ↔ 1 ≤ rem ∧ s.seq.dly * s.cfg.delayIterCyc < rem + s.cfg.delayIterCyc := by
  simp [positionOk, h]

/-- A core that exists has segments of at least a cycle, distinct symbols and a delay loop that takes time. -/
theorem buildable_lengths {c : Config} (h : buildable c = true) :
    1 ≤ c.n1H ∧ 1 ≤ c.n1L ∧ 1 ≤ c.n0H ∧ 1 ≤ c.n0L ∧ c.n0H < c.n1H ∧ 1 ≤ c.delayIterCyc := by
  simp only [buildable, Bool.and_eq_true, beq_iff_eq, inRange, decide_eq_true_eq] at h
  obtain ⟨h1, h2⟩ := h
  unfold configError pad at h2
  split at h2
  · cases h2
  · split at h2
    · cases h2
    · split at h2
      · cases h2
      · refine ⟨?_, ?_, ?_, ?_, ?_, ?_⟩ <;> omega

/-! ### Interrupt masking -/

theorem irqEnter_frame (s : State) : ∃ v es, irqEnter s = { s with ie := v, trace := es } ∧ (v = s.ie ∨ v = false) := by
  rw [irqEnter_eq]
  split
  · exact ⟨s.ie, s.trace, rfl, .inl rfl⟩
  · exact ⟨_, _, rfl, .inr rfl⟩

theorem irqLeave_frame (saved : Bool) (s : State) : ∃ v es, irqLeave saved s = { s with ie := v, trace := es } ∧
    (v = s.ie ∨ v = saved ∨ s.cfg.irqMode = .disableEnable) := by
  unfold irqLeave
  cases h : s.cfg.irqMode with
  | leaveAlone => exact ⟨s.ie, s.trace, rfl, .inl rfl⟩
  | saveRestore => exact ⟨_, _, rfl, .inr (.inl rfl)⟩
  | disableEnable => exact ⟨_, _, rfl, .inr (.inr rfl)⟩

theorem grows_endDelay (saved : Bool) (s : State) : Grows s (endDelay saved s) :=
  (grows_loadDly 0 s).trans ((grows_setPos .idle _).trans (grows_irqLeave saved _) rfl) rfl

/-! ### A clock cycle leaves the host's things alone -/

/-- What a command in progress never changes: the host's memory and operands, the parameters, what is still to come, the
requests held back, the session, whether it is in progress. -/
def HostKept (s t : State) : Prop :=
  t.mem = s.mem ∧ t.ops = s.ops ∧ t.cfg = s.cfg ∧ t.cmd = s.cmd ∧ t.inputs = s.inputs ∧
    t.heldIrq = s.heldIrq ∧ t.ses = s.ses ∧ t.busy = s.busy

theorem riseAt_kept {p : TxPos} {s t : State} (h : riseAt p s = .next t) : HostKept s t := by
  obtain ⟨-, h⟩ := unlessFault_eq_next.1 h
  cases h
  exact ⟨rfl, rfl, rfl, rfl, rfl, rfl, rfl, rfl⟩

theorem enterByte_kept {p : TxPos} {s t : State} (h : enterByte p s = .next t) : HostKept s t := by
  obtain ⟨r, h1, h⟩ := chain_eq_next.1 h
  obtain ⟨-, h5⟩ := memRead_eq_next.1 h1
  have := riseAt_kept h
  rw [h5] at this
  exact this

theorem advance_kept {p : TxPos} {s t : State} (h : advance p s = .next t) : HostKept s t := by
  unfold advance at h
  dsimp only at h
  split at h
  · exact riseAt_kept (s := shiftShreg s) h
  split at h
  · exact enterByte_kept (s := shiftShreg s) h
  split at h
  · exact enterByte_kept (s := shiftShreg s) h
  · cases h
    exact ⟨rfl, rfl, rfl, rfl, rfl, rfl, rfl, rfl⟩

theorem endDelay_kept (saved : Bool) (s : State) : HostKept s (endDelay saved s) := by
  obtain ⟨v, es, h, -⟩ := irqLeave_frame saved (setPos .idle (loadDly 0 s))
  unfold endDelay
  rw [h]
  exact ⟨rfl, rfl, rfl, rfl, rfl, rfl, rfl, rfl⟩

theorem tick_kept {s t : State} (h : tick s = .next t) : HostKept s t := by
  unfold tick at h
  split at h
  · cases h
    exact ⟨rfl, rfl, rfl, rfl, rfl, rfl, rfl, rfl⟩
  · unfold tickTx at h
    dsimp only at h
    split at h
    · cases h
      exact ⟨rfl, rfl, rfl, rfl, rfl, rfl, rfl, rfl⟩
    split at h
    · cases h
      exact ⟨rfl, rfl, rfl, rfl, rfl, rfl, rfl, rfl⟩
    · split at h
      · cases h
        exact ⟨rfl, rfl, rfl, rfl, rfl, rfl, rfl, rfl⟩
      · exact advance_kept (s := wait 1 _) h
    · exact advance_kept (s := wait 1 _) h
  · cases h
    unfold tickDly
    dsimp only
    split
    · exact endDelay_kept _ (wait 1 s)
    · exact ⟨rfl, rfl, rfl, rfl, rfl, rfl, rfl, rfl⟩

/-! ### `SEQ.POS` is overwritten, never read, by what starts the next byte or bit -/

theorem riseAt_setPos (p : TxPos) (q : SeqPos) (s : State) : riseAt p (setPos q s) = riseAt p s := rfl

theorem memRead_setPos (a : Nat) (q : SeqPos) (s : State) :
    memRead a (setPos q s) = chain (memRead a s) (fun r => .next (r.1, setPos q r.2)) := by
  unfold memRead
  change (match Memory.read s.mem a with | none => _ | some v => _) = _
  cases Memory.read s.mem a <;> rfl

theorem enterByte_setPos (p : TxPos) (q : SeqPos) (s : State) : enterByte p (setPos q s) = enterByte p s := by
  unfold enterByte
  rw [memRead_setPos, chain_assoc]
  rfl

theorem advance_setPos (p : TxPos) (q : SeqPos) (s : State) : advance p (setPos q s) = advance p s := by
  unfold advance
  have : shiftShreg (setPos q s) = setPos q (shiftShreg s) := rfl
  simp only [this, riseAt_setPos, enterByte_setPos]
  rfl

/-! ### Running -/

/-- `o`, run for `n` cycles, comes to `o'`. -/
def Reaches (o : Result State) (n : Nat) (o' : Result State) : Prop :=
  ∀ m, chain o (runCycles (n + m)) = chain o' (runCycles m)

theorem Reaches.refl (o : Result State) : Reaches o 0 o := fun m => by rw [Nat.zero_add]

theorem Reaches.trans {a b c : Result State} {n m : Nat} (h1 : Reaches a n b) (h2 : Reaches b m c) :
    Reaches a (n + m) c := fun k => by rw [Nat.add_assoc, h1, h2]

/-- One cycle is one `tick`. -/
theorem reaches_tick {s : State} {p : TxPos} (h : s.seq.pos = .tx p) : Reaches (.next s) 1 (tick s) := fun m => by
  rw [chain_next, Nat.add_comm, runCycles, h]

/-- A phase counts down to its last cycle, and nothing but time passes. -/
theorem reaches_lastCycle (p : TxPos) (s : State) (r : Nat) :
    Reaches (.next (setPos (.tx { p with rem := r + 1 }) s)) r
      (.next (setPos (.tx { p with rem := 1 }) (wait r s))) := by
  induction r generalizing s with
  | zero => exact Reaches.refl _
  | succ r ih =>
    have h := reaches_tick (s := setPos (.tx { p with rem := r + 1 + 1 }) s) (p := { p with rem := r + 1 + 1 }) rfl
    have e : tick (setPos (.tx { p with rem := r + 1 + 1 }) s) =
        .next (setPos (.tx { p with rem := r + 1 }) (wait 1 s)) := by
      simp only [tick, setPos, tickTx]
      rw [if_pos (by omega)]
      rfl
    rw [e] at h
    have := h.trans (ih (wait 1 s))
    rw [Nat.add_comm 1] at this
    have e2 : wait r (wait 1 s) = wait (r + 1) s := by
      simp [wait]
      omega
    rwa [e2] at this

end Sys2Proof.Machine
end

