-- ==== Sys2Proof/Laws/Step.lean ====
section
/-! SUPPORT. What a step can be, said once: the input at the head while the sequencer is idle, a clock cycle or a request
while a command is stepped; how a stepped command is retired; runs of steps. -/

namespace Sys2Proof.Machine

/-- No held request is taken: interrupts are disabled, or none is held. -/
theorem heldRequest_none {s : State} (h : s.ie = false ∨ s.heldIrq = []) : heldRequest s = none := by
  unfold heldRequest
  rcases h with h | h
  · cases s.heldIrq <;> simp [h]
  · simp [h]

/-- A request has come exactly when it stands at the head and its cycle is not in the future. -/
theorem arrivingRequest_none {s : State} :
    arrivingRequest s = none ↔ ∀ c n rest, s.inputs = .interrupt c n :: rest → s.cycle < c := by
  unfold arrivingRequest
  cases hin : s.inputs with
  | nil => simp
  | cons inp rest => cases inp <;> simp

theorem step_idle {s : State} (hp : s.seq.pos = .idle) (h : s.ie = false ∨ s.heldIrq = []) : step s = stepIdle s := by
  simp only [step, heldRequest_none h, hp]

theorem step_busy {s : State} (hp : s.seq.pos ≠ .idle) (h : s.ie = false ∨ s.heldIrq = []) : step s = stepBusy s := by
  simp only [step, heldRequest_none h]
  cases hq : s.seq.pos with
  | idle => exact absurd hq hp
  | tx p => rfl
  | dly rem saved => rfl

/-- While a command is stepped and no request is taken, a step is one clock cycle. -/
theorem step_cycle {s : State} (hp : s.seq.pos ≠ .idle) (h : s.ie = false ∨ s.heldIrq = [])
    (hin : ∀ c n rest, s.inputs = .interrupt c n :: rest → s.cycle < c) : step s = settle (tick s) := by
  rw [step_busy hp h, stepBusy, arrivingRequest_none.2 hin]

theorem settle_idle {s : State} (hp : s.seq.pos = .idle) : settle (.next s) = .next (retire s) := by
  simp only [settle, chain, hp]

theorem settle_busy {s : State} (hp : s.seq.pos ≠ .idle) : settle (.next s) = .next s := by
  simp only [settle, chain]
  cases hq : s.seq.pos with
  | idle => exact absurd hq hp
  | tx p => rfl
  | dly rem saved => rfl

@[simp] theorem settle_fault (f : Fault) : settle (.fault f) = .fault f := rfl
@[simp] theorem settle_refused (r : Refusal) : settle (.refused r) = .refused r := rfl

theorem runSteps_one (s : State) : runSteps 1 s = step s := by
  simp only [runSteps]
  cases step s <;> rfl

/-- A command in progress, run on cycle by cycle to the state in which the sequencer is idle, is run there by steps and
retired, when no request can come. -/
theorem runSteps_next {k : Nat} {s t : State} (hp : s.seq.pos ≠ .idle) (hh : s.heldIrq = [])
    (hin : ∀ c n rest, s.inputs ≠ .interrupt c n :: rest) (hr : runCycles k s = .next t) (ht : t.seq.pos = .idle) :
    ∃ m, runSteps m s = .next (retire t) := by
  induction k generalizing s with
  | zero => cases hr; exact absurd ht hp
  | succ k ih =>
    have hs := step_cycle hp (.inr hh) (fun c n rest h => absurd h (hin c n rest))
    have hr' : chain (tick s) (runCycles k) = .next t := by
      rw [← hr, runCycles]
      cases hq : s.seq.pos with
      | idle => exact absurd hq hp
      | tx p => rfl
      | dly rem saved => rfl
    obtain ⟨u, hu, hk⟩ := chain_eq_next.1 hr'
    obtain ⟨-, -, -, -, e4, e5, -, -⟩ := tick_kept hu
    rw [hu] at hs
    by_cases hq : u.seq.pos = .idle
    · have : u = t := by
        cases k with
        | zero => cases hk; rfl
        | succ k => simp only [runCycles, hq] at hk; cases hk; rfl
      subst this
      exact ⟨1, by rw [runSteps_one, hs, settle_idle hq]⟩
    · obtain ⟨m, hm⟩ := ih hq (e5.trans hh) (fun c n rest h => hin c n rest (e4 ▸ h)) hk
      refine ⟨m + 1, ?_⟩
      rw [runSteps, hs, settle_busy hq]
      exact hm

/-- The same for a fault. -/
theorem runSteps_fault {k : Nat} {s : State} {f : Fault} (hh : s.heldIrq = [])
    (hin : ∀ c n rest, s.inputs ≠ .interrupt c n :: rest) (hr : runCycles k s = .fault f) :
    ∃ m, runSteps m s = .fault f := by
  induction k generalizing s with
  | zero => cases hr
  | succ k ih =>
    by_cases hp : s.seq.pos = .idle
    · simp only [runCycles, hp] at hr; cases hr
    have hs := step_cycle hp (.inr hh) (fun c n rest h => absurd h (hin c n rest))
    have hr' : chain (tick s) (runCycles k) = .fault f := by
      rw [← hr, runCycles]
      cases hq : s.seq.pos with
      | idle => exact absurd hq hp
      | tx p => rfl
      | dly rem saved => rfl
    rcases chain_eq_fault.1 hr' with hu | ⟨u, hu, hk⟩
    · rw [hu] at hs
      exact ⟨1, by rw [runSteps_one, hs, settle_fault]⟩
    · obtain ⟨-, -, -, -, e4, e5, -, -⟩ := tick_kept hu
      rw [hu] at hs
      by_cases hq : u.seq.pos = .idle
      · cases k with
        | zero => cases hk
        | succ k => simp only [runCycles, hq] at hk; cases hk
      · obtain ⟨m, hm⟩ := ih (e5.trans hh) (fun c n rest h => hin c n rest (e4 ▸ h)) hk
        refine ⟨m + 1, ?_⟩
        rw [runSteps, hs, settle_busy hq]
        exact hm

end Sys2Proof.Machine
end

