-- ==== Sys2Proof/Tests/Slice0.lean ====
section
/-! SUPPORT. Tests: what well-formedness refuses, words written out from the spec's encodings, one-step vectors of
spec/95_test_vectors.md, and for every statement with hypotheses a case that meets them. -/

namespace Sys2Proof.Tests

open Sys2Proof Sys2Proof.Machine

/-! ### Helpers -/

/-- `devA` of 95_test_vectors.md V7. -/
def devA : Handle := ⟨0x0025, 0x01, 0xFE, 50, ⟨1, 0, 2⟩⟩

/-- `devB` of V7. -/
def devB : Handle := ⟨0x0028, 0x30, 0xCF, 80, ⟨0, 1, 2⟩⟩

/-- `devA` with the shortest reset times, so that a test's wait is short. -/
def devShort : Handle := ⟨0x0025, 0x01, 0xFE, 1, ⟨1, 0, 2⟩⟩

/-- A handle whose low mask is not the complement of the high one (V10). -/
def devBadMask : Handle := ⟨0x0025, 0x01, 0xFF, 50, ⟨1, 0, 2⟩⟩

/-- A handle whose order repeats an offset (V10). -/
def devBadOrder : Handle := ⟨0x0025, 0x01, 0xFE, 50, ⟨0, 0, 2⟩⟩

/-- A handle whose order has the element 3 (R26). -/
def devThree : Handle := ⟨0x0025, 0x01, 0xFE, 50, ⟨0, 1, 3⟩⟩

/-- Prepared with `devA`, `IE = 0`, `PORT[0x0025] = 0x10`, cycle 100: the start of V4. -/
def opened : State := { State.reset with
  ses := ⟨true, true, 0x0025, 0x01, 0xFE, true⟩
  ports := [(0x0025, 0x10)]
  cycle := 100 }

/-- The same, with the record `FF 80 00` at 0x0100 (V6, P1) and `devA` as the handle operand. -/
def loaded : State := { opened with
  mem := [(0x0100, 0xFF), (0x0101, 0x80), (0x0102, 0x00)]
  ops := { emptyOperands with dev := some devA, base := 0x0100, count := 1 } }

/-- The same, with a TRANSMIT of no pixels as the next command. -/
def emptyCommand : State := { loaded with ops := { loaded.ops with count := 0 }, inputs := [.cmd 0x01] }

/-- After reset, with interrupts enabled. -/
def enabled : State := { State.reset with ie := true }

/-- Closed, emission while Closed allowed, a PREPARE has run (R176). -/
def emitting : State := { loaded with
  cfg := { Config.reference with txClosed := .emit }
  ses := ⟨false, true, 0x0025, 0x01, 0xFE, true⟩ }

/-- The same before any PREPARE. -/
def emittingFresh : State := { emitting with ses := State.reset.ses }

/-- Closed, interrupts enabled, with `devA` as the handle operand. -/
def withHandle : State := { enabled with ops := { emptyOperands with dev := some devA } }

/-- Prepared with interrupts disabled before PREPARE too, and a handle with a reset time of 1 microsecond (V9 row 2). -/
def toClose : State := { opened with
  ses := ⟨true, false, 0x0025, 0x01, 0xFE, true⟩
  ops := { emptyOperands with dev := some devShort } }

/-- A TRANSMIT in progress in the last cycle of a high segment. -/
def sending : State := { loaded with
  seq := ⟨.tx ⟨⟨1, 0, 2⟩, 0x0100, 1, 0, 0, 0, .h, 1⟩, 0x80, 0⟩
  ports := [(0x0025, 0x11)]
  busy := true }

/-- A delay in progress, interrupts enabled. -/
def waiting : State := { enabled with seq := ⟨.dly 5 true, 0x00, 5⟩, busy := true }

/-- A session open, `devA` and a record in place, the host about to issue TRANSMIT. -/
def aboutToSend : State := { loaded with inputs := [.cmd 0x01] }

/-- `s` with one thing to come from outside. -/
def facing (s : State) (inp : Input) : State := { s with inputs := [inp] }

/-- What `f` says of the next state. -/
def next? {α : Type} (o : Result State) (f : State → α) : Option α :=
  match o with
  | .next s => some (f s)
  | .fault _ => none
  | .refused _ => none

/-- The fault. -/
def fault? (o : Result State) : Option Fault :=
  match o with
  | .next _ => none
  | .fault f => some f
  | .refused _ => none

/-- The refusal. -/
def refused? (o : Result State) : Option Refusal :=
  match o with
  | .next _ => none
  | .fault _ => none
  | .refused r => some r

/-! ### Well-formedness: an ill-formed term for each check -/

theorem test_wf_good : Instr.wf Config.reference (.prepare devA) = true := by decide
theorem test_wf_mask : Instr.wf Config.reference (.prepare devBadMask) = false := by decide
theorem test_wf_order_repeat : Instr.wf Config.reference (.close devBadOrder) = false := by decide
theorem test_wf_order_three : Instr.wf Config.reference (.waitReset devThree) = false := by decide
theorem test_wf_port : Instr.wf Config.reference (.prepare { devA with port := 65536 }) = false := by decide
theorem test_wf_reset_us : Instr.wf Config.reference (.close { devA with resetUs := 65536 }) = false := by decide
theorem test_wf_reset_us_8 :
    Instr.wf { Config.reference with delayW := .w8 } (.close { devA with resetUs := 256 }) = false := by decide
theorem test_wf_base : Instr.wf Config.reference (.transmit devA 65536 1) = false := by decide
theorem test_wf_count : Instr.wf Config.reference (.transmit devA 0 65536) = false := by decide
theorem test_wf_addr : Instr.wf Config.reference (.txpixel devA 65536) = false := by decide
theorem test_wf_us : Instr.wf Config.reference (.delayUs 65536) = false := by decide

/-! ### Decoding: words written out bit by bit from Tables E1 to E3 -/

theorem test_decode_prepare : decode .cmd 0b00000000 loaded.ops = .ok (.prepare devA) := rfl
theorem test_decode_transmit : decode .cmd 0b00000001 loaded.ops = .ok (.transmit devA 0x0100 1) := rfl
theorem test_decode_wait_reset : decode .cmd 0b00000010 loaded.ops = .ok (.waitReset devA) := rfl
theorem test_decode_close : decode .cmd 0b00000011 loaded.ops = .ok (.close devA) := rfl
theorem test_decode_internal : decode .cmd 0b00000100 loaded.ops = .error .internalAtHostPort := rfl
theorem test_decode_unassigned : decode .cmd 0b00001001 loaded.ops = .error .unassigned := rfl
theorem test_decode_high_nibble : decode .cmd 0b00010000 loaded.ops = .error .nonzeroHighNibble := rfl
theorem test_decode_no_handle : decode .cmd 0b00000000 emptyOperands = .error .handleNotPopulated := rfl
theorem test_decode_txbit0 : decode .bitsel 0b01111111 emptyOperands = .ok .txbit0 := rfl
theorem test_decode_txbit1 : decode .bitsel 0b10000000 emptyOperands = .ok .txbit1 := rfl
theorem test_decode_txbit0_index : decode .uop 0b0100 emptyOperands = .ok .txbit0 := rfl
theorem test_decode_txbit1_index : decode .uop 0b0101 emptyOperands = .ok .txbit1 := rfl
theorem test_decode_txbyte : decode .uop 0b0110 { emptyOperands with ub := 0xA5 } = .ok (.txbyte 0xA5) := rfl
theorem test_decode_txpixel :
    decode .uop 0b0111 { emptyOperands with dev := some devA, uaddr := 7 } = .ok (.txpixel devA 7) := rfl
theorem test_decode_delay_us : decode .uop 0b1000 { emptyOperands with un := 50 } = .ok (.delayUs 50) := rfl
theorem test_decode_rgb : decode .cosel 0b000 emptyOperands = .ok .colortabRgb := rfl
theorem test_decode_rbg : decode .cosel 0b001 emptyOperands = .ok .colortabRbg := rfl
theorem test_decode_grb : decode .cosel 0b010 emptyOperands = .ok .colortabGrb := rfl
theorem test_decode_gbr : decode .cosel 0b011 emptyOperands = .ok .colortabGbr := rfl
theorem test_decode_brg : decode .cosel 0b100 emptyOperands = .ok .colortabBrg := rfl
theorem test_decode_bgr : decode .cosel 0b101 emptyOperands = .ok .colortabBgr := rfl
theorem test_decode_reserved : decode .cosel 0b110 emptyOperands = .error .reservedSelector := rfl

/-! ### Configurations (V2, V3) -/

theorem test_lengths_at_16_mhz :
    [cyc 16000000 700, cyc 16000000 600, cyc 16000000 350, cyc 16000000 800] = [11, 10, 6, 13] := by decide
theorem test_lengths_round_halves_up : cyc 10000000 350 = 4 := by decide
theorem test_config_2_mhz : configError (derivedFrom Config.reference 2000000) = some .symbolsIndistinct := by decide
theorem test_config_1_mhz : configError (derivedFrom Config.reference 1000000) = some .negativePadding := by decide
theorem test_config_low_too_short :
    configError { Config.reference with n0L := 7 } = some .zeroLowTooShort := by decide
theorem test_config_borderline :
    (configError { Config.reference with n0L := 8 }, warnings { Config.reference with n0L := 8 }) =
      (none, [.zeroLowBorderline, .segmentOutsideBand]) := by decide
theorem test_config_no_warning : warnings { Config.reference with n0L := 11 } = [] := by decide
theorem test_config_outside_band : warnings { Config.reference with n1H := 14 } = [.segmentOutsideBand] := by decide

/-! ### One-step vectors (V1, V4 to V10) -/

/-- V4 row 1. -/
theorem test_txbit1 :
    next? (exec .txbit1 opened) (fun t => (t.cycle, t.trace)) =
      some (121, [.w 100 0x0025 0x11, .w 111 0x0025 0x10]) := by decide
/-- V4 row 2. -/
theorem test_txbit0 :
    next? (exec .txbit0 opened) (fun t => (t.cycle, t.trace)) =
      some (119, [.w 100 0x0025 0x11, .w 106 0x0025 0x10]) := by decide
/-- V4 row 6: the masked pin was already high. -/
theorem test_txbit0_pin_already_high :
    next? (exec .txbit0 { opened with
      ses := ⟨true, true, 0x0025, 0x80, 0x7F, true⟩
      ports := [(0x0025, 0xFF)] }) (fun t => t.ports) = some [(0x0025, 0x7F)] := by decide
/-- V4: a closed session, interrupts enabled. -/
theorem test_txbit1_closed : fault? (exec .txbit1 State.reset) = some .primitiveOutsideSession := by decide

/-- R176 with `TX_CLOSED = emit`, before any PREPARE: it goes on with what the registers hold at reset (log 10), no pin
driven. -/
theorem test_txbit1_emits_before_any_prepare :
    next? (exec .txbit1 emittingFresh) (fun t => (t.cycle, t.trace.length, Ports.read t.ports 0x0025)) =
      some (121, 2, 0x10) := by decide

/-- V5 row 0xA5. -/
theorem test_txbyte_cycles :
    next? (exec (.txbyte 0xA5) opened) (fun t => (t.cycle - 100, t.seq.shreg)) = some (160, 0x00) := by decide
/-- V5: the edges of TXBYTE(0x80) started at cycle 10. -/
theorem test_txbyte_edges :
    next? (exec (.txbyte 0x80) { opened with cycle := 10 }) (fun t => (portWrites 0x0025 t.trace).map (fun w => w.1)) =
      some [10, 21, 31, 37, 50, 56, 69, 75, 88, 94, 107, 113, 126, 132, 145, 151] := by decide

/-- V6 row 1. -/
theorem test_txpixel_reads :
    next? (exec (.txpixel devA 0x0100) loaded) (fun t => (memoryReads t.trace).map (fun r => r.2)) =
      some [(0x0101, 0x80), (0x0100, 0xFF), (0x0102, 0x00)] := by decide
/-- V6 row 1. -/
theorem test_transmit_cycles :
    next? (exec (.transmit devA 0x0100 1) loaded) (fun t => (t.cycle - 100, (portWrites 0x0025 t.trace).length)) =
      some (474, 48) := by decide
/-- V6: `base = 0xFFFE, count = 1` is refused. -/
theorem test_transmit_wraps : refused? (exec (.transmit devA 0xFFFE 1) loaded) = some .addressWrap := by decide

/-- V7 row 1. -/
theorem test_prepare :
    next? (exec (.prepare devA) enabled) (fun t => (t.ses, t.ie, t.trace, t.cycle)) =
      some (⟨true, true, 0x0025, 0x01, 0xFE, true⟩, false, [.i 0 false], 0) := by decide
/-- V7 row 3. -/
theorem test_prepare_prepared : next? (exec (.prepare devB) opened) (fun t => t) = some opened := by decide
/-- V7 row 5, with a reset time of 1 microsecond (V9 row 2). -/
theorem test_close :
    next? (exec (.close devShort) { opened with ses := ⟨true, false, 0x0025, 0x01, 0xFE, true⟩ })
      (fun t => (t.ses, t.ie, t.trace, t.cycle)) =
      some (⟨false, false, 0x0025, 0x01, 0xFE, true⟩, false, [.i 100 false], 117) := by decide
/-- V7 row 7. -/
theorem test_close_closed : next? (exec (.close devA) enabled) (fun t => t) = some enabled := by decide
/-- V7 row 10, with a reset time of 1 microsecond. -/
theorem test_wait_reset :
    next? (exec (.waitReset devShort) opened) (fun t => (t.ses, t.cycle)) = some (opened.ses, 117) := by decide
/-- V9 row 1. -/
theorem test_delay_zero : next? (exec (.delayUs 0) State.reset) (fun t => t.cycle) = some 1 := by decide
/-- V8 row 4, for 1 microsecond. -/
theorem test_delay_save_restore :
    next? (exec (.delayUs 1) { enabled with cfg := { Config.reference with irqMode := .saveRestore } })
      (fun t => (t.trace, t.ie, t.cycle)) = some ([.i 0 false, .i 17 true], true, 17) := by decide
/-- V9: the iterations of 65535 microseconds, and of 50 at 20 MHz with 3 cycles a turn. -/
theorem test_iterations :
    (iters Config.reference 65535, iters { Config.reference with fClk := 20000000, delayIterCyc := 3 } 50) =
      (1048560, 334) := by decide

/-- V1. -/
theorem test_colortab_rgb : next? (exec .colortabRgb State.reset) (fun t => t.colorOut) = some ⟨0, 1, 2⟩ := by decide
theorem test_colortab_rbg : next? (exec .colortabRbg State.reset) (fun t => t.colorOut) = some ⟨0, 2, 1⟩ := by decide
theorem test_colortab_grb : next? (exec .colortabGrb State.reset) (fun t => t.colorOut) = some ⟨1, 0, 2⟩ := by decide
theorem test_colortab_gbr : next? (exec .colortabGbr State.reset) (fun t => t.colorOut) = some ⟨1, 2, 0⟩ := by decide
theorem test_colortab_brg : next? (exec .colortabBrg State.reset) (fun t => t.colorOut) = some ⟨2, 0, 1⟩ := by decide
theorem test_colortab_bgr : next? (exec .colortabBgr State.reset) (fun t => t.colorOut) = some ⟨2, 1, 0⟩ := by decide

/-- V10: two faults are possible, the session is reported. -/
theorem test_transmit_closed_and_enabled :
    fault? (exec (.transmit devA 0x0100 1) enabled) = some .transmitWhileClosed := by decide
/-- R184: the last cycle of a high segment ends in the falling edge, at the next cycle. -/
theorem test_falling_edge :
    next? (step sending) (fun t => (t.trace, t.seq.pos)) =
      some ([.w 101 0x0025 0x10], .tx ⟨⟨1, 0, 2⟩, 0x0100, 1, 0, 0, 0, .l, 10⟩) := by decide

/-- R47 (b), (c): a pulse of another length is no symbol, so the first LED's data does not count it. -/
theorem test_symbols_leave_other_pulses_out :
    symbols Config.reference 0x0025 0 0x00
        [.w 0 0x0025 0x01, .w 6 0x0025 0x00, .w 20 0x0025 0x01, .w 28 0x0025 0x00, .w 40 0x0025 0x01, .w 51 0x0025 0x00] =
      [false, true] := by decide
/-- R47 (c): 50 microseconds low at 16 MHz start a new frame. -/
theorem test_frames_cut_at_the_reset_time :
    (frames Config.reference 0x0025 0 0x00
        [.w 0 0x0025 0x01, .w 6 0x0025 0x00, .w 806 0x0025 0x01, .w 817 0x0025 0x00]).map (ledData 0) =
      [[false], [true]] := by decide

/-! ### Every statement with hypotheses: a case that meets them -/

theorem test_meets_CommandBytesDecodeAsTableE2 :
    loaded.ops.dev = some devA ∧ (emptyOperands.dev = none ∧ (0x03 : Byte).toNat ≤ 0x03) ∧
      0x03 < (0x04 : Byte).toNat ∧ 0x03 < (0xFF : Byte).toNat := by decide
theorem test_meets_BitSevenSelectsThePrimitive :
    (0x80 : Byte) &&& 0x80 = 0x80 ∧ (0x7F : Byte) &&& 0x80 = 0x00 := by decide
theorem test_meets_MicroOperationIndicesNameTheFive :
    loaded.ops.dev = some devA ∧ emptyOperands.dev = none ∧ (0x03 : Byte).toNat < 0x04 ∧ 0x08 < (0x09 : Byte).toNat := by
  decide
theorem test_meets_SelectorsDecodeAsTableE3 : 5 < (6 : Byte).toNat ∧ 5 < (0xFF : Byte).toNat := by decide
theorem test_meets_DecodeOfEncodeIsTheOperation :
    Instr.wf Config.reference (.transmit ⟨65535, 0xFF, 0x00, 65535, ⟨2, 1, 0⟩⟩ 65535 65535) = true := by decide
theorem test_meets_EachOperationHasOneWord :
    Format.uop ≠ .bitsel ∧ Instr.delayUs 50 ≠ .txbit0 ∧ Instr.delayUs 50 ≠ .txbit1 ∧
      decode .uop 0x08 { emptyOperands with un := 50 } = .ok (.delayUs 50) :=
  ⟨by decide, by decide, by decide, rfl⟩
theorem test_meets_LaunchMeetsTheInvariant : launch Config.reference = .ok State.reset := rfl
/-- Table P1: `DELAY_ITER_CYC` is at least 1. -/
theorem test_launch_outside_table :
    launch { Config.reference with delayIterCyc := 0 } = .error .outsideTableP1 := rfl
theorem test_meets_StepRunsTheDecodedCommand :
    aboutToSend.seq.pos = .idle ∧ aboutToSend.ie = false ∧ aboutToSend.inputs = [.cmd 0x01] ∧
      decode .cmd 0x01 aboutToSend.ops = .ok (.transmit devA 0x0100 1) := ⟨rfl, rfl, rfl, rfl⟩
theorem test_meets_StepRunsTheDecodedMicroOperation :
    enabled.seq.pos = .idle ∧ enabled.heldIrq = [] ∧
      ((facing enabled (.uop 0x04)).inputs = [.uop 0x04] ∧ decode .uop 0x04 enabled.ops = .ok .txbit0) ∧
      ((facing enabled .bitsel).inputs = [.bitsel] ∧ decode .bitsel enabled.seq.shreg enabled.ops = .ok .txbit0) ∧
      ((facing enabled (.cosel 0x05)).inputs = [.cosel 0x05] ∧ decode .cosel 0x05 enabled.ops = .ok .colortabBgr) :=
  ⟨rfl, rfl, ⟨rfl, rfl⟩, ⟨rfl, rfl⟩, rfl, rfl⟩
theorem test_meets_OtherCommandBytesAreRefused :
    loaded.seq.pos = .idle ∧ loaded.ie = false ∧ (facing loaded (.cmd 0x10)).inputs = [.cmd 0x10] ∧
      (0x10 : Byte) &&& 0xF0 ≠ 0 ∧ (facing loaded (.cmdByCycle 0x04)).inputs = [.cmdByCycle 0x04] ∧
      0x04 ≤ (0x04 : Byte).toNat ∧ (facing State.reset (.cmd 0x00)).ops.dev = none := by decide
theorem test_meets_HostThreadIsStoppedWhileBusy :
    sending.seq.pos ≠ .idle ∧ (∃ t, step sending = .next t) ∧ waiting.seq.pos ≠ .idle ∧ ∃ t, step waiting = .next t :=
  ⟨by decide, ⟨_, rfl⟩, by decide, ⟨_, rfl⟩⟩
theorem test_meets_PrepareOpensTheSession :
    wfDev devA = true ∧ State.reset.ses.isOpen = false ∧ opened.ses.isOpen = true ∧ wfDev devThree = false := by decide
theorem test_meets_PrepareTwiceIsPrepareOnce : wfDev devA = true ∧ wfDev devB = true ∧ devA ≠ devB := by decide
theorem test_meets_CloseRestoresThenWaits :
    wfDev devA = true ∧ opened.ses.isOpen = true ∧ State.reset.ses.isOpen = false ∧ wfDev devBadMask = false := by decide
theorem test_meets_WaitResetOnlyWaits : wfDev devA = true := by decide
theorem test_meets_MalformedHandleIsRefused :
    devBadMask.maskLo ≠ ~~~devBadMask.maskHi ∧ permutes devBadOrder.order = false ∧ permutes devThree.order = false := by
  decide
theorem test_meets_DelayLastsExactly :
    Config.reference.irqMode = .leaveAlone ∧ State.reset.ie = false ∧
      ({ Config.reference with irqMode := .saveRestore } : Config).irqMode = .saveRestore ∧
      ({ Config.reference with irqMode := .disableEnable } : Config).irqMode = .disableEnable := by decide
theorem test_meets_InterruptsOnlyLengthenTheDelay :
    enabled.cfg.irqMode = .leaveAlone ∧ enabled.ie = true := by decide
theorem test_meets_DelayIsNeverShort :
    1 ≤ enabled.cfg.delayIterCyc ∧ (∃ t, exec (.delayUs 0) enabled = .next t) ∧
      (∃ t, exec (.delayUs 50) State.reset = .next t) ∧ State.reset.ie = false :=
  ⟨by decide, ⟨_, rfl⟩, ⟨_, rfl⟩, rfl⟩
theorem test_meets_IterationCountIsLeast : 1 ≤ Config.reference.delayIterCyc := by decide

theorem test_meets_Txbit1EmitsAOne : MayEmit loaded := ⟨rfl, .inl rfl⟩
theorem test_meets_Txbit0EmitsAZero : MayEmit emitting := ⟨rfl, .inr rfl⟩
theorem test_meets_PrimitivesFaultOutsideTheirPrecondition :
    (State.reset.ses.isOpen = false ∧ State.reset.cfg.txClosed = .fault) ∧
      (opened.ses.isOpen = true ∧ ({ opened with ie := true } : State).ie = true) ∧
      (opened.ie = false ∧ emittingFresh.ses.isOpen = false ∧ emittingFresh.cfg.txClosed = .emit ∧
        emittingFresh.ie = false) := by decide
theorem test_meets_TxbyteSendsEightSymbols :
    MayEmit opened ∧ Ports.wf opened.ports = true ∧ opened.ses.cMaskLo = ~~~opened.ses.cMaskHi :=
  ⟨⟨rfl, .inl rfl⟩, by decide, by decide⟩
theorem test_meets_TxpixelSendsTheRecordInOrder :
    MayEmit loaded ∧ Ports.wf loaded.ports = true ∧ loaded.ses.cMaskLo = ~~~loaded.ses.cMaskHi ∧ wfDev devA = true ∧
      0x0100 + 2 < 2 ^ loaded.cfg.addrW ∧ bytesAt loaded.mem (recordAddresses devA.order 0x0100) = some [0x80, 0xFF, 0x00] :=
  ⟨test_meets_Txbit1EmitsAOne, by decide, by decide, by decide, by decide, by decide⟩
theorem test_meets_TransmitFollowsTheEdgeSchedule :
    MayEmit emitting ∧ Ports.wf emitting.ports = true ∧ emitting.ses.cMaskLo = ~~~emitting.ses.cMaskHi ∧
      wfDev devA = true ∧ 0x0100 + 3 * 1 ≤ 2 ^ emitting.cfg.addrW ∧
      bytesAt emitting.mem (wireAddresses devA.order 0x0100 1) = some [0x80, 0xFF, 0x00] :=
  ⟨test_meets_Txbit0EmitsAZero, by decide, by decide, by decide, by decide, by decide⟩
theorem test_meets_TransmitLastsTheSumOfItsBytes :
    (∃ t, exec (.transmit devA 0x0100 1) loaded = .next t) ∧
      bytesAt loaded.mem (wireAddresses devA.order 0x0100 1) = some [0x80, 0xFF, 0x00] := ⟨⟨_, rfl⟩, by decide⟩
theorem test_meets_TransmitMakesFortyEightWritesPerPixel :
    (∃ t, exec (.transmit devA 0xFFFF 0) loaded = .next t) ∧ ∃ t, exec (.transmit devA 0x0100 1) loaded = .next t :=
  ⟨⟨_, rfl⟩, _, rfl⟩
theorem test_meets_EmptyTransmitChangesNothing :
    (wfDev devA = true ∧ opened.ses.isOpen = true ∧ opened.ie = false ∧
      emittingFresh.cfg.txClosed = .emit ∧ emittingFresh.ie = false) ∧
    (emptyCommand.ses.isOpen = true ∧ emptyCommand.ie = false ∧ emptyCommand.seq.pos = .idle ∧
      emptyCommand.inputs = [.cmd 0x01] ∧ emptyCommand.ops.dev = some devA ∧ emptyCommand.ops.count = 0) ∧
    (State.reset.ses.isOpen = false ∧ State.reset.cfg.txClosed = .fault) := by decide
theorem test_meets_TransmitFaultsOutsideItsPrecondition :
    (wfDev devA = true ∧ 0xFFFD + 3 * 1 ≤ 2 ^ State.reset.cfg.addrW ∧ State.reset.ses.isOpen = false ∧
        State.reset.cfg.txClosed = .fault) ∧
      (emittingFresh.cfg.txClosed = .emit ∧ ({ emittingFresh with ie := true } : State).ie = true) ∧
      (emittingFresh.ie = false ∧ emittingFresh.ses.written = false ∧
        bytesAt emittingFresh.mem (wireAddresses devA.order 0x0100 1) = some [0x80, 0xFF, 0x00]) := by decide
theorem test_meets_WrappingTransmitIsRefused :
    wfDev devA = true ∧ 0 < 1 ∧ 2 ^ loaded.cfg.addrW < 0xFFFE + 3 * 1 ∧ 2 ^ loaded.cfg.addrW < 0xFFFE + 3 := by decide
theorem test_meets_UnwrittenPixelByteFaults :
    MayEmit loaded ∧ wfDev devA = true ∧ 0x0101 + 3 * 1 ≤ 2 ^ loaded.cfg.addrW ∧
      bytesAt loaded.mem (wireAddresses devA.order 0x0101 1) = none :=
  ⟨test_meets_Txbit1EmitsAOne, by decide, by decide, by decide⟩
theorem test_meets_SplitTransmitEqualsJoined : 0x0100 + 3 * (1 + 1) ≤ 2 ^ loaded.cfg.addrW := by decide
theorem test_meets_ObserverReadsTheTransmittedBits :
    Ports.wf loaded.ports = true ∧ loaded.ses.cMaskLo = ~~~loaded.ses.cMaskHi ∧ buildable loaded.cfg = true ∧
      loaded.ses.cMaskHi.getLsbD 0 = true ∧ (Ports.read loaded.ports loaded.ses.cPort).getLsbD 0 = false := by decide
theorem test_meets_EveryPermutationHasOneSelector : permutes ⟨2, 1, 0⟩ = true ∧ permutes ⟨2, 1, 1⟩ = false := by decide
theorem test_meets_UnmaskedPinsAreNeverChanged :
    Ports.wf loaded.ports = true ∧ loaded.ses.cMaskLo = ~~~loaded.ses.cMaskHi ∧ ∃ t, exec .txbit0 loaded = .next t :=
  ⟨by decide, by decide, _, rfl⟩
theorem test_meets_SessionDelayAndLookupWriteNoPort :
    (∃ t, exec (.prepare devA) enabled = .next t) ∧ (∃ t, exec (.close devShort) opened = .next t) ∧
      (∃ t, exec (.waitReset devShort) opened = .next t) ∧ (∃ t, exec (.delayUs 0) opened = .next t) ∧
      (∃ t, exec .colortabBgr opened = .next t) :=
  ⟨⟨_, rfl⟩, ⟨_, rfl⟩, ⟨_, rfl⟩, ⟨_, rfl⟩, ⟨_, rfl⟩⟩
theorem test_meets_NoOperationWritesMemoryOrOperands :
    (∃ t, exec (.txpixel devA 0x0100) loaded = .next t) ∧ ∃ t, exec (.prepare devA) enabled = .next t :=
  ⟨⟨_, rfl⟩, _, rfl⟩
theorem test_meets_OperationsOnlyAppendToTheTrace :
    (∃ t, exec (.txbyte 0xA5) opened = .next t) ∧ ∃ t, exec (.close devShort) opened = .next t := ⟨⟨_, rfl⟩, _, rfl⟩
theorem test_meets_OnlyPrepareAndCloseWriteTheSession :
    (∃ t, exec (.delayUs 0) opened = .next t) ∧ (∃ t, exec (.close devShort) opened = .next t) ∧
      (∃ t, exec (.prepare devB) opened = .next t) ∧ opened.ses.isOpen = true :=
  ⟨⟨_, rfl⟩, ⟨_, rfl⟩, ⟨_, rfl⟩, rfl⟩
theorem test_meets_OnlySessionAndDelayWriteIe :
    (∃ t, exec .txbit1 opened = .next t) ∧ (∃ t, exec (.delayUs 0) enabled = .next t) ∧
      enabled.cfg.irqMode ≠ .disableEnable := ⟨⟨_, rfl⟩, ⟨_, rfl⟩, by decide⟩

/-! ### The invariant and the dutiful host -/

/-- The same with a record whose last byte was never written. -/
def aboutToFault : State := { aboutToSend with mem := [(0x0100, 0xFF), (0x0101, 0x80)] }

theorem test_invariant_of_aboutToFault : Inv aboutToFault :=
  ⟨by decide, by decide, by decide, by decide, by decide, by decide, by decide, by decide, by decide,
    by simp [traceOrdered, aboutToFault, aboutToSend, loaded, opened, State.reset]⟩
theorem test_invariant_of_sending : Inv sending :=
  ⟨by decide, by decide, by decide, by decide, by decide, by decide, by decide, by decide, by decide,
    by simp [traceOrdered, sending, loaded, opened, State.reset]⟩
theorem test_invariant_of_waiting : Inv waiting :=
  ⟨by decide, by decide, by decide, by decide, by decide, by decide, by decide, by decide, by decide,
    by simp [traceOrdered, waiting, enabled, State.reset]⟩
/-- A step inside a TRANSMIT, inside a delay, and of the idle core right after reset. -/
theorem test_meets_EveryStepKeepsTheInvariant :
    (Inv sending ∧ ∃ t, step sending = .next t) ∧ (Inv waiting ∧ ∃ t, step waiting = .next t) ∧
      ∃ t, step State.reset = .next t :=
  ⟨⟨test_invariant_of_sending, _, rfl⟩, ⟨test_invariant_of_waiting, _, rfl⟩, _, rfl⟩
theorem test_meets_DutifulHostKeepsTheSessionCalm :
    Inv sending ∧ Calm sending ∧ sending.cfg.irqMode ≠ .disableEnable ∧ nextIsDutiful sending = true ∧
      ∃ t, step sending = .next t :=
  ⟨test_invariant_of_sending,
    ⟨fun _ => rfl, fun _ _ _ h => by simp [sending] at h, fun _ _ => rfl, fun _ h => by simp [inHighSegment, sending] at h⟩,
    by decide, by decide, _, rfl⟩
/-- The fault left to such a host is a pixel byte it never wrote. -/
theorem test_meets_DutifulHostRaisesNoMisuseFault :
    Inv aboutToFault ∧ Calm aboutToFault ∧ nextIsDutiful aboutToFault = true ∧
      step aboutToFault = .fault .pixelWithoutValue :=
  ⟨test_invariant_of_aboutToFault,
    ⟨fun _ => rfl, fun _ _ _ h => by simp [aboutToFault, aboutToSend, loaded, opened, State.reset] at h,
      fun _ _ => rfl, fun _ _ => by decide⟩,
    by decide, rfl⟩
/-- The step in which the first LED's first symbol falls. -/
theorem test_meets_SessionRegistersAreWrittenBeforeTheyAreRead :
    Inv sending ∧ Calm sending ∧ nextIsDutiful sending = true ∧
      ∃ t, step sending = .next t ∧ t.trace = sending.trace ++ [.w 101 0x0025 0x10] :=
  ⟨test_invariant_of_sending, test_meets_DutifulHostKeepsTheSessionCalm.2.1,
    test_meets_DutifulHostKeepsTheSessionCalm.2.2.2.1, _, rfl, by decide⟩
theorem test_meets_TransmitIsNeverInterrupted : Inv sending := test_invariant_of_sending
theorem test_meets_InterruptDuringACommand :
    (waiting.ie = true ∧ waiting.heldIrq = [] ∧ (facing waiting (.interrupt 0 7)).inputs = [.interrupt 0 7] ∧
        0 ≤ waiting.cycle ∧ waiting.seq.pos = .dly 5 true) ∧
      ({ sending with ie := true } : State).ie = true ∧ sending.heldIrq = [] ∧
      (facing sending (.interrupt 100 7)).inputs = [.interrupt 100 7] ∧ 100 ≤ sending.cycle ∧
      sending.seq.pos = .tx ⟨⟨1, 0, 2⟩, 0x0100, 1, 0, 0, 0, .h, 1⟩ := by decide
theorem test_meets_RequestsAreHeldWhileDisabled :
    (opened.seq.pos = .idle ∧ opened.ie = false ∧ (facing opened (.interrupt 100 7)).inputs = [.interrupt 100 7] ∧
        100 ≤ opened.cycle) ∧
      (sending.seq.pos ≠ .idle ∧ sending.ie = false ∧ (facing sending (.interrupt 100 7)).inputs = [.interrupt 100 7] ∧
        100 ≤ sending.cycle) ∧
      (enabled.seq.pos = .idle ∧ enabled.ie = true ∧ ({ enabled with heldIrq := [7] } : State).heldIrq = [7]) ∧
      (waiting.seq.pos = .dly 5 true ∧ waiting.ie = true ∧ ({ waiting with heldIrq := [7] } : State).heldIrq = [7]) ∧
      ({ sending with ie := true, heldIrq := [7] } : State).ie = true ∧
      ({ sending with ie := true, heldIrq := [7] } : State).seq.pos =
        .tx ⟨⟨1, 0, 2⟩, 0x0100, 1, 0, 0, 0, .h, 1⟩ := by decide
theorem test_meets_CycleFormOfTransmitAgrees :
    buildable loaded.cfg = true ∧ loaded.seq.pos = .idle ∧ (∃ t, exec (.transmit devA 0x0100 1) loaded = .next t) ∧
      exec (.transmit devA 0x0101 1) loaded = .fault .pixelWithoutValue := ⟨by decide, rfl, ⟨_, rfl⟩, rfl⟩
theorem test_meets_CycleFormOfDelayAgrees :
    (1 ≤ opened.cfg.delayIterCyc ∧ opened.seq.pos = .idle ∧ opened.ie = false ∧ ∃ t, exec (.delayUs 0) opened = .next t) ∧
      enabled.seq.pos = .idle ∧ enabled.cfg.irqMode = .leaveAlone ∧ enabled.ie = true :=
  ⟨⟨by decide, rfl, rfl, _, rfl⟩, rfl, rfl, rfl⟩
theorem test_meets_StepRunsASteppedCommand :
    (loaded.ie = false ∧ loaded.seq.pos = .idle ∧ (facing loaded (.cmdByCycle 0x03)).inputs = [.cmdByCycle 0x03] ∧
        decode .cmd 0x03 loaded.ops = .ok (.close devA)) ∧
      (sending.seq.pos ≠ .idle ∧ sending.ie = false ∧ sending.inputs = []) ∧
      (waiting.seq.pos ≠ .idle ∧ waiting.heldIrq = [] ∧
        (facing waiting (.interrupt 1000 7)).inputs = [.interrupt 1000 7] ∧ waiting.cycle < 1000) :=
  ⟨⟨rfl, rfl, rfl, rfl⟩, ⟨by decide, rfl, rfl⟩, by decide, rfl, rfl, by decide⟩
/-- PREPARE, CLOSE and TRANSMIT of no pixels complete, TRANSMIT while Closed faults, and a malformed handle is refused. -/
theorem test_meets_SteppedCommandAgreesWithTheWholeOne :
    (buildable enabled.cfg = true ∧ withHandle.seq.pos = .idle ∧ withHandle.heldIrq = []) ∧
      (∃ t, step (facing withHandle (.cmd 0x00)) = .next t ∧ t.draws = withHandle.draws + 2) ∧
      (∃ t, step (facing emptyCommand (.cmd 0x01)) = .next t ∧ t.draws = emptyCommand.draws + 2) ∧
      (∃ t, step (facing toClose (.cmd 0x03)) = .next t ∧ t.draws = toClose.draws + 2) ∧
      step (facing withHandle (.cmd 0x01)) = .fault .transmitWhileClosed ∧
      step (facing { withHandle with ops := { withHandle.ops with dev := some devBadMask } } (.cmd 0x00)) =
        .refused .malformedHandle :=
  ⟨⟨by decide, rfl, rfl⟩, ⟨_, rfl, rfl⟩, ⟨_, rfl, rfl⟩, ⟨_, rfl, rfl⟩, rfl, rfl⟩
theorem test_meets_MemoryHoldsWhatTheHostWrote :
    0xFFFF < 2 ^ loaded.cfg.addrW ∧ Memory.wf loaded.mem = true ∧ 2 ^ loaded.cfg.addrW ≤ 0x10000 := by decide
theorem test_meets_DerivedLengthsAreNeverTooShort : 1 ≤ Config.reference.fix0L := by decide

end Sys2Proof.Tests
end

section
/-! PROOFS. Which configurations are cores: Table P1's ranges (R7), the build-time check (R147), and `launch` by way of
both. -/

namespace Sys2Proof.Machine

/-! ### The parts of the build-time check -/

/-- A padding is negative where the fixed cycles alone are longer than the segment (R142, R143). -/
@[simp] theorem pad_neg_iff (n fix : Nat) : pad n fix < 0 ↔ n < fix := by
  unfold pad
  omega

@[simp] theorem lastsAtLeast_iff (c : Config) (n t : Nat) :
    lastsAtLeast c n t = true ↔ t * c.fClk ≤ n * 1000000000 := by
  simp [lastsAtLeast]

/-- R147's conjunction, written without paddings. -/
theorem configError_eq_none_iff (c : Config) : configError c = none ↔
    c.fix1H ≤ c.n1H ∧ c.fix1L ≤ c.n1L ∧ c.fix0H ≤ c.n0H ∧ c.fix0L ≤ c.n0L ∧
      450 * c.fClk ≤ c.n0L * 1000000000 ∧ c.n0H < c.n1H := by
  simp only [configError, pad_neg_iff, Bool.not_eq_true', ← Bool.not_eq_true, lastsAtLeast_iff, Config.t0LMinNs]
  split
  case isTrue hpad => simp only [reduceCtorEq, false_iff]; omega
  case isFalse hpad =>
    split
    case isTrue hlow => simp only [reduceCtorEq, false_iff]; omega
    case isFalse hlow =>
      split
      case isTrue hsym => simp only [reduceCtorEq, false_iff]; omega
      case isFalse hsym => simp only [true_iff]; omega

/-! ### The ranges, and both together -/

theorem inRange_iff (c : Config) : inRange c = true ↔
    1 ≤ c.fClk ∧ 1 ≤ c.fix1H ∧ 1 ≤ c.fix1L ∧ 1 ≤ c.fix0H ∧ 1 ≤ c.fix0L ∧ 1 ≤ c.addrW ∧ 1 ≤ c.countW ∧
      1 ≤ c.delayIterCyc ∧ 1 ≤ c.stripResetUs ∧ c.cfgErrNoDevice ≠ 0 ∧ c.cfgErrPinGroup ≠ 0 ∧
      c.cfgErrNoDevice ≠ c.cfgErrPinGroup := by
  simp only [inRange, Bool.and_eq_true, decide_eq_true_eq, bne_iff_ne, and_assoc]

theorem buildable_iff (c : Config) : buildable c = true ↔ inRange c = true ∧ configError c = none := by
  simp only [buildable, Bool.and_eq_true, beq_iff_eq]

/-! ### Launch -/

theorem launchError_eq_none_iff (c : Config) : launchError c = none ↔ buildable c = true := by
  rw [buildable_iff, launchError]
  by_cases hrange : inRange c = true <;> simp [hrange]

/-- What `launch` answers where it launches: the reset state with the given parameters, for a buildable configuration. -/
theorem launch_eq_ok_iff (c : Config) (s : State) :
    launch c = .ok s ↔ s = { State.reset with cfg := c } ∧ buildable c = true := by
  rw [← launchError_eq_none_iff, launch]
  cases launchError c with
  | none => simp [eq_comm]
  | some e => simp

/-- Settles O55: `launch` answers for exactly the buildable configurations, which are those in Table P1's ranges that
R147's conjunction admits. That there is no core outside the ranges is the model's reading (log 27). -/
theorem onlyFeasibleConfigurationsLaunch : Obligations.OnlyFeasibleConfigurationsLaunch := by
  unfold Obligations.OnlyFeasibleConfigurationsLaunch
  intro c s
  rw [launch_eq_ok_iff, buildable_iff, inRange_iff, configError_eq_none_iff]

end Sys2Proof.Machine
end

section
/-! PROOFS. What a step can be, said once, for the statements about every step: how an operation of the sequencer moves
it, how a stepped command starts, and the step itself; each as the cases that go on. -/

namespace Sys2Proof.Machine

/-! ### What a byte of a format can name -/

theorem takeHandle_eq_ok {o : Operands} {f : Handle → Instr} {i : Instr} :
    takeHandle o f = .ok i ↔ ∃ d, o.dev = some d ∧ f d = i := by
  unfold takeHandle
  cases o.dev <;> simp

theorem and_0x0F_of_high_zero (w : Byte) (h : w &&& 0xF0 = 0) : w &&& 0x0F = w := by
  revert w
  decide

/-- A `CMD` byte that names an operation is one of the four, and the operation takes the populated handle (R91, R108). -/
theorem decodeCmd_eq_ok {w : Byte} {o : Operands} {i : Instr} (h : decodeCmd w o = .ok i) :
    ∃ d, o.dev = some d ∧
      (w = 0x00 ∧ i = .prepare d ∨ w = 0x01 ∧ i = .transmit d o.base o.count ∨ w = 0x02 ∧ i = .waitReset d ∨
        w = 0x03 ∧ i = .close d) := by
  unfold decodeCmd at h
  split at h
  case isTrue => cases h
  case isFalse hw =>
    rw [and_0x0F_of_high_zero w (not_not.1 hw)] at h
    have hval : ∀ n, w.toNat = n → w = BitVec.ofNat 8 n := fun n hn => by rw [← hn, BitVec.ofNat_toNat, BitVec.setWidth_eq]
    split at h
    case h_1 hn =>
      obtain ⟨d, hd, rfl⟩ := takeHandle_eq_ok.1 h
      exact ⟨d, hd, .inl ⟨hval 0 hn, rfl⟩⟩
    case h_2 hn =>
      obtain ⟨d, hd, rfl⟩ := takeHandle_eq_ok.1 h
      exact ⟨d, hd, .inr (.inl ⟨hval 1 hn, rfl⟩)⟩
    case h_3 hn =>
      obtain ⟨d, hd, rfl⟩ := takeHandle_eq_ok.1 h
      exact ⟨d, hd, .inr (.inr (.inl ⟨hval 2 hn, rfl⟩))⟩
    case h_4 hn =>
      obtain ⟨d, hd, rfl⟩ := takeHandle_eq_ok.1 h
      exact ⟨d, hd, .inr (.inr (.inr ⟨hval 3 hn, rfl⟩))⟩
    all_goals cases h

/-- The operations of `COSEL` are COLORTAB's six. -/
theorem decodeCosel_eq_ok {w : Byte} {i : Instr} (h : decodeCosel w = .ok i) :
    i = .colortabRgb ∨ i = .colortabRbg ∨ i = .colortabGrb ∨ i = .colortabGbr ∨ i = .colortabBrg ∨
      i = .colortabBgr := by
  unfold decodeCosel at h
  split at h <;> cases h <;> simp

/-- PREPARE stands at the host's command port only (Table E2). -/
theorem decode_ne_prepare {f : Format} {w : Byte} {o : Operands} (hf : f ≠ .cmd) (d : Handle) :
    decode f w o ≠ .ok (.prepare d) := by
  intro h
  cases f with
  | cmd => exact hf rfl
  | uop =>
    simp only [decode, decodeUop] at h
    split at h
    · cases h
    · split at h
      case h_8 =>
        obtain ⟨_, -, h⟩ := takeHandle_eq_ok.1 h
        cases h
      all_goals cases h
  | bitsel =>
    simp only [decode, decodeBitsel] at h
    split at h <;> cases h
  | cosel => simpa using decodeCosel_eq_ok h

/-! ### A clock cycle of the sequencer -/

/-- The rising edge of the symbol at `p` (R184), past its check. -/
def risen (p : TxPos) (s : State) : State :=
  setPos (.tx { p with phase := .h, rem := highCycles s.cfg (selectsOne s.seq.shreg) }) (pinsHigh s)

theorem risen_pos (p : TxPos) (s : State) : (risen p s).seq.pos =
    .tx { p with phase := .h, rem := highCycles s.cfg (selectsOne s.seq.shreg) } := rfl

theorem riseAt_eq_next {p : TxPos} {s t : State} :
    riseAt p s = .next t ↔ primitiveFault s = none ∧ t = risen p s := by
  rw [riseAt, unlessFault_eq_next, Host.Outcome.next.injEq, eq_comm (b := t), risen]

/-- A byte that is entered: it is read and loaded, and its first symbol rises. -/
theorem enterByte_next {p : TxPos} {s t : State} (h : enterByte p s = .next t) :
    primitiveFault s = none ∧ ∃ u rs, Emission s u [] rs ∧ t = risen p u := by
  obtain ⟨r, hr, h⟩ := chain_eq_next.1 h
  obtain ⟨hp, rfl⟩ := riseAt_eq_next.1 h
  have he := (emission_memRead hr).trans (emission_loadShreg r.1 r.2)
  exact ⟨by rw [← he.primitiveFault_eq, hp], _, _, he, rfl⟩

/-- `q` is a position of the TRANSMIT at `p`, inside its ranges when `p` is (R184). -/
def Follows (p q : TxPos) : Prop :=
  q.order = p.order ∧ q.base = p.base ∧ q.count = p.count ∧
    (p.i < p.count → p.j < 3 → p.k < 8 → q.i < q.count ∧ q.j < 3 ∧ q.k < 8)

/-- Where `advance` goes: to the end, or to the rising edge of the next symbol, a byte read before it perhaps. -/
theorem advance_next {p : TxPos} {s t : State} (h : advance p s = .next t) :
    t = setPos .idle (shiftShreg s) ∨
      primitiveFault s = none ∧ ∃ q u rs, Follows p q ∧ Emission s u [] rs ∧ t = risen q u := by
  have he := emission_shiftShreg s
  have enter : ∀ {q}, Follows p q → enterByte q (shiftShreg s) = .next t →
      primitiveFault s = none ∧ ∃ q u rs, Follows p q ∧ Emission s u [] rs ∧ t = risen q u := by
    intro q hq h
    obtain ⟨hp, u, rs, hu, ht⟩ := enterByte_next h
    exact ⟨by rw [← he.primitiveFault_eq, hp], q, u, _, hq, he.trans hu, ht⟩
  unfold advance at h
  dsimp only at h
  split at h
  case isTrue hk =>
    obtain ⟨hp, ht⟩ := riseAt_eq_next.1 h
    exact .inr ⟨by rw [← he.primitiveFault_eq, hp], { p with k := p.k + 1 }, _, _,
      ⟨rfl, rfl, rfl, fun hi hj _ => ⟨hi, hj, Nat.succ_lt_succ hk⟩⟩, he, ht⟩
  case isFalse =>
    split at h
    case isTrue hj =>
      exact .inr (enter (q := { p with j := p.j + 1, k := 0 })
        ⟨rfl, rfl, rfl, fun hi _ _ => ⟨hi, Nat.succ_lt_succ hj, Nat.succ_pos 7⟩⟩ h)
    case isFalse =>
      split at h
      case isTrue hi =>
        exact .inr (enter (q := { p with i := p.i + 1, j := 0, k := 0 })
          ⟨rfl, rfl, rfl, fun _ _ _ => ⟨hi, Nat.succ_pos 2, Nat.succ_pos 7⟩⟩ h)
      case isFalse =>
        cases h
        exact .inl rfl

/-- What a clock cycle of a command in progress does (R41, R184). -/
inductive Ticked (s : State) : State → Prop where
  /-- A cycle of a segment or gap that goes on. -/
  | counted (p : TxPos) (hs : s.seq.pos = .tx p) (hr : 1 < p.rem) :
    Ticked s (setPos (.tx { p with rem := p.rem - 1 }) (wait 1 s))
  /-- The last cycle of a high segment: the pins fall. -/
  | fell (p : TxPos) (hs : s.seq.pos = .tx p) (hl : p.phase = .h) : Ticked s (fallAt p (wait 1 s))
  /-- The last cycle of a low segment that a gap follows. -/
  | gapped (p : TxPos) (hs : s.seq.pos = .tx p) (hl : p.phase = .l) (hg : 0 < gapAfter s.cfg p.j p.k) :
    Ticked s (setPos (.tx { p with phase := .g, rem := gapAfter s.cfg p.j p.k }) (wait 1 s))
  /-- The last cycle of a symbol that another follows. -/
  | rose (p q : TxPos) (u : State) (rs : List (Nat × Nat × Byte)) (hs : s.seq.pos = .tx p) (hf : Follows p q)
    (he : Emission s u [] rs) (hl : p.phase ≠ .h) : Ticked s (risen q u)
  /-- The last cycle of the last symbol. -/
  | finished (p : TxPos) (hs : s.seq.pos = .tx p) (hl : p.phase ≠ .h) :
    Ticked s (setPos .idle (shiftShreg (wait 1 s)))
  /-- A cycle of a delay that goes on. -/
  | waitedOn (rem : Nat) (saved : Bool) (hs : s.seq.pos = .dly rem saved) (hr : 1 < rem) :
    Ticked s (setPos (.dly (rem - 1) saved)
      (loadDly (min s.seq.dly (ceilDiv (rem - 1) s.cfg.delayIterCyc)) (wait 1 s)))
  /-- The last cycle of a delay. -/
  | woke (rem : Nat) (saved : Bool) (hs : s.seq.pos = .dly rem saved) : Ticked s (endDelay saved (wait 1 s))

theorem advance_ticked {p : TxPos} {s t : State} (hs : s.seq.pos = .tx p) (hl : p.phase ≠ .h)
    (h : advance p (wait 1 s) = .next t) : Ticked s t := by
  rcases advance_next h with rfl | ⟨-, q, u, rs, hf, he, rfl⟩
  · exact .finished p hs hl
  · exact .rose p q u rs hs hf ((emission_wait 1 s).trans he) hl

theorem tick_ticked {s t : State} (hp : s.seq.pos ≠ .idle) (h : tick s = .next t) : Ticked s t := by
  unfold tick at h
  split at h
  case h_1 hs => exact absurd hs hp
  case h_2 p hs =>
    unfold tickTx at h
    dsimp only at h
    split at h
    case isTrue hr => cases h; exact .counted p hs hr
    case isFalse =>
      split at h
      case h_1 hl => cases h; exact .fell p hs hl
      case h_2 hl =>
        split at h
        case isTrue hg => cases h; exact .gapped p hs hl hg
        case isFalse => exact advance_ticked hs (by simp [hl]) h
      case h_3 hg => exact advance_ticked hs (by simp [hg]) h
  case h_3 rem saved hs =>
    cases h
    unfold tickDly
    dsimp only
    split
    case isTrue => exact .woke rem saved hs
    case isFalse hr => exact .waitedOn rem saved hs (Nat.lt_of_not_le hr)

/-! ### The start of a command that is stepped -/

/-- What the start of a command, to be stepped, does (R184). -/
inductive Started (i : Instr) (s : State) : State → Prop where
  /-- The operation is complete at once. -/
  | executed (t : State) (h : exec i s = .next t) : Started i s t
  /-- A TRANSMIT reads its first byte and raises the first symbol. -/
  | rose (d : Handle) (base count : Nat) (u : State) (rs : List (Nat × Nat × Byte)) (hi : i = .transmit d base count)
    (hd : wfDev d = true) (hr : base + 3 * count ≤ 2 ^ s.cfg.addrW) (hc : 0 < count) (hp : primitiveFault s = none)
    (he : Emission s u [] rs) :
    Started i s (risen ⟨d.order, base, count, 0, 0, 0, .h, 0⟩ u)
  /-- WAIT_RESET starts its wait. -/
  | waiting (d : Handle) (hi : i = .waitReset d) : Started i s (startDelay d.resetUs s)
  /-- CLOSE while Prepared closes the session and starts its wait. -/
  | closing (d : Handle) (hi : i = .close d) (ho : s.ses.isOpen = true) :
    Started i s (startDelay d.resetUs (closeSession s))

theorem fitsMemory_iff {c : Config} {base count : Nat} :
    fitsMemory c base count = true ↔ count = 0 ∨ base + 3 * count ≤ 2 ^ c.addrW := by
  simp [fitsMemory]

theorem startTransmit_started {d : Handle} {base count : Nat} {s t : State}
    (h : startTransmit d base count s = .next t) : Started (.transmit d base count) s t := by
  obtain ⟨hd, h⟩ := admitHandle_eq_next.1 h
  obtain ⟨hr, h⟩ := admitRange_eq_next.1 h
  obtain ⟨hf, h⟩ := unlessFault_eq_next.1 h
  by_cases hc : count = 0
  · subst hc
    exact .executed t (admitHandle_eq_next.2 ⟨hd, admitRange_eq_next.2 ⟨hr, unlessFault_eq_next.2 ⟨hf, h⟩⟩⟩)
  · rw [if_neg hc] at h
    obtain ⟨hp, u, rs, he, rfl⟩ := enterByte_next h
    exact .rose d base count u rs rfl hd ((fitsMemory_iff.1 hr).resolve_left hc) (Nat.pos_of_ne_zero hc) hp he

theorem startCommand_started {i : Instr} {s t : State} (h : startCommand i s = .next t) : Started i s t := by
  cases i
  case transmit d base count => exact startTransmit_started h
  case waitReset d =>
    obtain ⟨-, h⟩ := admitHandle_eq_next.1 h
    cases h
    exact .waiting d rfl
  case close d =>
    obtain ⟨hd, h⟩ := admitHandle_eq_next.1 h
    split at h
    case isTrue ho => cases h; exact .closing d rfl ho
    case isFalse ho =>
      refine .executed t (admitHandle_eq_next.2 ⟨hd, ?_⟩)
      rw [if_neg ho, h]
  all_goals exact .executed t h

/-! ### A step -/

/-- A command that was retired or goes on. -/
theorem settle_next {o : Result State} {t : State} (h : settle o = .next t) :
    ∃ v, o = .next v ∧ (v.seq.pos = .idle ∧ t = retire v ∨ v.seq.pos ≠ .idle ∧ t = v) := by
  obtain ⟨v, rfl, -⟩ := chain_eq_next.1 h
  refine ⟨v, rfl, ?_⟩
  by_cases hv : v.seq.pos = .idle
  · rw [settle_idle hv] at h
    cases h
    exact .inl ⟨hv, rfl⟩
  · rw [settle_busy hv] at h
    cases h
    exact .inr ⟨hv, rfl⟩

/-- The state a command is run or started from: the input taken, `CMD` latched, `BUSY` set and the overhead passed. -/
def accepted (w : Byte) (rest : List Input) (s : State) : State := accept (latchCmd w { s with inputs := rest })

/-- Everything a step that goes on can be. -/
inductive Stepped (s : State) : State → Prop where
  /-- Time passes; an interrupt request may be taken, or held back. -/
  | passed (x y : Nat) (ins : List Input) (held : List Nat) (hx : s.cycle ≤ x)
    (hins : ins = s.inputs ∨ ∃ c n, s.inputs = .interrupt c n :: ins) :
    Stepped s { s with cycle := x, draws := y, inputs := ins, heldIrq := held }
  /-- A clock cycle of a command in progress. -/
  | cycled (t : State) (hp : s.seq.pos ≠ .idle) (h : settle (tick s) = .next t) : Stepped s t
  /-- A command runs to completion. -/
  | commanded (w : Byte) (rest : List Input) (i : Instr) (t : State) (hp : s.seq.pos = .idle)
    (hin : s.inputs = .cmd w :: rest) (hd : decode .cmd w s.ops = .ok i)
    (h : exec i (accepted w rest s) = .next t) : Stepped s (retire t)
  /-- A command starts, to be stepped. -/
  | started (w : Byte) (rest : List Input) (i : Instr) (t : State) (hp : s.seq.pos = .idle)
    (hin : s.inputs = .cmdByCycle w :: rest) (hd : decode .cmd w s.ops = .ok i)
    (h : settle (startCommand i (accepted w rest s)) = .next t) : Stepped s t
  /-- A micro-operation or a lookup runs. -/
  | operated (f : Format) (w : Byte) (rest : List Input) (i : Instr) (t : State) (hp : s.seq.pos = .idle)
    (hf : f ≠ .cmd) (hin : s.inputs = presenting f w :: rest) (hd : decode f w s.ops = .ok i)
    (h : exec i { s with inputs := rest } = .next t) : Stepped s t
  /-- The host thread acts. -/
  | acted (a : HostAct) (rest : List Input) (t : State) (hp : s.seq.pos = .idle)
    (hin : s.inputs = .host a :: rest) (h : hostAct a { s with inputs := rest } = .next t) : Stepped s t

theorem takeIrq_next {n : Nat} {s t : State} (h : takeIrq n s = .next t) : t = wait n s := by
  unfold takeIrq at h
  split at h <;> cases h <;> rfl

theorem requestIrq_next {n : Nat} {s t : State} (h : requestIrq n s = .next t) : t = wait n s ∨ t = holdIrq n s := by
  unfold requestIrq at h
  split at h
  · exact .inl (takeIrq_next h)
  · cases h
    exact .inr rfl

theorem heldRequest_eq_some {s : State} {r : Nat × State} (h : heldRequest s = some r) :
    s.ie = true ∧ ∃ held, r.2 = { s with heldIrq := held } := by
  unfold heldRequest at h
  split at h
  · cases h
  · split at h
    case isTrue hie => cases h; exact ⟨hie, _, rfl⟩
    case isFalse => cases h

theorem arrivingRequest_eq_some {s : State} {r : Nat × State} (h : arrivingRequest s = some r) :
    ∃ c rest, s.inputs = .interrupt c r.1 :: rest ∧ r.2 = { s with inputs := rest } := by
  unfold arrivingRequest at h
  split at h
  case h_2 c n rest hin =>
    split at h
    case isTrue => cases h; exact ⟨c, rest, hin, rfl⟩
    case isFalse => cases h
  all_goals cases h

theorem stepBusy_stepped {s t : State} (hp : s.seq.pos ≠ .idle) (h : stepBusy s = .next t) : Stepped s t := by
  unfold stepBusy at h
  split at h
  case h_1 r hr =>
    obtain ⟨c, rest, hin, hs⟩ := arrivingRequest_eq_some hr
    rw [hs] at h
    rcases requestIrq_next h with rfl | rfl
    · exact .passed _ _ rest s.heldIrq (Nat.le_add_right _ _) (.inr ⟨c, _, hin⟩)
    · exact .passed s.cycle _ rest _ (Nat.le_refl _) (.inr ⟨c, _, hin⟩)
  case h_2 => exact .cycled t hp h

theorem issue_eq_next {f : Format} {w : Byte} {s t : State} :
    issue f w s = .next t ↔ ∃ i, decode f w s.ops = .ok i ∧ finishOp f (exec i (beginOp f s)) = .next t := by
  unfold issue
  cases decode f w s.ops <;> simp

theorem issueByCycle_eq_next {w : Byte} {s t : State} :
    issueByCycle w s = .next t ↔ ∃ i, decode .cmd w s.ops = .ok i ∧ settle (startCommand i (accept s)) = .next t := by
  unfold issueByCycle
  cases decode .cmd w s.ops <;> simp

theorem stepIdle_stepped {s t : State} (hp : s.seq.pos = .idle) (h : stepIdle s = .next t) : Stepped s t := by
  unfold stepIdle at h
  split at h
  case h_1 => cases h; exact .passed _ _ s.inputs s.heldIrq (Nat.le_add_right _ _) (.inl rfl)
  case h_2 inp rest hin =>
    cases inp with
    | cmd w =>
      obtain ⟨i, hd, h⟩ := issue_eq_next.1 h
      obtain ⟨v, hv, h⟩ := chain_eq_next.1 h
      cases h
      exact .commanded w rest i v hp hin hd hv
    | cmdByCycle w =>
      obtain ⟨i, hd, h⟩ := issueByCycle_eq_next.1 h
      exact .started w rest i t hp hin hd h
    | uop w =>
      obtain ⟨i, hd, h⟩ := issue_eq_next.1 h
      exact .operated .uop w rest i t hp (by decide) hin hd h
    | bitsel =>
      obtain ⟨i, hd, h⟩ := issue_eq_next (f := .bitsel) (s := { s with inputs := rest }).1 h
      exact .operated .bitsel _ rest i t hp (by decide) hin hd h
    | cosel w =>
      obtain ⟨i, hd, h⟩ := issue_eq_next.1 h
      exact .operated .cosel w rest i t hp (by decide) hin hd h
    | host a => exact .acted a rest t hp hin h
    | interrupt c n =>
      rcases requestIrq_next h with rfl | rfl
      · exact .passed _ _ rest s.heldIrq (Nat.le_trans (Nat.le_add_right _ (c - s.cycle)) (Nat.le_add_right _ n))
          (.inr ⟨c, n, hin⟩)
      · exact .passed _ _ rest _ (Nat.le_add_right _ (c - s.cycle)) (.inr ⟨c, n, hin⟩)

/-- The step that goes on, taken apart. -/
theorem step_stepped {s t : State} (h : step s = .next t) : Stepped s t := by
  unfold step at h
  split at h
  case h_1 r hr =>
    obtain ⟨-, held, hs⟩ := heldRequest_eq_some hr
    rw [hs] at h
    rw [takeIrq_next h]
    exact .passed _ _ s.inputs held (Nat.le_add_right _ _) (.inl rfl)
  case h_2 =>
    split at h
    case h_1 hp => exact stepIdle_stepped hp h
    case h_2 p hp => exact stepBusy_stepped (by simp [hp]) h
    case h_3 rem saved hp => exact stepBusy_stepped (by simp [hp]) h

end Sys2Proof.Machine
end

section
/-! PROOFS. The invariant of every run (O46): each case of a step keeps `Inv`. -/

namespace Sys2Proof.Machine

variable {s t u v : State}

/-! ### The frames of the stepped delay -/

/-- The end of a delay: idle, `SEQ.DLY` 0, `IE` as it was, as it was saved, or as `disable_enable` has it. -/
theorem endDelay_frame (saved : Bool) (s : State) :
    ∃ v es, endDelay saved s = { s with ie := v, trace := es, seq := { s.seq with pos := .idle, dly := 0 } } ∧
      (v = s.ie ∨ v = saved ∨ s.cfg.irqMode = .disableEnable) :=
  irqLeave_frame saved (setPos .idle (loadDly 0 s))

/-- The start of a delay: the sequencer is idle again, or at the first of the delay's cycles. -/
theorem startDelay_frame (n : Nat) (s : State) :
    ∃ v es p m, startDelay n s = { s with ie := v, trace := es, seq := { s.seq with pos := p, dly := m } } ∧
      (p = .idle ∨ p = .dly (delayCycles s.cfg n) s.ie ∧ m = iters s.cfg n ∧ 0 < delayCycles s.cfg n) ∧
      (v = s.ie ∨ v = false ∨ s.cfg.irqMode = .disableEnable) := by
  obtain ⟨x, es, hx, hv⟩ := irqEnter_frame s
  unfold startDelay
  dsimp only
  split
  case isTrue =>
    obtain ⟨y, fs, hy, hw⟩ := endDelay_frame s.ie (loadDly (iters s.cfg n) (irqEnter s))
    rw [hy, hx]
    rw [hx] at hw
    refine ⟨y, fs, .idle, 0, rfl, .inl rfl, ?_⟩
    rcases hw with rfl | hw | hw
    · exact hv.imp_right .inl
    · exact .inl hw
    · exact .inr (.inr hw)
  case isFalse h0 =>
    rw [hx]
    exact ⟨x, es, _, _, rfl, .inr ⟨rfl, rfl, Nat.pos_of_ne_zero h0⟩, hv.imp_right .inl⟩

/-! ### Every part of a step grows the run -/

theorem grows_risen {rs : List (Nat × Nat × Byte)} (q : TxPos) (he : Emission s u [] rs) : Grows s (risen q u) :=
  he.grows.trans ((grows_pinsHigh u).trans (grows_setPos _ _) rfl) (by rw [he.ses_eq])

theorem Ticked.grows (h : Ticked s t) : Grows s t := by
  have hw := grows_wait 1 s
  cases h with
  | counted p hs hr => exact hw.trans (grows_setPos _ _) rfl
  | fell p hs => exact hw.trans ((grows_pinsLow _).trans (grows_setPos _ _) rfl) rfl
  | gapped p hs hl hg => exact hw.trans (grows_setPos _ _) rfl
  | rose p q u rs hs hf he => exact grows_risen q he
  | finished p hs hl => exact hw.trans ((grows_loadShreg _ _).trans (grows_setPos _ _) rfl) rfl
  | waitedOn rem saved hs hr => exact hw.trans ((grows_loadDly _ _).trans (grows_setPos _ _) rfl) rfl
  | woke rem saved hs => exact hw.trans (grows_endDelay saved _) rfl

theorem grows_startDelay (n : Nat) (s : State) : Grows s (startDelay n s) := by
  have he : Grows s (loadDly (iters s.cfg n) (irqEnter s)) := by
    obtain ⟨x, es, hx, -⟩ := irqEnter_frame s
    exact (grows_irqEnter s).trans (grows_loadDly _ _) (by rw [hx])
  have hp : (loadDly (iters s.cfg n) (irqEnter s)).ses.cPort = s.ses.cPort := by
    obtain ⟨x, es, hx, -⟩ := irqEnter_frame s
    rw [hx]
    rfl
  unfold startDelay
  dsimp only
  split
  · exact he.trans (grows_endDelay _ _) hp
  · exact he.trans (grows_setPos _ _) hp

theorem Started.grows {i : Instr} (h : Started i s t) : Grows s t := by
  cases h with
  | executed t h => exact grows_exec h
  | rose d base count u rs hi hd hr hc hp he => exact grows_risen _ he
  | waiting d hi => exact grows_startDelay _ s
  | closing d hi ho => exact (grows_closeSession s).trans (grows_startDelay _ _) rfl

theorem grows_accepted (w : Byte) (rest : List Input) (s : State) : Grows s (accepted w rest s) :=
  Grows.quiet (Nat.le_add_right _ _) rfl rfl rfl rfl rfl

/-- The overhead after a command. -/
theorem Grows.retired (h : Grows s t) : Grows s (retire t) where
  later := Nat.le_trans h.later (Nat.le_add_right _ _)
  cfg_eq := h.cfg_eq
  mem_eq := h.mem_eq
  ops_eq := h.ops_eq
  wf := h.wf
  inside := h.inside
  events := by
    obtain ⟨es, ht, hp, hr⟩ := h.events
    exact ⟨es, ht, hp, fun e he => ⟨(hr e he).1, Nat.le_trans (hr e he).2 (Nat.le_add_right _ _)⟩⟩

/-! ### The session -/

theorem sessionOk_iff {c : Config} {x : Session} : sessionOk c x = true ↔
    x.cPort < 2 ^ c.addrW ∧ x.cMaskLo = ~~~x.cMaskHi ∧ (x.isOpen = true → x.written = true) := by
  simp only [sessionOk, Bool.and_eq_true, decide_eq_true_eq, beq_iff_eq, Bool.or_eq_true, Bool.not_eq_true', and_assoc]
  cases x.isOpen <;> simp

theorem wfDev_iff {d : Handle} : wfDev d = true ↔ d.maskLo = ~~~d.maskHi ∧ permutes d.order = true := by
  simp only [wfDev, Bool.and_eq_true, beq_iff_eq]

theorem sessionOk_closed {c : Config} {x : Session} (h : sessionOk c x = true) :
    sessionOk c { x with isOpen := false } = true := by
  obtain ⟨hp, hm, -⟩ := sessionOk_iff.1 h
  exact sessionOk_iff.2 ⟨hp, hm, by simp⟩

theorem delay_ports (n : Nat) (s : State) : (delay n s).ports = s.ports := by
  obtain ⟨x, y, es, h, -⟩ := delay_frame n s
  rw [h]

theorem delay_ses (n : Nat) (s : State) : (delay n s).ses = s.ses := by
  obtain ⟨x, y, es, h, -⟩ := delay_frame n s
  rw [h]

/-- An operation keeps the session's fields well-formed, where the port of a handle it prepares exists. -/
theorem exec_sessionOk {i : Instr} (h : exec i s = .next t) (hs : sessionOk s.cfg s.ses = true)
    (hd : ∀ d, i = .prepare d → d.port < 2 ^ s.cfg.addrW) : sessionOk s.cfg t.ses = true := by
  cases exec_done h with
  | nothing => exact hs
  | opened d hi hw ho =>
    exact sessionOk_iff.2 ⟨hd d hi, (wfDev_iff.1 hw).1, fun _ => rfl⟩
  | closed d hi ho => rw [delay_ses]; exact sessionOk_closed hs
  | waited n hi => rw [delay_ses]; exact hs
  | emitted es rs t he => rw [he.ses_eq]; exact hs
  | answered o hi ho => exact hs

/-- The control of the core: where the sequencer is, `BUSY`, `CMD`, what is to come and what is held back. -/
def SameControl (s t : State) : Prop :=
  t.seq.pos = s.seq.pos ∧ t.busy = s.busy ∧ t.cmd = s.cmd ∧ t.inputs = s.inputs ∧ t.heldIrq = s.heldIrq

theorem delay_control (n : Nat) (s : State) : SameControl s (delay n s) := by
  obtain ⟨x, y, es, h, -⟩ := delay_frame n s
  rw [h]
  exact ⟨rfl, rfl, rfl, rfl, rfl⟩

/-- No operation moves the control of the core: that is the step's. -/
theorem exec_control {i : Instr} (h : exec i s = .next t) : SameControl s t := by
  cases exec_done h with
  | nothing => exact ⟨rfl, rfl, rfl, rfl, rfl⟩
  | opened d => exact ⟨rfl, rfl, rfl, rfl, rfl⟩
  | closed d => exact delay_control d.resetUs (closeSession s)
  | waited n => exact delay_control n s
  | emitted es rs t he => rw [he.frame]; exact ⟨rfl, rfl, rfl, rfl, rfl⟩
  | answered o => exact ⟨rfl, rfl, rfl, rfl, rfl⟩

theorem exec_pos {i : Instr} (h : exec i s = .next t) : t.seq.pos = s.seq.pos := (exec_control h).1

theorem exec_busy {i : Instr} (h : exec i s = .next t) : t.busy = s.busy := (exec_control h).2.1

theorem operandsFit_port {c : Config} {o : Operands} {d : Handle} (h : operandsFit c o = true) (hd : o.dev = some d) :
    d.port < 2 ^ c.addrW := by
  simp only [operandsFit, hd, Bool.and_eq_true, decide_eq_true_eq] at h
  exact h.1.1.1.1.1

/-- The handle that a decoded PREPARE names stands in the operand register, so its port exists. -/
theorem decode_prepare_port {c : Config} {w : Byte} {o : Operands} {i : Instr} (hd : decode .cmd w o = .ok i)
    (ho : operandsFit c o = true) (d : Handle) (hi : i = .prepare d) : d.port < 2 ^ c.addrW := by
  subst hi
  obtain ⟨d', hdev, hc⟩ := decodeCmd_eq_ok hd
  obtain ⟨-, h⟩ | ⟨-, h⟩ | ⟨-, h⟩ | ⟨-, h⟩ := hc <;> cases h
  exact operandsFit_port ho hdev

/-! ### The position -/

theorem positionOk_idle (h : s.seq.pos = .idle) : positionOk s = true := by
  simp [positionOk, h]

theorem busyAgrees_idle (h : s.seq.pos = .idle) : busyAgrees s = !s.busy := by
  simp [busyAgrees, h]

theorem busyAgrees_busy (h : s.seq.pos ≠ .idle) : busyAgrees s = s.busy := by
  unfold busyAgrees
  split
  case h_1 hp => exact absurd hp h
  all_goals rfl

theorem highCycles_pos {c : Config} (h : buildable c = true) (one : Bool) : 1 ≤ highCycles c one := by
  obtain ⟨h1, -, h0, -⟩ := buildable_lengths h
  cases one
  · exact h0
  · exact h1

theorem lowCycles_pos {c : Config} (h : buildable c = true) (one : Bool) : 1 ≤ lowCycles c one := by
  obtain ⟨-, h1, -, h0, -⟩ := buildable_lengths h
  cases one
  · exact h0
  · exact h1

/-- A position in its ranges of the same TRANSMIT is in order where one was before. -/
theorem Follows.positionOk {p q : TxPos} (hf : Follows p q) (hs : s.seq.pos = .tx p) (hok : positionOk s = true)
    (ht : t.seq.pos = .tx q) (hc : t.cfg = s.cfg) (hses : t.ses = s.ses) (hie : t.ie = s.ie) (hr : 1 ≤ q.rem) :
    positionOk t = true := by
  obtain ⟨hi, hj, hk, -, hb, ho, hm⟩ := (positionOk_tx hs).1 hok
  obtain ⟨fo, fb, fc, fr⟩ := hf
  obtain ⟨qi, qj, qk⟩ := fr hi hj hk
  rw [positionOk_tx ht, hc, hses, hie, fo, fb, fc]
  exact ⟨fc ▸ qi, qj, qk, hr, hb, ho, hm⟩

/-- A segment's length and phase are no part of where it stands. -/
theorem Follows.segment (p : TxPos) (f : Phase) (r : Nat) : Follows p { p with phase := f, rem := r } :=
  ⟨rfl, rfl, rfl, fun hi hj hk => ⟨hi, hj, hk⟩⟩

theorem ceilDiv_mul_lt (a : Nat) {b : Nat} (hb : 1 ≤ b) : ceilDiv a b * b < a + b := by
  have := Nat.div_mul_le_self (a + b - 1) b
  unfold ceilDiv
  omega

/-- Every clock cycle leaves `SEQ.POS` in its ranges: the symbols of a TRANSMIT follow each other inside it, and `SEQ.DLY`
counts the turns of the loop that the cycles left still hold (R40, R41). -/
theorem Ticked.positionOk (h : Ticked s t) (hb : buildable s.cfg = true) (hok : positionOk s = true) :
    positionOk t = true := by
  cases h with
  | counted p hs hr => exact (Follows.segment p p.phase _).positionOk hs hok rfl rfl rfl rfl (Nat.le_sub_one_of_lt hr)
  | fell p hs => exact (Follows.segment p .l _).positionOk hs hok rfl rfl rfl rfl (lowCycles_pos hb _)
  | gapped p hs hl hg => exact (Follows.segment p .g _).positionOk hs hok rfl rfl rfl rfl hg
  | rose p q u rs hs hf he =>
    have hr : 1 ≤ highCycles u.cfg (selectsOne u.seq.shreg) := highCycles_pos (by rw [he.cfg_eq]; exact hb) _
    have hf' : Follows p { q with phase := .h, rem := highCycles u.cfg (selectsOne u.seq.shreg) } := hf
    exact hf'.positionOk hs hok (risen_pos q u) he.cfg_eq he.ses_eq he.ie_eq hr
  | finished p hs hl => rfl
  | waitedOn rem saved hs hr =>
    refine (positionOk_dly rfl).2 ⟨Nat.le_sub_one_of_lt hr, ?_⟩
    obtain ⟨-, -, -, -, -, hd⟩ := buildable_lengths hb
    exact Nat.lt_of_le_of_lt (Nat.mul_le_mul_right _ (Nat.min_le_right _ _)) (ceilDiv_mul_lt (rem - 1) hd)
  | woke rem saved hs =>
    obtain ⟨v, es, hv, -⟩ := endDelay_frame saved (wait 1 s)
    rw [hv]
    rfl

theorem startDelay_positionOk (n : Nat) (hb : buildable s.cfg = true) : positionOk (startDelay n s) = true := by
  obtain ⟨v, es, p, m, h, hp, -⟩ := startDelay_frame n s
  rw [h]
  obtain rfl | ⟨rfl, rfl, h0⟩ := hp
  · rfl
  · obtain ⟨-, -, -, -, -, hd⟩ := buildable_lengths hb
    refine (positionOk_dly rfl).2 ⟨h0, ?_⟩
    simp only [delayCycles]
    omega

/-! ### The start of a stepped command -/

theorem startDelay_ses_busy (n : Nat) (s : State) :
    (startDelay n s).ses = s.ses ∧ (startDelay n s).busy = s.busy := by
  obtain ⟨v, es, p, m, h, -⟩ := startDelay_frame n s
  rw [h]
  exact ⟨rfl, rfl⟩

theorem Started.busy {i : Instr} (h : Started i s t) : t.busy = s.busy := by
  cases h with
  | executed t h => exact (exec_busy h)
  | rose d base count u rs hi hd hr hc hp he =>
    show u.busy = s.busy
    rw [he.frame]
  | waiting d hi => exact (startDelay_ses_busy _ s).2
  | closing d hi ho => exact (startDelay_ses_busy _ (closeSession s)).2

theorem Started.sessionOk {i : Instr} (h : Started i s t) (hs : sessionOk s.cfg s.ses = true)
    (hd : ∀ d, i = .prepare d → d.port < 2 ^ s.cfg.addrW) : sessionOk s.cfg t.ses = true := by
  cases h with
  | executed t h => exact exec_sessionOk h hs hd
  | rose d base count u rs hi hw hr hc hp he => exact he.ses_eq ▸ hs
  | waiting d hi => rw [(startDelay_ses_busy _ s).1]; exact hs
  | closing d hi ho => rw [(startDelay_ses_busy _ _).1]; exact sessionOk_closed hs

theorem Started.positionOk {i : Instr} (h : Started i s t) (hb : buildable s.cfg = true) (hi : s.seq.pos = .idle) :
    positionOk t = true := by
  cases h with
  | executed t h => exact positionOk_idle ((exec_pos h).trans hi)
  | rose d base count u rs _ hd hr hc hp he =>
    obtain ⟨-, ho⟩ := wfDev_iff.1 hd
    obtain ⟨hie, hx⟩ := primitiveFault_eq_none.1 hp
    rw [← he.cfg_eq] at hb hr hx
    rw [← he.ie_eq] at hie
    rw [← he.ses_eq] at hx
    have hrem : 1 ≤ highCycles u.cfg (selectsOne u.seq.shreg) := highCycles_pos hb _
    exact (positionOk_tx (risen_pos _ u)).2 ⟨hc, Nat.succ_pos 2, Nat.succ_pos 7, hrem, hr, ho, hie, hx⟩
  | waiting d _ => exact startDelay_positionOk _ hb
  | closing d _ ho => exact startDelay_positionOk (s := closeSession s) _ hb

/-! ### The invariant, from what a part of a step did -/

theorem Grows.inv (hg : Grows s t) (hs : Inv s) (hses : sessionOk s.cfg t.ses = true) (hpos : positionOk t = true)
    (hbusy : busyAgrees t = true) : Inv t where
  config := by rw [hg.cfg_eq]; exact hs.config
  memory := by rw [hg.mem_eq]; exact hs.memory
  memInside := by rw [hg.cfg_eq, hg.mem_eq]; exact hs.memInside
  ports := hg.wf hs.ports
  portsInside := by rw [hg.cfg_eq]; exact hg.inside (sessionOk_iff.1 hs.session).1 hs.portsInside
  operands := by rw [hg.cfg_eq, hg.ops_eq]; exact hs.operands
  session := by rw [hg.cfg_eq]; exact hses
  position := hpos
  busy := hbusy
  trace := hg.traceOrdered hs.trace

/-- A stepped command that goes on, or is retired, when `v` is what the sequencer came to. -/
theorem Grows.inv_settle (hg : Grows s v) (hs : Inv s) (hses : sessionOk s.cfg v.ses = true)
    (hpos : positionOk v = true) (hbusy : v.busy = true) (h : settle (.next v) = .next t) : Inv t := by
  obtain ⟨w, hw, hcase⟩ := settle_next h
  cases hw
  obtain ⟨hv, rfl⟩ | ⟨hv, rfl⟩ := hcase
  · exact hg.retired.inv hs hses (positionOk_idle hv) (busyAgrees_idle (s := retire v) hv)
  · exact hg.inv hs hses hpos ((busyAgrees_busy hv).trans hbusy)

/-! ### The host's acts -/

theorem keepBits_lt (w n : Nat) : keepBits w n < 2 ^ w := Nat.mod_lt _ (Nat.two_pow_pos w)

theorem insideSpace_eq_next {c : Config} {a : Nat} {go : State} :
    insideSpace c a go = .next t ↔ a < 2 ^ c.addrW ∧ go = t := by
  unfold insideSpace
  split <;> simp_all

theorem cellsInside_write_mem {c : Config} {a : Nat} {x : Byte} {m : Memory} (ha : a < 2 ^ c.addrW)
    (h : cellsInside c m = true) : cellsInside c (Memory.write a x m) = true := by
  simp only [cellsInside, List.all_eq_true, decide_eq_true_eq] at h ⊢
  intro e he
  rcases Cells.mem_of_mem_put he with rfl | he
  · exact ha
  · exact h e he

theorem operandsFit_iff {c : Config} {o : Operands} : operandsFit c o = true ↔
    (∀ d, o.dev = some d → d.port < 2 ^ c.addrW ∧ d.resetUs < 2 ^ delayBits c) ∧ o.base < 2 ^ c.addrW ∧
      o.count < 2 ^ c.countW ∧ o.uaddr < 2 ^ c.addrW ∧ o.un < 2 ^ delayBits c := by
  simp only [operandsFit, Bool.and_eq_true, decide_eq_true_eq, and_assoc]
  cases o.dev <;> simp [and_assoc]

/-- An act of the host thread keeps the invariant: an address outside the space is refused, and an operand register holds
the bits of its width. -/
theorem hostAct_inv {a : HostAct} (h : hostAct a s = .next t) (hs : Inv s) (hp : s.seq.pos = .idle) : Inv t := by
  obtain ⟨hdev, hbase, hcount, huaddr, hun⟩ := operandsFit_iff.1 hs.operands
  cases a with
  | writeMem a x =>
    obtain ⟨ha, rfl⟩ := insideSpace_eq_next.1 h
    exact { hs with memory := Memory.wf_write hs.memory, memInside := cellsInside_write_mem ha hs.memInside }
  | writePort a x =>
    obtain ⟨ha, rfl⟩ := insideSpace_eq_next.1 h
    exact { hs with ports := Ports.wf_write hs.ports, portsInside := cellsInside_write ha hs.portsInside }
  | writeIe x =>
    cases h
    exact { hs with position := positionOk_idle hp }
  | elapse n =>
    cases h
    exact (grows_wait n s).inv hs hs.session hs.position hs.busy
  | setHandle d =>
    cases h
    have hlatched : ∀ e, some (latchHandle s.cfg d) = some e →
        e.port < 2 ^ s.cfg.addrW ∧ e.resetUs < 2 ^ delayBits s.cfg := by
      rintro _ ⟨⟩
      exact ⟨keepBits_lt _ _, keepBits_lt _ _⟩
    exact { hs with operands := operandsFit_iff.2 ⟨hlatched, hbase, hcount, huaddr, hun⟩ }
  | setBase n =>
    cases h
    exact { hs with operands := operandsFit_iff.2 ⟨hdev, keepBits_lt _ _, hcount, huaddr, hun⟩ }
  | setCount n =>
    cases h
    exact { hs with operands := operandsFit_iff.2 ⟨hdev, hbase, keepBits_lt _ _, huaddr, hun⟩ }
  | setMicro b a n =>
    cases h
    exact { hs with operands := operandsFit_iff.2 ⟨hdev, hbase, hcount, keepBits_lt _ _, keepBits_lt _ _⟩ }

/-! ### The step -/

/-- Settles O46, case by case of what a step can be. -/
theorem everyStepKeepsTheInvariant : Obligations.EveryStepKeepsTheInvariant := by
  unfold Obligations.EveryStepKeepsTheInvariant
  intro s t hs hstep
  have hpre : ∀ {w i}, decode .cmd w s.ops = .ok i → ∀ d, i = .prepare d → d.port < 2 ^ s.cfg.addrW :=
    fun hd => decode_prepare_port hd hs.operands
  cases step_stepped hstep with
  | passed x y ins held hx hins =>
    have hg : Grows s { s with cycle := x, draws := y, inputs := ins, heldIrq := held } :=
      Grows.quiet hx rfl rfl rfl rfl rfl
    exact hg.inv hs hs.session hs.position hs.busy
  | cycled t hp h =>
    obtain ⟨v, hv, -⟩ := settle_next h
    obtain ⟨-, -, -, -, -, -, hses, hb⟩ := tick_kept hv
    have ht := tick_ticked hp hv
    exact ht.grows.inv_settle hs (hses ▸ hs.session) (ht.positionOk hs.config hs.position)
      (hb.trans ((busyAgrees_busy hp).symm.trans hs.busy)) (hv ▸ h)
  | commanded w rest i v hp hin hd h =>
    have hg : Grows s v := (grows_accepted w rest s).trans (grows_exec h) rfl
    have hv : v.seq.pos = .idle := (exec_pos h).trans hp
    exact hg.retired.inv hs (exec_sessionOk (s := accepted w rest s) (t := v) h hs.session (hpre hd))
      (positionOk_idle hv) (busyAgrees_idle (s := retire v) hv)
  | started w rest i t hp hin hd h =>
    obtain ⟨v, hv, -⟩ := settle_next h
    have ht := startCommand_started hv
    exact ((grows_accepted w rest s).trans ht.grows rfl).inv_settle hs (ht.sessionOk hs.session (hpre hd))
      (ht.positionOk hs.config hp) ht.busy (hv ▸ h)
  | operated f w rest i t hp hf hin hd h =>
    have hg : Grows s { s with inputs := rest } := Grows.quiet (Nat.le_refl _) rfl rfl rfl rfl rfl
    have hq : t.seq.pos = .idle := (exec_pos h).trans hp
    refine (hg.trans (grows_exec h) rfl).inv hs ?_ (positionOk_idle hq) ?_
    · exact exec_sessionOk (s := { s with inputs := rest }) h hs.session
        fun d hi => absurd (hi ▸ hd) (decode_ne_prepare hf d)
    · rw [busyAgrees_idle hq, exec_busy h, ← busyAgrees_idle hp]
      exact hs.busy
  | acted a rest t hp hin h => exact hostAct_inv h { hs with } hp

end Sys2Proof.Machine
end

section
/-! PROOFS. With a host that does its duty (Table H1): every step keeps the session calm (O47), none ends in misuse (O48),
and the session registers are read only when a PREPARE has written them (O59). -/

namespace Sys2Proof.Machine

variable {s t v : State}

/-! ### Low pins -/

theorem pinsAreLow_iff {p : Ports} {a : Nat} {m : Byte} : pinsAreLow p a m = true ↔ Ports.read p a &&& m = 0 := by
  simp [pinsAreLow]

theorem and_not_and_self (x m : Byte) : x &&& ~~~m &&& m = 0 := by
  rw [BitVec.and_assoc, BitVec.and_comm (~~~m), BitVec.and_not_self]
  exact BitVec.and_zero

/-- A value that agrees with a low one on the masked pins is low there. -/
theorem and_eq_zero_of_xor {x r m : Byte} (hx : (x ^^^ r) &&& m = 0) (hr : r &&& m = 0) : x &&& m = 0 := by
  have hsplit : x &&& m = ((x ^^^ r) &&& m) ^^^ (r &&& m) := by
    ext i hi
    simp only [BitVec.getElem_and, BitVec.getElem_xor]
    cases x[i] <;> cases r[i] <;> cases m[i] <;> rfl
  rw [hsplit, hx, hr, BitVec.xor_self]
  rfl

/-- The masked pins of the session are low. -/
def SessionLow (s : State) : Prop := pinsAreLow s.ports s.ses.cPort s.ses.cMaskHi = true

/-- The low value is low on the masked pins, whatever the others carry (R37). -/
theorem sessionLow_of_read (hr : PortsReady s) (hses : t.ses = s.ses)
    (h : Ports.read t.ports s.ses.cPort = lowValue s) : SessionLow t := by
  rw [SessionLow, hses, pinsAreLow_iff, h, lowValue, hr.2, and_not_and_self]

theorem pinsLow_sessionLow (hr : PortsReady s) : SessionLow (pinsLow s) :=
  sessionLow_of_read hr rfl (by rw [pinsLow_ports, Ports.read_write _ _ _ _ hr.1, if_pos rfl, lowValue])

theorem Emission.sessionLow {es : List (Nat × Nat)} {rs : List (Nat × Nat × Byte)} (he : Emission s t es rs)
    (hr : PortsReady s) (hs : SessionLow s) : SessionLow t := by
  have hv := he.values hr s.ses.cPort
  split at hv
  case isTrue => exact sessionLow_of_read hr he.ses_eq hv
  case isFalse => rwa [SessionLow, he.ses_eq, pinsAreLow_iff, hv, ← pinsAreLow_iff]

theorem Inv.portsReady (h : Inv s) : PortsReady s := ⟨h.ports, (sessionOk_iff.1 h.session).2.1⟩

/-! ### Calm states -/

/-- A Closed session asks nothing but that no TRANSMIT runs. -/
theorem calm_of_closed (ho : s.ses.isOpen = false) (hp : ∀ p, s.seq.pos ≠ .tx p) : Calm s where
  masked := by simp [ho]
  saved := by simp [ho]
  inside := fun p h => absurd h (hp p)
  low := by simp [ho]

/-- Outside a TRANSMIT. -/
theorem calm_of_no_tx (hp : ∀ p, s.seq.pos ≠ .tx p)
    (h : s.ses.isOpen = true → s.ie = false ∧ (∀ rem x, s.seq.pos = .dly rem x → x = false) ∧ SessionLow s) :
    Calm s where
  masked := fun ho => (h ho).1
  saved := fun ho => (h ho).2.1
  inside := fun p h => absurd h (hp p)
  low := fun ho _ => (h ho).2.2

/-- Inside a TRANSMIT, which goes on. -/
theorem Calm.of_tx {p q : TxPos} (hs : Calm s) (hp : s.seq.pos = .tx p) (hq : t.seq.pos = .tx q) (hses : t.ses = s.ses)
    (hie : t.ie = s.ie) (hlow : q.phase ≠ .h → SessionLow t) : Calm t where
  masked := fun ho => hie.trans (hs.masked (hses ▸ ho))
  saved := fun _ rem x h => by rw [hq] at h; cases h
  inside := fun _ _ => hses ▸ hs.inside p hp
  low := fun _ hh => hlow (by simpa [inHighSegment, hq] using hh)

theorem Calm.sessionLow (hs : Calm s) (ho : s.ses.isOpen = true) (hp : inHighSegment s = false) : SessionLow s :=
  hs.low ho hp

theorem inHighSegment_of_idle (h : s.seq.pos = .idle) : inHighSegment s = false := by simp [inHighSegment, h]

theorem inHighSegment_of_phase {p : TxPos} (h : s.seq.pos = .tx p) (hp : p.phase ≠ .h) : inHighSegment s = false := by
  simp [inHighSegment, h, hp]

theorem inHighSegment_of_dly {rem : Nat} {x : Bool} (h : s.seq.pos = .dly rem x) : inHighSegment s = false := by
  simp [inHighSegment, h]

/-- The session and the ports are as they were, and no TRANSMIT runs. -/
theorem calm_of_rest (hs : Calm s) (hses : t.ses = s.ses) (hports : t.ports = s.ports) (hhigh : inHighSegment s = false)
    (hp : ∀ p, t.seq.pos ≠ .tx p)
    (h : s.ses.isOpen = true → t.ie = false ∧ ∀ rem x, t.seq.pos = .dly rem x → x = false) : Calm t := by
  refine calm_of_no_tx hp fun ho => ?_
  rw [hses] at ho
  obtain ⟨hie, hx⟩ := h ho
  refine ⟨hie, hx, ?_⟩
  rw [SessionLow, hses, hports]
  exact hs.low ho hhigh

/-- Calm is a matter of the session, `IE`, the sequencer and the ports. -/
theorem Calm.of_same (hs : Calm s) (hses : t.ses = s.ses) (hie : t.ie = s.ie) (hseq : t.seq = s.seq)
    (hports : t.ports = s.ports) : Calm t where
  masked := by rw [hses, hie]; exact hs.masked
  saved := by rw [hses, hseq]; exact hs.saved
  inside := by rw [hses, hseq]; exact hs.inside
  low := by
    rw [hses, hports, inHighSegment, hseq]
    exact hs.low

theorem Calm.retire (h : Calm s) : Calm (retire s) := h.of_same rfl rfl rfl rfl

theorem Calm.accepted (h : Calm s) (w : Byte) (rest : List Input) : Calm (accepted w rest s) :=
  h.of_same rfl rfl rfl rfl

theorem Calm.settle (h : Calm v) (ht : settle (.next v) = .next t) : Calm t := by
  obtain ⟨w, hw, hcase⟩ := settle_next ht
  cases hw
  obtain ⟨-, rfl⟩ | ⟨-, rfl⟩ := hcase
  · exact h.retire
  · exact h

/-! ### Delays -/

/-- Unless it enables interrupts itself, a delay that starts with `IE = 0` ends so (R236). -/
theorem delay_ie (n : Nat) (hm : s.cfg.irqMode ≠ .disableEnable) : (delay n s).ie = s.ie := by
  obtain ⟨x, y, es, h, -⟩ := delay_frame n s
  rw [h]
  exact if_neg hm

theorem startDelay_calm (n : Nat) (hs : Calm s) (hm : s.cfg.irqMode ≠ .disableEnable) (hp : s.seq.pos = .idle) :
    Calm (startDelay n s) := by
  obtain ⟨v, es, p, m, h, hpos, hv⟩ := startDelay_frame n s
  rw [h]
  refine calm_of_rest hs rfl rfl (inHighSegment_of_idle hp) ?_ fun ho => ⟨?_, ?_⟩
  · obtain rfl | ⟨rfl, -⟩ := hpos <;> simp
  · obtain rfl | rfl | hm' := hv
    · exact hs.masked ho
    · rfl
    · exact absurd hm' hm
  · rintro rem x rfl
    obtain h | ⟨h, -⟩ := hpos <;> cases h
    exact hs.masked ho

theorem endDelay_calm {rem : Nat} {saved : Bool} (hs : Calm s) (hm : s.cfg.irqMode ≠ .disableEnable)
    (hp : s.seq.pos = .dly rem saved) : Calm (endDelay saved s) := by
  obtain ⟨v, es, h, hv⟩ := endDelay_frame saved s
  rw [h]
  refine calm_of_rest hs rfl rfl (inHighSegment_of_dly hp) (by simp) fun ho => ⟨?_, by simp⟩
  obtain rfl | rfl | hm' := hv
  · exact hs.masked ho
  · exact hs.saved ho _ _ hp
  · exact absurd hm' hm

/-! ### The parts of a step -/

/-- Every clock cycle: the pins rest low from the falling edge on (R95, R212), and a delay puts a disabled `IE` back. -/
theorem Ticked.calm (h : Ticked s t) (hs : Calm s) (hr : PortsReady s) (hm : s.cfg.irqMode ≠ .disableEnable) :
    Calm t := by
  cases h with
  | counted p hp _ =>
    exact hs.of_tx hp rfl rfl rfl fun hl => hs.sessionLow (hs.inside p hp) (inHighSegment_of_phase hp hl)
  | fell p hp => exact hs.of_tx hp rfl rfl rfl fun _ => pinsLow_sessionLow (s := wait 1 s) hr
  | gapped p hp hl _ =>
    exact hs.of_tx hp rfl rfl rfl fun _ => hs.sessionLow (hs.inside p hp) (inHighSegment_of_phase hp (by simp [hl]))
  | rose p q u rs hp _ he => exact hs.of_tx hp (risen_pos q u) he.ses_eq he.ie_eq fun hl => absurd rfl hl
  | finished p hp hl =>
    exact calm_of_rest hs rfl rfl (inHighSegment_of_phase hp hl) (by simp) fun ho => ⟨hs.masked ho, by simp⟩
  | waitedOn rem saved hp _ =>
    refine calm_of_rest hs rfl rfl (inHighSegment_of_dly hp) (by simp) fun ho => ⟨hs.masked ho, ?_⟩
    rintro _ _ ⟨⟩
    exact hs.saved ho _ _ hp
  | woke rem saved hp => exact endDelay_calm (s := wait 1 s) (hs.of_same rfl rfl rfl rfl) hm hp

/-- Every operation, where PREPARE finds the pins of its handle low. -/
theorem exec_calm {i : Instr} (h : exec i s = .next t) (hs : Calm s) (hr : PortsReady s)
    (hm : s.cfg.irqMode ≠ .disableEnable) (hp : s.seq.pos = .idle)
    (hlow : ∀ d, i = .prepare d → s.ses.isOpen = false → pinsAreLow s.ports d.port d.maskHi = true) : Calm t := by
  have hpos : ∀ p, t.seq.pos ≠ .tx p := by simp [exec_pos h, hp]
  have hdly : ∀ rem x, t.seq.pos = .dly rem x → x = false := by simp [exec_pos h, hp]
  have hh := inHighSegment_of_idle hp
  cases exec_done h with
  | nothing => exact hs
  | opened d hi _ ho => exact calm_of_no_tx hpos fun _ => ⟨rfl, hdly, hlow d hi ho⟩
  | closed d _ _ => exact calm_of_closed (by rw [delay_ses]; rfl) hpos
  | waited n _ =>
    exact calm_of_rest hs (delay_ses n s) (delay_ports n s) hh hpos fun ho => ⟨(delay_ie n hm).trans (hs.masked ho), hdly⟩
  | emitted es rs t he =>
    refine calm_of_no_tx hpos fun ho => ?_
    rw [he.ses_eq] at ho
    exact ⟨he.ie_eq.trans (hs.masked ho), hdly, he.sessionLow hr (hs.low ho hh)⟩
  | answered o => exact hs.of_same rfl rfl rfl rfl

/-! ### The host's duties -/

/-- R299, and log 29: a dutiful PREPARE while Closed finds the pins of its handle low. -/
theorem low_of_dutiful_prepare {w : Byte} {d : Handle} (hw : dutifulCommand s w = true)
    (hd : decode .cmd w s.ops = .ok (.prepare d)) (ho : s.ses.isOpen = false) :
    pinsAreLow s.ports d.port d.maskHi = true := by
  obtain ⟨d', hdev, hc⟩ := decodeCmd_eq_ok hd
  obtain ⟨rfl, h⟩ | ⟨-, h⟩ | ⟨-, h⟩ | ⟨-, h⟩ := hc <;> cases h
  simpa [dutifulCommand, ho, hdev] using hw

/-- R301: a dutiful TRANSMIT is issued while Prepared. -/
theorem open_of_dutiful_transmit {w : Byte} {d : Handle} {base count : Nat} (hw : dutifulCommand s w = true)
    (hd : decode .cmd w s.ops = .ok (.transmit d base count)) : s.ses.isOpen = true := by
  obtain ⟨d', -, hc⟩ := decodeCmd_eq_ok hd
  obtain ⟨-, h⟩ | ⟨rfl, h⟩ | ⟨-, h⟩ | ⟨-, h⟩ := hc <;> cases h
  simpa [dutifulCommand] using hw

/-- The micro-operation ports are not the host's (R94): what it gives there is a selector. -/
theorem cosel_of_dutiful {f : Format} {w : Byte} {rest : List Input} (hd : nextIsDutiful s = true) (hf : f ≠ .cmd)
    (hin : s.inputs = presenting f w :: rest) : f = .cosel := by
  cases f <;> simp_all [nextIsDutiful, presenting, dutiful]

theorem Started.calm {i : Instr} (h : Started i s t) (hs : Calm s) (hr : PortsReady s)
    (hm : s.cfg.irqMode ≠ .disableEnable) (hp : s.seq.pos = .idle)
    (hlow : ∀ d, i = .prepare d → s.ses.isOpen = false → pinsAreLow s.ports d.port d.maskHi = true)
    (hopen : ∀ d base count, i = .transmit d base count → s.ses.isOpen = true) : Calm t := by
  cases h with
  | executed t h => exact exec_calm h hs hr hm hp hlow
  | rose d base count u rs hi _ _ _ _ he =>
    refine ⟨fun ho => ?_, fun _ => by simp [risen_pos], fun _ _ => ?_,
      fun _ hh => by simp [inHighSegment, risen_pos] at hh⟩
    · exact he.ie_eq.trans (hs.masked (he.ses_eq ▸ ho))
    · exact he.ses_eq ▸ hopen d base count hi
  | waiting d _ => exact startDelay_calm _ hs hm hp
  | closing d _ _ =>
    exact startDelay_calm (s := closeSession s) _ (calm_of_closed rfl (by simp [hp])) hm hp

/-- An act of a dutiful host thread sets no `IE` and moves no masked pin while Prepared (R304, R311). -/
theorem hostAct_calm {a : HostAct} (h : hostAct a s = .next t) (hs : Calm s) (hr : PortsReady s) (hp : s.seq.pos = .idle)
    (hd : dutifulAct s a = true) : Calm t := by
  have hh := inHighSegment_of_idle hp
  cases a with
  | writeMem a x =>
    obtain ⟨-, rfl⟩ := insideSpace_eq_next.1 h
    exact hs.of_same rfl rfl rfl rfl
  | writePort a x =>
    obtain ⟨-, rfl⟩ := insideSpace_eq_next.1 h
    refine { hs with low := fun ho _ => ?_ }
    have hl := pinsAreLow_iff.1 (hs.low ho hh)
    rw [pinsAreLow_iff]
    change Ports.read (Ports.write a x s.ports) s.ses.cPort &&& s.ses.cMaskHi = 0
    rw [Ports.read_write _ _ _ _ hr.1]
    split
    case isFalse => exact hl
    case isTrue ha =>
      have hx : (x ^^^ Ports.read s.ports a) &&& s.ses.cMaskHi = 0 := by
        simpa [dutifulAct, show s.ses.isOpen = true from ho, ← ha] using hd
      exact and_eq_zero_of_xor hx (ha ▸ hl)
  | writeIe x =>
    cases h
    refine { hs with masked := fun ho => ?_ }
    simpa [dutifulAct, show s.ses.isOpen = true from ho] using hd
  | elapse n => cases h; exact hs.of_same rfl rfl rfl rfl
  | setHandle d => cases h; exact hs.of_same rfl rfl rfl rfl
  | setBase n => cases h; exact hs.of_same rfl rfl rfl rfl
  | setCount n => cases h; exact hs.of_same rfl rfl rfl rfl
  | setMicro b a n => cases h; exact hs.of_same rfl rfl rfl rfl

/-- What a dutiful host's next input is, read off the head of what is to come. -/
theorem dutiful_of_head {inp : Input} {rest : List Input} (hd : nextIsDutiful s = true) (hin : s.inputs = inp :: rest) :
    dutiful s inp = true := by
  simpa [nextIsDutiful, hin] using hd

/-- Settles O47, case by case of what a step can be; that the pins are low after a PREPARE is the duty of log 29. -/
theorem dutifulHostKeepsTheSessionCalm : Obligations.DutifulHostKeepsTheSessionCalm := by
  unfold Obligations.DutifulHostKeepsTheSessionCalm
  intro s t hinv hs hm hd hstep
  have hr := hinv.portsReady
  cases step_stepped hstep with
  | passed x y ins held _ _ => exact hs.of_same rfl rfl rfl rfl
  | cycled t hp h =>
    obtain ⟨v, hv, -⟩ := settle_next h
    exact ((tick_ticked hp hv).calm hs hr hm).settle (hv ▸ h)
  | commanded w rest i v hp hin hdec h =>
    have hw : dutifulCommand s w = true := dutiful_of_head hd hin
    exact (exec_calm h (hs.accepted w rest) hr hm hp
      fun d hi ho => low_of_dutiful_prepare hw (hi ▸ hdec) ho).retire
  | started w rest i t hp hin hdec h =>
    have hw : dutifulCommand s w = true := dutiful_of_head hd hin
    obtain ⟨v, hv, -⟩ := settle_next h
    exact ((startCommand_started hv).calm (hs.accepted w rest) hr hm hp
      (fun d hi ho => low_of_dutiful_prepare hw (hi ▸ hdec) ho)
      (fun d base count hi => open_of_dutiful_transmit hw (hi ▸ hdec))).settle (hv ▸ h)
  | operated f w rest i t hp hf hin hdec h =>
    exact exec_calm (s := { s with inputs := rest }) h (hs.of_same rfl rfl rfl rfl) hr hm hp
      fun d hi => absurd (hi ▸ hdec) (decode_ne_prepare hf d)
  | acted a rest t hp hin h =>
    have ha : dutifulAct s a = true := dutiful_of_head hd hin
    exact hostAct_calm (s := { s with inputs := rest }) h (hs.of_same rfl rfl rfl rfl) hr hp ha

/-! ### Faults -/

/-- Everything a step that faults can be. -/
inductive Faulted (s : State) (f : Fault) : Prop where
  /-- A handler runs inside a TRANSMIT. -/
  | interrupted (p : TxPos) (hp : s.seq.pos = .tx p) (hie : s.ie = true)
  /-- A clock cycle of a command in progress. -/
  | cycled (h : tick s = .fault f)
  /-- A command, run or started. -/
  | commanded (w : Byte) (rest : List Input) (i : Instr) (hp : s.seq.pos = .idle)
    (hin : s.inputs = .cmd w :: rest ∨ s.inputs = .cmdByCycle w :: rest) (hd : decode .cmd w s.ops = .ok i)
    (h : exec i (accepted w rest s) = .fault f ∨ startCommand i (accepted w rest s) = .fault f)
  /-- A micro-operation or a lookup. -/
  | operated (g : Format) (w : Byte) (rest : List Input) (i : Instr) (hg : g ≠ .cmd)
    (hin : s.inputs = presenting g w :: rest) (hd : decode g w s.ops = .ok i)
    (h : exec i { s with inputs := rest } = .fault f)

theorem takeIrq_fault {n : Nat} {f : Fault} (h : takeIrq n s = .fault f) : ∃ p, s.seq.pos = .tx p := by
  unfold takeIrq at h
  split at h
  case h_1 p hp => exact ⟨p, hp⟩
  all_goals cases h

theorem requestIrq_fault {n : Nat} {f : Fault} (h : requestIrq n s = .fault f) :
    s.ie = true ∧ ∃ p, s.seq.pos = .tx p := by
  unfold requestIrq at h
  split at h
  case isTrue hie => exact ⟨hie, takeIrq_fault h⟩
  case isFalse => cases h

theorem settle_eq_fault {o : Result State} {f : Fault} (h : settle o = .fault f) : o = .fault f := by
  obtain h | ⟨v, -, h⟩ := chain_eq_fault.1 h
  · exact h
  · split at h <;> cases h

theorem issue_eq_fault {f : Format} {w : Byte} {e : Fault} (h : issue f w s = .fault e) :
    ∃ i, decode f w s.ops = .ok i ∧ exec i (beginOp f s) = .fault e := by
  unfold issue at h
  split at h
  case h_1 => cases h
  case h_2 i hd =>
    refine ⟨i, hd, ?_⟩
    cases f with
    | cmd =>
      obtain h | ⟨v, -, h⟩ := chain_eq_fault.1 h
      · exact h
      · cases h
    | uop => exact h
    | bitsel => exact h
    | cosel => exact h

theorem issueByCycle_eq_fault {w : Byte} {f : Fault} (h : issueByCycle w s = .fault f) :
    ∃ i, decode .cmd w s.ops = .ok i ∧ startCommand i (accept s) = .fault f := by
  unfold issueByCycle at h
  split at h
  case h_1 => cases h
  case h_2 i hd => exact ⟨i, hd, settle_eq_fault h⟩

theorem hostAct_ne_fault (a : HostAct) (s : State) (f : Fault) : hostAct a s ≠ .fault f := by
  have hspace : ∀ a go, insideSpace s.cfg a go ≠ .fault f := by
    intro a go
    unfold insideSpace
    split <;> simp
  cases a <;> simp [hostAct, hspace]

theorem stepIdle_faulted {f : Fault} (hp : s.seq.pos = .idle) (h : stepIdle s = .fault f) : Faulted s f := by
  unfold stepIdle at h
  split at h
  case h_1 => cases h
  case h_2 inp rest hin =>
    cases inp with
    | cmd w =>
      obtain ⟨i, hd, h⟩ := issue_eq_fault h
      exact .commanded w rest i hp (.inl hin) hd (.inl h)
    | cmdByCycle w =>
      obtain ⟨i, hd, h⟩ := issueByCycle_eq_fault h
      exact .commanded w rest i hp (.inr hin) hd (.inr h)
    | uop w =>
      obtain ⟨i, hd, h⟩ := issue_eq_fault h
      exact .operated .uop w rest i (by decide) hin hd h
    | bitsel =>
      obtain ⟨i, hd, h⟩ := issue_eq_fault (f := .bitsel) (s := { s with inputs := rest }) h
      exact .operated .bitsel _ rest i (by decide) hin hd h
    | cosel w =>
      obtain ⟨i, hd, h⟩ := issue_eq_fault h
      exact .operated .cosel w rest i (by decide) hin hd h
    | host a => exact absurd h (hostAct_ne_fault a _ f)
    | interrupt c n =>
      obtain ⟨-, p, htx⟩ := requestIrq_fault h
      rw [show (waitUntil c { s with inputs := rest }).seq.pos = .idle from hp] at htx
      cases htx

theorem stepBusy_faulted {f : Fault} (h : stepBusy s = .fault f) : Faulted s f := by
  unfold stepBusy at h
  split at h
  case h_1 r hr =>
    obtain ⟨c, rest, -, hs⟩ := arrivingRequest_eq_some hr
    obtain ⟨hie, p, hp⟩ := requestIrq_fault h
    rw [hs] at hie hp
    exact .interrupted p hp hie
  case h_2 => exact .cycled (settle_eq_fault h)

/-- The step that faults, taken apart. -/
theorem step_faulted {f : Fault} (h : step s = .fault f) : Faulted s f := by
  unfold step at h
  split at h
  case h_1 r hr =>
    obtain ⟨hie, held, hs⟩ := heldRequest_eq_some hr
    obtain ⟨p, hp⟩ := takeIrq_fault h
    rw [hs] at hp
    exact .interrupted p hp hie
  case h_2 =>
    split at h
    case h_1 hp => exact stepIdle_faulted hp h
    all_goals exact stepBusy_faulted h

/-- Where emission may run, an operation or its start faults for want of a pixel byte only (R67). -/
theorem fault_of_mayEmit {i : Instr} {f : Fault} (hm : MayEmit s)
    (h : exec i s = .fault f ∨ startCommand i s = .fault f) : f = .pixelWithoutValue := by
  have hp : primitiveFault s = none := primitiveFault_eq_none.2 hm
  have ht : transmitFault s = none := transmitFault_eq_none.2 hm
  obtain h | ⟨h, -⟩ | ⟨h, -⟩ := h.elim exec_fault startCommand_fault
  · exact h
  · rw [hp] at h
    cases h
  · rw [ht] at h
    cases h

/-- Of the four commands only TRANSMIT can fault. -/
theorem transmit_of_command_fault {w : Byte} {o : Operands} {i : Instr} {f : Fault} (hd : decode .cmd w o = .ok i)
    (h : exec i s = .fault f ∨ startCommand i s = .fault f) : ∃ d base count, i = .transmit d base count := by
  have refuses : ∀ {d u}, admitHandle d (.next u) ≠ .fault f := fun h => by
    obtain ⟨-, h⟩ := admitHandle_eq_fault.1 h
    cases h
  obtain ⟨d, -, hc⟩ := decodeCmd_eq_ok hd
  obtain ⟨-, rfl⟩ | ⟨-, rfl⟩ | ⟨-, rfl⟩ | ⟨-, rfl⟩ := hc
  · exact absurd (h.elim id id) refuses
  · exact ⟨_, _, _, rfl⟩
  · exact absurd h (not_or.2 ⟨refuses, refuses⟩)
  · exact absurd h (not_or.2 ⟨refuses, refuses⟩)

/-- Settles O48: with the duties of Table H1 (and log 29) a step can fault only inside a TRANSMIT, and there the
precondition of emission stands, so only a pixel byte without value is left to fault on. -/
theorem dutifulHostRaisesNoMisuseFault : Obligations.DutifulHostRaisesNoMisuseFault := by
  unfold Obligations.DutifulHostRaisesNoMisuseFault
  intro s f hinv hs hd hstep
  cases step_faulted hstep with
  | interrupted p hp hie =>
    obtain ⟨-, -, -, -, -, -, hoff, -⟩ := (positionOk_tx hp).1 hinv.position
    rw [hie] at hoff
    cases hoff
  | cycled h =>
    obtain ⟨⟨p, hp⟩, hf | hf⟩ := tick_fault h
    · rw [hf]
      rfl
    · obtain ⟨-, -, -, -, -, -, hm⟩ := (positionOk_tx hp).1 hinv.position
      rw [primitiveFault_eq_none.2 hm] at hf
      cases hf
  | commanded w rest i hp hin hdec h =>
    have hw : dutifulCommand s w = true := hin.elim (dutiful_of_head hd) (dutiful_of_head hd)
    obtain ⟨d, base, count, rfl⟩ := transmit_of_command_fault hdec h
    have ho := open_of_dutiful_transmit hw hdec
    rw [fault_of_mayEmit (s := accepted w rest s) ⟨hs.masked ho, .inl ho⟩ h]
    rfl
  | operated g w rest i hg hin hdec h =>
    obtain rfl := cosel_of_dutiful hd hg hin
    obtain rfl | rfl | rfl | rfl | rfl | rfl := decodeCosel_eq_ok hdec <;> cases h

end Sys2Proof.Machine
end

section
/-! PROOFS. What the operations leave alone: memory and operands (O40), the unmasked pins (O41), the session (O43), the
events of the trace (O45); and with a host that does its duty, the session registers before a PREPARE (O59). -/

namespace Sys2Proof.Machine

variable {s t u v : State}

/-! ### Parts of the core that write no port -/

/-- `t` comes from `s` with no port write recorded. -/
def Silent (s t : State) : Prop := ∃ es, t.trace = s.trace ++ es ∧ ∀ c a x, .w c a x ∉ es

theorem Silent.of_trace_eq (h : t.trace = s.trace) : Silent s t := ⟨[], by simp [h], by simp⟩

theorem Silent.trans (h1 : Silent s t) (h2 : Silent t u) : Silent s u := by
  obtain ⟨es, hs, he⟩ := h1
  obtain ⟨fs, ht, hf⟩ := h2
  exact ⟨es ++ fs, by rw [ht, hs, List.append_assoc], by simp [he, hf]⟩

theorem Silent.retire (h : Silent s t) : Silent s (retire t) := h

theorem silent_writeIe (x : Bool) (s : State) : Silent s (writeIe x s) := ⟨[.i s.cycle x], rfl, by simp⟩

theorem silent_irqEnter (s : State) : Silent s (irqEnter s) := by
  rw [irqEnter_eq]
  split
  · exact .of_trace_eq rfl
  · exact silent_writeIe false s

theorem silent_irqLeave (saved : Bool) (s : State) : Silent s (irqLeave saved s) := by
  rw [irqLeave_eq]
  split
  · exact .of_trace_eq rfl
  · split <;> exact silent_writeIe _ s

theorem silent_endDelay (saved : Bool) (s : State) : Silent s (endDelay saved s) :=
  silent_irqLeave saved (setPos .idle (loadDly 0 s))

theorem silent_startDelay (n : Nat) (s : State) : Silent s (startDelay n s) := by
  have he : Silent s (loadDly (iters s.cfg n) (irqEnter s)) := silent_irqEnter s
  unfold startDelay
  dsimp only
  split
  · exact he.trans (silent_endDelay _ _)
  · exact he

theorem silent_openSession (d : Handle) (s : State) : Silent s (openSession d s) := ⟨[.i s.cycle false], rfl, by simp⟩

theorem silent_closeSession (s : State) : Silent s (closeSession s) := ⟨[.i s.cycle s.ses.savedIe], rfl, by simp⟩

theorem silent_delay (n : Nat) (s : State) : Silent s (delay n s) := by
  obtain ⟨x, y, es, h, he⟩ := delay_frame n s
  refine ⟨es, by rw [h], ?_⟩
  obtain rfl | ⟨v, rfl⟩ := he <;> simp

/-- TRANSMIT and the micro-operations that emit. -/
def Emits (i : Instr) : Prop :=
  i = .txbit0 ∨ i = .txbit1 ∨ (∃ b, i = .txbyte b) ∨ (∃ d a, i = .txpixel d a) ∨ ∃ d b n, i = .transmit d b n

/-- An operation emits, or writes no port. -/
theorem exec_emits_or_silent {i : Instr} (h : exec i s = .next t) :
    (Emits i ∧ ∃ es rs, Emission s t es rs) ∨ Silent s t := by
  cases exec_done h with
  | nothing => exact .inr (.of_trace_eq rfl)
  | opened d => exact .inr (silent_openSession d s)
  | closed d => exact .inr ((silent_closeSession s).trans (silent_delay _ _))
  | waited n => exact .inr (silent_delay n s)
  | emitted es rs t he _ hi => exact .inl ⟨hi, es, rs, he⟩
  | answered o => exact .inr (.of_trace_eq rfl)

/-- Of the four commands only TRANSMIT emits. -/
theorem transmit_of_command_emits {w : Byte} {o : Operands} {i : Instr} (hd : decode .cmd w o = .ok i) (hi : Emits i) :
    ∃ d base count, i = .transmit d base count := by
  obtain ⟨d, -, hc⟩ := decodeCmd_eq_ok hd
  obtain ⟨-, rfl⟩ | ⟨-, rfl⟩ | ⟨-, rfl⟩ | ⟨-, rfl⟩ := hc <;> simp_all [Emits]

theorem not_emits_of_cosel {w : Byte} {o : Operands} {i : Instr} (hd : decode .cosel w o = .ok i) : ¬ Emits i := by
  obtain rfl | rfl | rfl | rfl | rfl | rfl := decodeCosel_eq_ok hd <;> simp [Emits]

/-! ### The session registers before a PREPARE -/

/-- Outside a TRANSMIT a clock cycle is one of a delay, which writes no port. -/
theorem Ticked.silent (h : Ticked s t) (hp : ∀ p, s.seq.pos ≠ .tx p) : Silent s t := by
  cases h with
  | counted p hs => exact absurd hs (hp p)
  | fell p hs => exact absurd hs (hp p)
  | gapped p hs => exact absurd hs (hp p)
  | rose p q u rs hs => exact absurd hs (hp p)
  | finished p hs => exact absurd hs (hp p)
  | waitedOn rem saved hs => exact .of_trace_eq rfl
  | woke rem saved hs => exact silent_endDelay saved (wait 1 s)

theorem Started.silent {i : Instr} (h : Started i s t) (hi : ¬ Emits i) : Silent s t := by
  cases h with
  | executed t h => exact (exec_emits_or_silent h).resolve_left fun he => hi he.1
  | rose d base count u rs ht => exact absurd (.inr (.inr (.inr (.inr ⟨d, base, count, ht⟩)))) hi
  | waiting d => exact silent_startDelay _ s
  | closing d => exact (silent_closeSession s).trans (silent_startDelay _ _)

theorem hostAct_trace {a : HostAct} (h : hostAct a s = .next t) : t.trace = s.trace := by
  cases a with
  | writeMem a x => obtain ⟨-, rfl⟩ := insideSpace_eq_next.1 h; rfl
  | writePort a x => obtain ⟨-, rfl⟩ := insideSpace_eq_next.1 h; rfl
  | _ => cases h; rfl

theorem settle_silent {o : Result State} (h : settle o = .next t) (ho : ∀ v, o = .next v → Silent s v) : Silent s t := by
  obtain ⟨v, hv, ⟨-, rfl⟩ | ⟨-, rfl⟩⟩ := settle_next h
  · exact (ho v hv).retire
  · exact ho _ hv

/-- While Closed no step of a calm state writes a port, when the host does its duty. -/
theorem step_silent_of_closed (hs : Calm s) (hd : nextIsDutiful s = true) (ho : s.ses.isOpen = false)
    (hstep : step s = .next t) : Silent s t := by
  have hclosed : ∀ {w i}, dutifulCommand s w = true → decode .cmd w s.ops = .ok i → ¬ Emits i := by
    intro w i hw hdec hi
    obtain ⟨d, base, count, rfl⟩ := transmit_of_command_emits hdec hi
    rw [open_of_dutiful_transmit hw hdec] at ho
    cases ho
  have hp : ∀ p, s.seq.pos ≠ .tx p := fun p h => by
    rw [hs.inside p h] at ho
    cases ho
  cases step_stepped hstep with
  | passed x y ins held => exact .of_trace_eq rfl
  | cycled t hidle h => exact settle_silent h fun v hv => (tick_ticked hidle hv).silent hp
  | commanded w rest i v _ hin hdec h =>
    have hi := hclosed (dutiful_of_head hd hin) hdec
    exact ((exec_emits_or_silent h).resolve_left fun he => hi he.1).retire
  | started w rest i t _ hin hdec h =>
    have hi := hclosed (dutiful_of_head hd hin) hdec
    exact settle_silent (s := accepted w rest s) h fun v hv => (startCommand_started hv).silent hi
  | operated f w rest i t _ hf hin hdec h =>
    obtain rfl := cosel_of_dutiful hd hf hin
    exact (exec_emits_or_silent (s := { s with inputs := rest }) h).resolve_left fun he => not_emits_of_cosel hdec he.1
  | acted a rest t _ hin h => exact .of_trace_eq (hostAct_trace (s := { s with inputs := rest }) h)

/-- Settles O59: a step that writes a port is taken while Prepared, and an open session was written by a PREPARE. -/
theorem sessionRegistersAreWrittenBeforeTheyAreRead : Obligations.SessionRegistersAreWrittenBeforeTheyAreRead := by
  unfold Obligations.SessionRegistersAreWrittenBeforeTheyAreRead
  rintro s t es hinv hs hd hstep ht ⟨c, a, x, hmem⟩
  cases ho : s.ses.isOpen with
  | true =>
    obtain ⟨-, -, hw⟩ := sessionOk_iff.1 hinv.session
    exact ⟨rfl, hw ho⟩
  | false =>
    obtain ⟨fs, hf, hnone⟩ := step_silent_of_closed hs hd ho hstep
    rw [ht, List.append_cancel_left_eq] at hf
    exact absurd (hf ▸ hmem) (hnone c a x)

/-! ### Whatever operation completes -/

/-- Settles O40: what every operation keeps (`Grows`), and the control of the core (`SameControl`). -/
theorem noOperationWritesMemoryOrOperands : Obligations.NoOperationWritesMemoryOrOperands := by
  unfold Obligations.NoOperationWritesMemoryOrOperands
  intro i s t h
  have hg := grows_exec h
  obtain ⟨hpos, hbusy, hcmd, hin, hheld⟩ := exec_control h
  exact ⟨fun a => by rw [hg.mem_eq], hg.mem_eq, hg.ops_eq, hg.cfg_eq, hcmd, hbusy, hin, hheld, hpos⟩

/-- Settles O41: only emission writes a port, and it leaves the session's port at its low value, which is the old one
outside the mask. -/
theorem unmaskedPinsAreNeverChanged : Obligations.UnmaskedPinsAreNeverChanged := by
  unfold Obligations.UnmaskedPinsAreNeverChanged
  intro i s t hwf hm h
  have quiet : t.ports = s.ports → (∀ a, a ≠ s.ses.cPort → Ports.read t.ports a = Ports.read s.ports a) ∧
      Ports.read t.ports s.ses.cPort &&& ~~~s.ses.cMaskHi = Ports.read s.ports s.ses.cPort &&& ~~~s.ses.cMaskHi :=
    fun hp => by simp [hp]
  cases exec_done h with
  | nothing => exact quiet rfl
  | opened d => exact quiet rfl
  | closed d => exact quiet (delay_ports _ _)
  | waited n => exact quiet (delay_ports n s)
  | emitted es rs t he =>
    have hv := he.values ⟨hwf, hm⟩
    refine ⟨fun a ha => by rw [hv, if_neg fun hx => ha hx.1], ?_⟩
    rw [hv]
    split
    · rw [lowValue, hm, BitVec.and_assoc, BitVec.and_self]
    · rfl
  | answered o => exact quiet rfl

/-- Settles O43: of the cases of an operation only the opening and the closing one touch the session. -/
theorem onlyPrepareAndCloseWriteTheSession : Obligations.OnlyPrepareAndCloseWriteTheSession := by
  unfold Obligations.OnlyPrepareAndCloseWriteTheSession
  intro i s t h
  have same : t.ses = s.ses → ((∀ d, i ≠ .prepare d) → (∀ d, i ≠ .close d) → t.ses = s.ses) ∧
      ((∀ d, i ≠ .prepare d) → t.ses = { s.ses with isOpen := t.ses.isOpen } ∧
        (t.ses.isOpen = true → s.ses.isOpen = true)) ∧
      (s.ses.isOpen = true → (∀ d, i ≠ .close d) → t.ses = s.ses) :=
    fun he => ⟨fun _ _ => he, fun _ => ⟨by rw [he], by rw [he]; exact id⟩, fun _ _ => he⟩
  cases exec_done h with
  | nothing => exact same rfl
  | opened d hi _ ho =>
    exact ⟨fun hn => absurd hi (hn d), fun hn => absurd hi (hn d), fun hopen => absurd hopen (by simp [ho])⟩
  | closed d hi _ =>
    refine ⟨fun _ hn => absurd hi (hn d), fun _ => ?_, fun _ hn => absurd hi (hn d)⟩
    rw [delay_ses]
    exact ⟨rfl, by simp⟩
  | waited n => exact same (delay_ses n s)
  | emitted es rs t he => exact same he.ses_eq
  | answered o => exact same rfl

/-- Settles O45: the events of `Grows`, of which only an emission's are port writes. -/
theorem operationsOnlyAppendToTheTrace : Obligations.OperationsOnlyAppendToTheTrace := by
  unfold Obligations.OperationsOnlyAppendToTheTrace
  intro i s t h
  have hg := grows_exec h
  refine ⟨hg.later, ?_⟩
  obtain ⟨es, ht, hord, hbounds⟩ := hg.events
  refine ⟨es, ht, hord, hbounds, ?_⟩
  obtain ⟨-, _, _, he⟩ | ⟨fs, hf, hnone⟩ := exec_emits_or_silent h
  · obtain ⟨fs, hf, -, -, -, -, -, -, hport, -⟩ := he.events
    rw [ht, List.append_cancel_left_eq] at hf
    exact hf ▸ hport
  · rw [ht, List.append_cancel_left_eq] at hf
    exact fun c a x hx => absurd (hf ▸ hx) (hnone c a x)

end Sys2Proof.Machine
end

section
/-! PROOFS. The step and the stepped forms: a decoded command (O10), a stepped one (O57), the host thread while a command is
in progress (O13), the delay cycle by cycle (O53); and what a handle and an order are admitted for (O18, O19). -/

namespace Sys2Proof.Machine

variable {s t u : State}

/-! ### Admission -/

/-- Settles O18: admission comes first in each of the five. -/
theorem malformedHandleIsRefused : Obligations.MalformedHandleIsRefused := by
  unfold Obligations.MalformedHandleIsRefused
  intro s d hd
  have hbad : ¬ wfDev d = true := fun h => by
    obtain ⟨hm, ho⟩ := wfDev_iff.1 h
    obtain hne | hno := hd
    · exact hne hm
    · rw [ho] at hno
      cases hno
  have refuses : ∀ go, admitHandle d go = .refused .malformedHandle := fun go => if_neg hbad
  exact ⟨refuses _, fun _ _ => refuses _, refuses _, refuses _, fun _ => refuses _⟩

/-- Settles O19: an order is three elements of two bits, so the statement is a finite one. -/
theorem wellFormedOrderIsABijection : Obligations.WellFormedOrderIsABijection := by
  unfold Obligations.WellFormedOrderIsABijection
  rintro ⟨o0, o1, o2⟩
  revert o0 o1 o2
  decide

/-! ### Steps of commands -/

/-- Settles O10: an idle step with no request taken is what the input at the head does. -/
theorem stepRunsTheDecodedCommand : Obligations.StepRunsTheDecodedCommand := by
  unfold Obligations.StepRunsTheDecodedCommand
  intro s w rest i hp hirq hin hd
  have hissue : issue .cmd w (latchCmd w { s with inputs := rest }) = finishOp .cmd (exec i (accepted w rest s)) := by
    rw [issue, latchCmd_ops, hd]
    rfl
  rw [step_idle hp hirq, stepIdle, hin]
  exact hissue

/-- Settles O57: the laws of a step, of a clock cycle and of retirement. -/
theorem stepRunsASteppedCommand : Obligations.StepRunsASteppedCommand := by
  unfold Obligations.StepRunsASteppedCommand
  intro s hirq
  refine ⟨fun w rest i hp hin hd => ?_, fun hp hin => step_cycle hp hirq hin, fun t ht => settle_busy ht,
    fun t ht => settle_idle ht⟩
  have hissue : issueByCycle w (latchCmd w { s with inputs := rest }) = settle (startCommand i (accepted w rest s)) := by
    rw [issueByCycle, latchCmd_ops, hd]
    rfl
  rw [step_idle hp hirq, stepIdle, hin]
  exact hissue

/-- Settles O13: a step with the sequencer not idle takes a request, or is a clock cycle, which the host's things are
no part of. -/
theorem hostThreadIsStoppedWhileBusy : Obligations.HostThreadIsStoppedWhileBusy := by
  unfold Obligations.HostThreadIsStoppedWhileBusy
  intro s t hp hstep
  cases step_stepped hstep with
  | passed x y ins held _ hins => exact ⟨rfl, rfl, rfl, rfl, hins⟩
  | cycled t _ h =>
    obtain ⟨v, hv, hcase⟩ := settle_next h
    obtain ⟨hmem, hops, hcfg, hcmd, hin, -⟩ := tick_kept hv
    obtain ⟨-, rfl⟩ | ⟨-, rfl⟩ := hcase <;> exact ⟨hmem, hops, hcfg, hcmd, .inl hin⟩
  | commanded w rest i v hidle => exact absurd hidle hp
  | started w rest i t hidle => exact absurd hidle hp
  | operated f w rest i t hidle => exact absurd hidle hp
  | acted a rest t hidle => exact absurd hidle hp

/-! ### The delay, cycle by cycle -/

/-- The end of a delay overwrites `SEQ.POS` and `SEQ.DLY`. -/
theorem endDelay_overwrites (saved : Bool) (p : SeqPos) (m : Nat) (s : State) :
    endDelay saved (setPos p (loadDly m s)) = endDelay saved s := rfl

theorem wait_wait (m n : Nat) (s : State) : wait m (wait n s) = wait (n + m) s := by
  simp only [wait, Nat.add_assoc]

/-- A delay with `rem + 1` cycles left ends after them, with nothing but time passed before its end. -/
theorem runCycles_delay (rem : Nat) (saved : Bool) (m : Nat) (s : State) :
    runCycles (rem + 1) (setPos (.dly (rem + 1) saved) (loadDly m s)) = .next (endDelay saved (wait (rem + 1) s)) := by
  induction rem generalizing m s with
  | zero => rfl
  | succ rem ih =>
    have htick : ∃ k, tick (setPos (.dly (rem + 1 + 1) saved) (loadDly m s)) =
        .next (setPos (.dly (rem + 1) saved) (loadDly k (wait 1 s))) := by
      refine ⟨min m (ceilDiv (rem + 1) s.cfg.delayIterCyc), ?_⟩
      simp only [tick, setPos_seq, tickDly]
      rw [if_neg (by omega)]
      rfl
    obtain ⟨k, hk⟩ := htick
    rw [runCycles]
    change chain (tick _) _ = _
    rw [hk, chain_next, ih, wait_wait, Nat.add_comm 1]

/-- A delay that is started and stepped for its cycles: `irq_enter()`, the wait, the end. -/
theorem runCycles_startDelay (n : Nat) (s : State) :
    runCycles (delayCycles s.cfg n) (startDelay n s) = .next (endDelay s.ie (wait (delayCycles s.cfg n) (irqEnter s))) := by
  unfold startDelay
  dsimp only
  split
  case isTrue h0 =>
    rw [h0]
    rfl
  case isFalse h0 =>
    obtain ⟨rem, hrem⟩ := Nat.exists_eq_succ_of_ne_zero h0
    rw [hrem]
    exact runCycles_delay rem s.ie _ (irqEnter s)

/-- The delay of R230 comes to the same end, when no handler runs in it. -/
theorem delay_eq_endDelay (n : Nat) (hp : s.seq.pos = .idle) (hm : (irqEnter s).ie = false) :
    delay n s = endDelay s.ie (wait (delayCycles s.cfg n) (irqEnter s)) := by
  obtain ⟨v, es, h, -⟩ := irqEnter_frame s
  rw [h] at hm ⊢
  simp only at hm
  simp [delay, h, delayLoop_eq, stretchIfEnabled, hm, endDelay, loadDly, wait, setPos, delayCycles, Nat.add_assoc, hp]

/-- Interrupts are disabled during the wait: by the mode, or before it. -/
theorem irqEnter_ie_false (h : s.cfg.irqMode ≠ .leaveAlone ∨ s.ie = false) : (irqEnter s).ie = false := by
  rw [irqEnter_eq]
  split
  case isTrue hm => exact h.resolve_left (not_not.2 hm)
  case isFalse => rfl

/-- Settles O53: both forms end in `endDelay` after the same cycles. -/
theorem cycleFormOfDelayAgrees : Obligations.CycleFormOfDelayAgrees := by
  unfold Obligations.CycleFormOfDelayAgrees
  intro s n hp
  constructor
  · intro t _ hoff h
    cases h
    rw [delay_eq_endDelay n hp (irqEnter_ie_false hoff)]
    have hlast : (endDelay s.ie (wait (delayCycles s.cfg n) (irqEnter s))).cycle - s.cycle = delayCycles s.cfg n := by
      obtain ⟨v, es, he, -⟩ := irqEnter_frame s
      obtain ⟨w, fs, hd, -⟩ := endDelay_frame s.ie (wait (delayCycles s.cfg n) (irqEnter s))
      rw [hd, he]
      exact Nat.add_sub_cancel_left ..
    rw [hlast, runCycles_startDelay]
  · intro hm
    have henter : irqEnter s = s := by rw [irqEnter_eq, if_pos hm]
    change runCycles (delayCycles s.cfg n) (startDelay n s) = _
    rw [runCycles_startDelay, henter, endDelay, irqLeave_eq, if_pos (by exact hm)]
    simp [setPos, loadDly, wait, delayCycles, hp]

end Sys2Proof.Machine
end

section
/-! PROOFS. What an observer of a data pin reads (R47): the pulses of an edge schedule, and the symbols they carry (O37). -/

namespace Sys2Proof.Machine

/-- A pin that starts low, is high in the high value and low in the low one has one pulse for each edge pair. -/
theorem pulsesFrom_edgeWrites {p : Nat} {hi lo : Byte} (hhi : hi.getLsbD p = true) (hlo : lo.getLsbD p = false)
    (edges : List (Nat × Nat)) :
    pulsesFrom p false none (edgeWrites hi lo edges) = edges.map fun e => ⟨e.1, e.2⟩ := by
  induction edges with
  | nil => rfl
  | cons e rest ih =>
    have hcons : edgeWrites hi lo (e :: rest) = (e.1, hi) :: (e.2, lo) :: edgeWrites hi lo rest := rfl
    rw [hcons]
    simp only [pulsesFrom, hhi, hlo, ih, List.map_cons]

/-- Where the two symbols are distinct (R146), the pulse of a bit carries it. -/
theorem symbolOf_symbol {c : Config} (hc : c.n0H < c.n1H) (t : Nat) (b : Bool) :
    symbolOf c ⟨t, t + highCycles c b⟩ = some b := by
  cases b with
  | true => simp [symbolOf, highCycles]
  | false =>
    have hne : c.n0H ≠ c.n1H := Nat.ne_of_lt hc
    simp [symbolOf, highCycles, hne]

theorem symbols_of_edgeTimes {c : Config} (hc : c.n0H < c.n1H) (n t : Nat) (bits : List Bool) :
    ((edgeTimes c n t bits).map fun e => (⟨e.1, e.2⟩ : Pulse)).map (symbolOf c) = bits.map some := by
  induction bits generalizing n t with
  | nil => rfl
  | cons b rest ih => simp only [edgeTimes, List.map_cons, symbolOf_symbol hc, ih]

theorem filterMap_of_map_some {α β : Type} {f : α → Option β} {l : List α} {m : List β} (h : l.map f = m.map some) :
    l.filterMap f = m := by
  calc l.filterMap f = (l.map f).filterMap id := by rw [List.filterMap_map]; rfl
    _ = m := by rw [h, List.filterMap_map]; exact List.filterMap_some

theorem highValue_masked {s : State} {p : Nat} (hp : s.ses.cMaskHi.getLsbD p = true) :
    (highValue s).getLsbD p = true := by
  simp [highValue, hp]

theorem lowValue_low {s : State} {p : Nat} (hp : (Ports.read s.ports s.ses.cPort).getLsbD p = false) :
    (lowValue s).getLsbD p = false := by
  simp [lowValue, hp]

/-- Settles O37: the port writes of a completed TRANSMIT are the edge schedule of its bits, whose pulses carry them. -/
theorem observerReadsTheTransmittedBits : Obligations.ObserverReadsTheTransmittedBits := by
  unfold Obligations.ObserverReadsTheTransmittedBits
  intro s t d base count p bs hwf hm hb hp hlow h hbytes
  obtain ⟨-, h⟩ := admitHandle_eq_next.1 h
  obtain ⟨-, h⟩ := admitRange_eq_next.1 h
  obtain ⟨-, h⟩ := unlessFault_eq_next.1 h
  obtain ⟨bs', rs, hbs', he, -⟩ := sendPixels_emission (q := 0) h rfl
  obtain rfl : bs' = bs := by
    rw [hbs', Option.some.injEq] at hbytes
    exact hbytes
  obtain ⟨es, ht, -, -, -, hw, -⟩ := he.events
  obtain ⟨-, -, -, -, hc, -⟩ := buildable_lengths hb
  have hpulses : (pulses s.ses.cPort p (Ports.read s.ports s.ses.cPort) es).map (symbolOf s.cfg) =
      (wireBits bs').map some := by
    rw [pulses, hlow, hw ⟨hwf, hm⟩, pulsesFrom_edgeWrites (highValue_masked hp) (lowValue_low hlow),
      symbols_of_edgeTimes hc]
  exact ⟨es, ht, filterMap_of_map_some hpulses, hpulses⟩

end Sys2Proof.Machine
end

section
/-! PROOFS. Pixel memory and the port space: the range, the reads and the writes of a TRANSMIT (O31, O34, O35), the
operations that write no port (O42), the host's writes of memory (O54). -/

namespace Sys2Proof.Machine

variable {s t : State}

/-! ### A TRANSMIT in front of its pixels: two admissions and the precondition (R267) -/

theorem admitHandle_of_wf {d : Handle} (hd : wfDev d = true) (go : Result State) : admitHandle d go = go :=
  if_pos hd

theorem admitRange_of_fits {c : Config} {base count : Nat} (h : count = 0 ∨ base + 3 * count ≤ 2 ^ c.addrW)
    (go : Result State) : admitRange c base count go = go :=
  if_pos (fitsMemory_iff.2 h)

theorem admitRange_of_wraps {c : Config} {base count : Nat} (hn : 0 < count) (h : 2 ^ c.addrW < base + 3 * count)
    (go : Result State) : admitRange c base count go = .refused .addressWrap :=
  if_neg (by rw [fitsMemory_iff]; omega)

/-- A TRANSMIT that completes is the sending of its pixels. -/
theorem sendPixels_of_transmit_next {d : Handle} {base count : Nat} (h : exec (.transmit d base count) s = .next t) :
    sendPixels d.order base count s = .next t := by
  obtain ⟨-, h⟩ := admitHandle_eq_next.1 h
  obtain ⟨-, h⟩ := admitRange_eq_next.1 h
  obtain ⟨-, h⟩ := unlessFault_eq_next.1 h
  exact h

/-- An admitted TRANSMIT that may start is the sending of its pixels, whatever that ends in. -/
theorem exec_transmit_of_mayEmit {d : Handle} {base count : Nat} (hm : MayEmit s) (hd : wfDev d = true)
    (hr : count = 0 ∨ base + 3 * count ≤ 2 ^ s.cfg.addrW) :
    exec (.transmit d base count) s = sendPixels d.order base count s := by
  change execTransmit d base count s = _
  rw [execTransmit, admitHandle_of_wf hd, admitRange_of_fits hr, transmitFault_eq_none.2 hm, unlessFault_none]

/-- Settles O34: past the handle's admission the range is the first thing checked, for a TXPIXEL as for a TRANSMIT of one
record. -/
theorem wrappingTransmitIsRefused : Obligations.WrappingTransmitIsRefused := by
  unfold Obligations.WrappingTransmitIsRefused
  intro s d base count hd
  constructor
  · intro hn hwrap
    change execTransmit d base count s = _
    rw [execTransmit, admitHandle_of_wf hd, admitRange_of_wraps hn hwrap]
  · intro hwrap
    change execTxpixel d base s = _
    rw [execTxpixel, admitHandle_of_wf hd, admitRange_of_wraps Nat.one_pos hwrap]

/-- Settles O35: past the checks a sequence of pixels is stopped by a byte without value, and by nothing else. -/
theorem unwrittenPixelByteFaults : Obligations.UnwrittenPixelByteFaults := by
  unfold Obligations.UnwrittenPixelByteFaults
  intro s d base count hm hd hr hnone
  rw [exec_transmit_of_mayEmit hm hd (.inr hr)]
  exact (sendPixels_eq base count s (primitiveFault_eq_none.2 hm)).2 hnone

/-! ### The events of a TRANSMIT, counted -/

theorem edgeTimes_length (c : Config) (n t : Nat) (bits : List Bool) : (edgeTimes c n t bits).length = bits.length := by
  induction bits generalizing n t with
  | nil => rfl
  | cons b rest ih => simp only [edgeTimes, List.length_cons, ih]

theorem wireBits_length (bs : List Byte) : (wireBits bs).length = 8 * bs.length := by
  induction bs with
  | nil => rfl
  | cons b rest ih =>
    rw [wireBits_cons, List.length_append, bitsOf_length, ih, List.length_cons]
    omega

/-- Settles O31: three bytes a pixel, each read once and sent as eight symbols of two edges. -/
theorem transmitMakesFortyEightWritesPerPixel : Obligations.TransmitMakesFortyEightWritesPerPixel := by
  unfold Obligations.TransmitMakesFortyEightWritesPerPixel
  intro s t d base count h
  obtain ⟨bs, rs, -, he, -, hvalues, -, -, hbytes, -⟩ := sendPixels_emission (q := 0) (sendPixels_of_transmit_next h) rfl
  obtain ⟨es, ht, hreads, hlen, hwrites, -⟩ := he.events
  have hedges : (edgeTimes s.cfg 0 s.cycle (wireBits bs)).length = 24 * count := by
    rw [edgeTimes_length, wireBits_length, hbytes]
    omega
  have hrs : rs.length = 3 * count := by rw [← hbytes, ← hvalues, List.length_map]
  refine ⟨es, ht, ?_, ?_, ?_⟩
  · rw [hwrites, hedges]
    omega
  · rw [hreads, hrs]
  · rw [hlen, hedges, hrs]
    omega

/-! ### Operations that write no port -/

theorem delay_shreg (n : Nat) (s : State) : (delay n s).seq.shreg = s.seq.shreg := by
  obtain ⟨x, y, es, h, -⟩ := delay_frame n s
  rw [h]

/-- Settles O42: of the cases of an operation only emission writes the ports or the shift register, and it is a case of
TRANSMIT and of the micro-operations that emit. -/
theorem sessionDelayAndLookupWriteNoPort : Obligations.SessionDelayAndLookupWriteNoPort := by
  unfold Obligations.SessionDelayAndLookupWriteNoPort
  intro i s t h hi
  cases exec_done h with
  | nothing => exact ⟨rfl, rfl⟩
  | opened d => exact ⟨rfl, rfl⟩
  | closed d => exact ⟨delay_ports _ _, delay_shreg _ _⟩
  | waited n => exact ⟨delay_ports n s, delay_shreg n s⟩
  | emitted es rs t he hp hemits =>
    obtain rfl | rfl | ⟨b, rfl⟩ | ⟨d, a, rfl⟩ | ⟨d, base, count, rfl⟩ := hemits <;> simp at hi
  | answered o => exact ⟨rfl, rfl⟩

/-! ### The host's writes of pixel memory -/

/-- Settles O54: an address inside the space is written, any other refused. -/
theorem memoryHoldsWhatTheHostWrote : Obligations.MemoryHoldsWhatTheHostWrote := by
  unfold Obligations.MemoryHoldsWhatTheHostWrote
  intro s a v
  constructor
  · intro ha
    refine ⟨{ s with mem := Memory.write a v s.mem }, insideSpace_eq_next.2 ⟨ha, rfl⟩, rfl, ?_, ?_, Memory.wf_write⟩
    · rw [Memory.read_write, if_pos rfl]
    · intro b hb
      rw [Memory.read_write, if_neg hb]
  · intro ha
    exact if_neg (Nat.not_lt.2 ha)

end Sys2Proof.Machine
end

section
/-! PROOFS. Decoding and encoding: what each format's decoder answers and refuses (O1 to O4), the encoder against the
decoder in both directions (O5, O6), words of the opcode table (O7), and the steps that follow a byte that decodes at one
of the model's own ports (O11) or a `CMD` byte that does not (O12). -/

namespace Sys2Proof.Machine

variable {s : State} {c : Config} {f : Format} {w : Byte} {o : Operands} {i : Instr}

/-! ### Handles and refusals -/

theorem takeHandle_some {d : Handle} (h : o.dev = some d) (g : Handle → Instr) : takeHandle o g = .ok (g d) :=
  takeHandle_eq_ok.2 ⟨d, h, rfl⟩

theorem takeHandle_none (h : o.dev = none) (g : Handle → Instr) : takeHandle o g = .error .handleNotPopulated := by
  rw [takeHandle, h]

/-- Decoders are total: what names no operation is refused. -/
theorem exists_error_of_ne_ok {r : Except DecodeError Instr} (h : ∀ i, r ≠ .ok i) : ∃ e, r = .error e := by
  cases r with
  | error e => exact ⟨e, rfl⟩
  | ok i => exact absurd rfl (h i)

/-! ### The format `CMD` -/

theorem decode_cmd_zero (o : Operands) : decode .cmd 0x00 o = takeHandle o .prepare := rfl
theorem decode_cmd_one (o : Operands) : decode .cmd 0x01 o = takeHandle o (fun d => .transmit d o.base o.count) := rfl
theorem decode_cmd_two (o : Operands) : decode .cmd 0x02 o = takeHandle o .waitReset := rfl
theorem decode_cmd_three (o : Operands) : decode .cmd 0x03 o = takeHandle o .close := rfl

theorem byte_of_toNat_le_three (h : w.toNat ≤ 3) : w = 0x00 ∨ w = 0x01 ∨ w = 0x02 ∨ w = 0x03 := by
  bv_omega

theorem decode_cmd_not_populated (hw : w.toNat ≤ 3) (ho : o.dev = none) :
    decode .cmd w o = .error .handleNotPopulated := by
  obtain rfl | rfl | rfl | rfl := byte_of_toNat_le_three hw
  · rw [decode_cmd_zero, takeHandle_none ho]
  · rw [decode_cmd_one, takeHandle_none ho]
  · rw [decode_cmd_two, takeHandle_none ho]
  · rw [decode_cmd_three, takeHandle_none ho]

/-- What names no command is refused (R20, R113). -/
theorem decode_cmd_refuses (h : w &&& 0xF0 ≠ 0 ∨ 0x04 ≤ w.toNat ∨ o.dev = none) : ∃ e, decode .cmd w o = .error e := by
  refine exists_error_of_ne_ok fun i hi => ?_
  obtain ⟨d, hd, hc⟩ := decodeCmd_eq_ok hi
  rw [hd] at h
  obtain ⟨rfl, -⟩ | ⟨rfl, -⟩ | ⟨rfl, -⟩ | ⟨rfl, -⟩ := hc <;> simp at h

/-- Settles O1: the four words take the handle, and only those four bytes name a command. -/
theorem commandBytesDecodeAsTableE2 : Obligations.CommandBytesDecodeAsTableE2 := by
  unfold Obligations.CommandBytesDecodeAsTableE2
  intro w o
  refine ⟨fun d hd => ⟨?_, ?_, ?_, ?_⟩, fun ho hw => decode_cmd_not_populated hw ho,
    fun hw => decode_cmd_refuses (.inr (.inl hw))⟩
  · rintro rfl
    rw [decode_cmd_zero, takeHandle_some hd]
  · rintro rfl
    rw [decode_cmd_one, takeHandle_some hd]
  · rintro rfl
    rw [decode_cmd_two, takeHandle_some hd]
  · rintro rfl
    rw [decode_cmd_three, takeHandle_some hd]

/-! ### The format `BITSEL` -/

theorem selectsOne_iff (w : Byte) : selectsOne w = true ↔ w &&& 0x80 = 0x80 := by
  revert w
  decide

theorem selectsOne_eq_false_iff (w : Byte) : selectsOne w = false ↔ w &&& 0x80 = 0x00 := by
  revert w
  decide

/-- Settles O2: the selector is a bit, so it is set or clear. -/
theorem bitSevenSelectsThePrimitive : Obligations.BitSevenSelectsThePrimitive := by
  unfold Obligations.BitSevenSelectsThePrimitive
  intro w o
  rw [← selectsOne_iff, ← selectsOne_eq_false_iff]
  refine ⟨fun h => ?_, fun h => ?_, Bool.eq_false_or_eq_true (selectsOne w)⟩ <;> simp [decode, decodeBitsel, h]

/-! ### The format `UOP` -/

/-- A `UOP` byte that names an operation is one of the five indices, its operands those of the latches (R94, Table E2). -/
theorem decodeUop_eq_ok (h : decodeUop w o = .ok i) :
    w = 0x04 ∧ i = .txbit0 ∨ w = 0x05 ∧ i = .txbit1 ∨ w = 0x06 ∧ i = .txbyte o.ub ∨
      (w = 0x07 ∧ ∃ d, o.dev = some d ∧ i = .txpixel d o.uaddr) ∨ w = 0x08 ∧ i = .delayUs o.un := by
  unfold decodeUop at h
  split at h
  case isTrue => cases h
  case isFalse hw =>
    rw [and_0x0F_of_high_zero w (not_not.1 hw)] at h
    split at h
    case h_5 hn =>
      cases h
      exact .inl ⟨BitVec.eq_of_toNat_eq hn, rfl⟩
    case h_6 hn =>
      cases h
      exact .inr (.inl ⟨BitVec.eq_of_toNat_eq hn, rfl⟩)
    case h_7 hn =>
      cases h
      exact .inr (.inr (.inl ⟨BitVec.eq_of_toNat_eq hn, rfl⟩))
    case h_8 hn =>
      obtain ⟨d, hd, rfl⟩ := takeHandle_eq_ok.1 h
      exact .inr (.inr (.inr (.inl ⟨BitVec.eq_of_toNat_eq hn, d, hd, rfl⟩)))
    case h_9 hn =>
      cases h
      exact .inr (.inr (.inr (.inr ⟨BitVec.eq_of_toNat_eq hn, rfl⟩)))
    all_goals cases h

theorem decode_uop_seven (o : Operands) : decode .uop 0x07 o = takeHandle o (fun d => .txpixel d o.uaddr) := rfl

/-- No other byte names a micro-operation (R94); that a byte above the 4-bit index is among them is log 6. -/
theorem decode_uop_refuses (h : w.toNat < 0x04 ∨ 0x08 < w.toNat) : ∃ e, decode .uop w o = .error e := by
  refine exists_error_of_ne_ok fun i hi => ?_
  obtain ⟨rfl, -⟩ | ⟨rfl, -⟩ | ⟨rfl, -⟩ | ⟨rfl, -⟩ | ⟨rfl, -⟩ := decodeUop_eq_ok hi <;> simp at h

/-- Settles O3: TXPIXEL takes the handle, the other four decode by computation, and no other byte names one. -/
theorem microOperationIndicesNameTheFive : Obligations.MicroOperationIndicesNameTheFive := by
  unfold Obligations.MicroOperationIndicesNameTheFive
  intro w o
  refine ⟨?_, ?_, ?_, ?_, ?_, ?_, decode_uop_refuses⟩
  · rintro rfl
    rfl
  · rintro rfl
    rfl
  · rintro rfl
    rfl
  · rintro d rfl hd
    rw [decode_uop_seven, takeHandle_some hd]
  · rintro rfl hd
    rw [decode_uop_seven, takeHandle_none hd]
  · rintro rfl
    rfl

/-! ### The format `COSEL` -/

/-- A byte that selects a lookup is the selector of Table E3 for it. -/
theorem decodeCosel_word (h : decodeCosel w = .ok i) :
    w = 0 ∧ i = .colortabRgb ∨ w = 1 ∧ i = .colortabRbg ∨ w = 2 ∧ i = .colortabGrb ∨ w = 3 ∧ i = .colortabGbr ∨
      w = 4 ∧ i = .colortabBrg ∨ w = 5 ∧ i = .colortabBgr := by
  unfold decodeCosel at h
  split at h <;> cases h <;> simp [← BitVec.toNat_inj, *]

/-- Selectors 6 and 7 are refused (R114), and so is a byte above the 3-bit selector (log 6). -/
theorem decode_cosel_refuses (h : 5 < w.toNat) : ∃ e, decode .cosel w o = .error e := by
  refine exists_error_of_ne_ok fun i hi => ?_
  obtain ⟨rfl, -⟩ | ⟨rfl, -⟩ | ⟨rfl, -⟩ | ⟨rfl, -⟩ | ⟨rfl, -⟩ | ⟨rfl, -⟩ := decodeCosel_word hi <;> simp at h

/-- Settles O4: the six selectors decode by computation, and no other byte selects a lookup. -/
theorem selectorsDecodeAsTableE3 : Obligations.SelectorsDecodeAsTableE3 := by
  unfold Obligations.SelectorsDecodeAsTableE3
  intro w o
  refine ⟨?_, ?_, ?_, ?_, ?_, ?_, decode_cosel_refuses⟩ <;> rintro rfl <;> rfl

/-! ### The encoder -/

/-- What the operand registers of `c`'s widths hold of an operation: its operands, each cut to its register (R39, log 2). -/
def latchInstr (c : Config) (i : Instr) : Instr :=
  match i with
  | .prepare d => .prepare (latchHandle c d)
  | .transmit d b n => .transmit (latchHandle c d) (keepBits c.addrW b) (keepBits c.countW n)
  | .waitReset d => .waitReset (latchHandle c d)
  | .close d => .close (latchHandle c d)
  | .txpixel d a => .txpixel (latchHandle c d) (keepBits c.addrW a)
  | .delayUs n => .delayUs (keepBits (delayBits c) n)
  | i => i

/-- The decoder reads back what the registers hold, of any operation, well-formed or not: the format, the word and the
place of each operand are fixed for each of the fifteen, so this computes. -/
theorem decode_encode (c : Config) (i : Instr) :
    decode (encode c i).format (encode c i).word (encode c i).ops = .ok (latchInstr c i) := by
  cases i <;> simp only [encode] <;> rfl

theorem keepBits_eq_self {n k : Nat} (h : k < 2 ^ n) : keepBits n k = k := Nat.mod_eq_of_lt h

theorem latchHandle_eq_self {d : Handle} (h : handleOk c d = true) : latchHandle c d = d := by
  simp only [handleOk, Bool.and_eq_true, decide_eq_true_eq] at h
  obtain ⟨⟨hport, hreset⟩, -⟩ := h
  rw [latchHandle, keepBits_eq_self hport, keepBits_eq_self hreset]

/-- An operation whose operands fit their registers is held whole. -/
theorem latchInstr_eq_self (h : i.wf c = true) : latchInstr c i = i := by
  cases i with
  | prepare d => rw [latchInstr, latchHandle_eq_self h]
  | transmit d b n =>
    simp only [Instr.wf, Bool.and_eq_true, decide_eq_true_eq] at h
    obtain ⟨⟨hd, hb⟩, hn⟩ := h
    rw [latchInstr, latchHandle_eq_self hd, keepBits_eq_self hb, keepBits_eq_self hn]
  | waitReset d => rw [latchInstr, latchHandle_eq_self h]
  | close d => rw [latchInstr, latchHandle_eq_self h]
  | txpixel d a =>
    simp only [Instr.wf, Bool.and_eq_true, decide_eq_true_eq] at h
    obtain ⟨hd, ha⟩ := h
    rw [latchInstr, latchHandle_eq_self hd, keepBits_eq_self ha]
  | delayUs n => rw [latchInstr, keepBits_eq_self (of_decide_eq_true h)]
  | txbit0 | txbit1 | txbyte | colortabRgb | colortabRbg | colortabGrb | colortabGbr | colortabBrg | colortabBgr => rfl

/-- Settles O5: the decoder reads what the registers hold, and the registers hold a well-formed operation whole. -/
theorem decodeOfEncodeIsTheOperation : Obligations.DecodeOfEncodeIsTheOperation := by
  unfold Obligations.DecodeOfEncodeIsTheOperation
  intro c i hi
  rw [decode_encode, latchInstr_eq_self hi]

/-- Settles O6: in each format, the words that name an operation are the encoder's. -/
theorem eachOperationHasOneWord : Obligations.EachOperationHasOneWord := by
  unfold Obligations.EachOperationHasOneWord
  intro c f w o i hf h0 h1 hd
  cases f with
  | cmd =>
    obtain ⟨d, -, ⟨rfl, rfl⟩ | ⟨rfl, rfl⟩ | ⟨rfl, rfl⟩ | ⟨rfl, rfl⟩⟩ := decodeCmd_eq_ok hd <;> exact ⟨rfl, rfl⟩
  | uop =>
    obtain ⟨-, rfl⟩ | ⟨-, rfl⟩ | ⟨rfl, rfl⟩ | ⟨rfl, d, -, rfl⟩ | ⟨rfl, rfl⟩ := decodeUop_eq_ok hd
    · exact absurd rfl h0
    · exact absurd rfl h1
    all_goals exact ⟨rfl, rfl⟩
  | bitsel => exact absurd rfl hf
  | cosel =>
    obtain ⟨rfl, rfl⟩ | ⟨rfl, rfl⟩ | ⟨rfl, rfl⟩ | ⟨rfl, rfl⟩ | ⟨rfl, rfl⟩ | ⟨rfl, rfl⟩ := decodeCosel_word hd <;>
      exact ⟨rfl, rfl⟩

/-- Settles O7: eight closed computations of the decoder, the format of a word being log 5's. -/
theorem tableWordsDecode : Obligations.TableWordsDecode := by
  unfold Obligations.TableWordsDecode
  exact ⟨rfl, rfl, rfl, rfl, rfl, rfl, rfl, rfl⟩

/-! ### The steps that read a byte -/

/-- With the sequencer idle and no held request taken, a step is what the input at the head does. -/
theorem step_of_input {inp : Input} {rest : List Input} (hp : s.seq.pos = .idle) (h : s.ie = false ∨ s.heldIrq = [])
    (hin : s.inputs = inp :: rest) : step s = runInput inp { s with inputs := rest } := by
  rw [step_idle hp h, stepIdle, hin]

/-- Away from the command port an operation has nothing around it (R320, log 6). -/
theorem issue_of_decode (hf : f ≠ .cmd) (hd : decode f w s.ops = .ok i) : issue f w s = exec i s := by
  rw [issue, hd]
  cases f with
  | cmd => exact absurd rfl hf
  | uop | bitsel | cosel => rfl

theorem issue_of_decode_error {e : DecodeError} (hd : decode f w s.ops = .error e) :
    issue f w s = .refused (.undecodable e) := by
  rw [issue, hd]

theorem issueByCycle_of_decode_error {e : DecodeError} (hd : decode .cmd w s.ops = .error e) :
    issueByCycle w s = .refused (.undecodable e) := by
  rw [issueByCycle, hd]

/-- Settles O11: the step is the input's, and the input's is `exec` of what its byte names. -/
theorem stepRunsTheDecodedMicroOperation : Obligations.StepRunsTheDecodedMicroOperation := by
  unfold Obligations.StepRunsTheDecodedMicroOperation
  intro s rest i hp hirq
  refine ⟨fun w hin hd => ?_, fun hin hd => ?_, fun w hin hd => ?_⟩
  · exact (step_of_input hp hirq hin).trans (issue_of_decode (by decide) hd)
  · exact (step_of_input hp hirq hin).trans (issue_of_decode (s := { s with inputs := rest }) (by decide) hd)
  · exact (step_of_input hp hirq hin).trans (issue_of_decode (by decide) hd)

/-- Settles O12: a `CMD` byte that names no command, or finds no handle, does not decode, in either grain. -/
theorem otherCommandBytesAreRefused : Obligations.OtherCommandBytesAreRefused := by
  unfold Obligations.OtherCommandBytesAreRefused
  intro s w rest hp hirq hin hbad
  obtain ⟨e, he⟩ := decode_cmd_refuses hbad
  refine ⟨e, ?_⟩
  obtain hin | hin := hin
  · exact (step_of_input hp hirq hin).trans (issue_of_decode_error he)
  · exact (step_of_input hp hirq hin).trans (issueByCycle_of_decode_error he)

end Sys2Proof.Machine
end

section
/-! PROOFS. The colour orders: what each of COLORTAB's six lookups answers, and that a selector and its answer determine
each other. The selectors of Table E3 number the six orders in lexicographic order. -/

namespace Sys2Proof.Machine

variable {w : Byte} {o : Order}

/-- Settles O38: R131 to R136 as one computation each; `colorOut` is the model's own latch (log 7). -/
theorem colortabAnswersTableE3 : Obligations.ColortabAnswersTableE3 := by
  unfold Obligations.ColortabAnswersTableE3
  intro s
  exact ⟨rfl, rfl, rfl, rfl, rfl, rfl⟩

/-- The place of an order among the permutations of {0, 1, 2}, counted from 0: two for each smaller first element, and one
more when the other two descend. -/
def orderRank (o : Order) : Byte := 2 * o.o0.setWidth 8 + if o.o2 < o.o1 then 1 else 0

/-- The permutations of {0, 1, 2}, in the order of their ranks. -/
theorem eq_of_permutes (h : permutes o = true) :
    o = ⟨0, 1, 2⟩ ∨ o = ⟨0, 2, 1⟩ ∨ o = ⟨1, 0, 2⟩ ∨ o = ⟨1, 2, 0⟩ ∨ o = ⟨2, 0, 1⟩ ∨ o = ⟨2, 1, 0⟩ := by
  obtain ⟨a, b, c⟩ := o
  revert a b c
  decide

/-- What a selector's lookup answers: a permutation whose rank is the selector, with nothing else changed (R130). -/
theorem exec_of_decodeCosel {i : Instr} (h : decodeCosel w = .ok i) :
    ∃ o, permutes o = true ∧ w = orderRank o ∧ ∀ s, exec i s = .next (answerTable o s) := by
  obtain ⟨rfl, rfl⟩ | ⟨rfl, rfl⟩ | ⟨rfl, rfl⟩ | ⟨rfl, rfl⟩ | ⟨rfl, rfl⟩ | ⟨rfl, rfl⟩ := decodeCosel_word h <;>
    exact ⟨_, rfl, rfl, fun _ => rfl⟩

/-- Byte `w` selects a lookup whose answer is `o`, from every state. -/
def Answers (w : Byte) (o : Order) : Prop :=
  ∀ s : State, ∃ i, decode .cosel w s.ops = .ok i ∧ exec i s = .next { s with colorOut := o }

/-- A permutation is the answer of the selector of its rank. -/
theorem answers_orderRank (h : permutes o = true) : Answers (orderRank o) o := by
  intro s
  obtain rfl | rfl | rfl | rfl | rfl | rfl := eq_of_permutes h <;> exact ⟨_, rfl, rfl⟩

/-- An answer is a permutation, and its rank is the selector; a byte above the 3-bit selector has no answer (log 6). -/
theorem answers_iff : Answers w o ↔ permutes o = true ∧ w = orderRank o := by
  constructor
  · intro h
    obtain ⟨i, hd, hi⟩ := h State.reset
    obtain ⟨p, hp, hw, hex⟩ := exec_of_decodeCosel hd
    have hpo : p = o := congrArg State.colorOut (Host.Outcome.next.inj ((hex State.reset).symm.trans hi))
    exact hpo ▸ ⟨hp, hw⟩
  · rintro ⟨h, rfl⟩
    exact answers_orderRank h

/-- Settles O39: the one selector that answers a permutation is its rank. -/
theorem everyPermutationHasOneSelector : Obligations.EveryPermutationHasOneSelector := by
  unfold Obligations.EveryPermutationHasOneSelector
  intro o
  constructor
  · intro h
    exact ⟨orderRank o, answers_orderRank h, fun v hv => (answers_iff.1 hv).2⟩
  · rintro ⟨w, hw, -⟩
    exact (answers_iff.1 hw).1

end Sys2Proof.Machine
end

section
/-! PROOFS. The Bit Encoder: the derived segment lengths against the low-time check (O56), the symbols of the two
primitives (O24, O25) and their precondition (O26). -/

namespace Sys2Proof.Machine

/-! ### The low time of derived lengths -/

/-- ZeroLowTooShort is named only where no padding of the "0" low segment is negative (R143, R144; log 28). -/
theorem configError_zeroLowTooShort {c : Config} (h : configError c = some .zeroLowTooShort) :
    c.fix0L ≤ c.n0L ∧ lastsAtLeast c c.n0L Config.t0LMinNs = false := by
  simp only [configError, pad_neg_iff] at h
  split at h
  case isTrue hpad => cases h
  case isFalse hpad =>
    split at h
    case isTrue hlow => exact ⟨by omega, by simpa using hlow⟩
    case isFalse hlow => split at h <;> cases h

/-- R144's remark: rounding to the nearest cycle (R141) takes at most half a cycle off the 800 ns. Up to a cycle of 700 ns
the 350 ns to spare cover that, and one longer cycle lasts 450 ns by itself. -/
theorem cyc_t0L_lasts {f : Nat} (h : 1 ≤ cyc f Config.t0LNs) :
    Config.t0LMinNs * f ≤ cyc f Config.t0LNs * 1000000000 := by
  simp only [cyc, Config.t0LNs, Config.t0LMinNs] at h ⊢
  omega

/-- Settles O56: past the padding check a derived `N_0L` is at least 1, and then it lasts 450 ns. That the padding is named
where both apply is the model's precedence (log 28). -/
theorem derivedLengthsAreNeverTooShort : Obligations.DerivedLengthsAreNeverTooShort := by
  unfold Obligations.DerivedLengthsAreNeverTooShort
  intro c f hfix h
  obtain ⟨hpad, hshort⟩ := configError_zeroLowTooShort h
  have hlasts : lastsAtLeast (derivedFrom c f) (derivedFrom c f).n0L Config.t0LMinNs = true :=
    (lastsAtLeast_iff _ _ _).2 (cyc_t0L_lasts (Nat.le_trans hfix hpad))
  rw [hlasts] at hshort
  cases hshort

/-! ### The symbols -/

variable {s : State}

/-- A symbol in full: two writes of the session's port, the second computed from the port as the first left it (R79). -/
theorem symbol_eq (nh nl : Nat) (s : State) : symbol nh nl s = { s with
    ports := (pinsLow (pinsHigh s)).ports
    cycle := s.cycle + nh + nl
    trace := s.trace ++
      [.w s.cycle s.ses.cPort (highValue s), .w (s.cycle + nh) s.ses.cPort (lowValue (pinsHigh s))] } := by
  have htrace : (symbol nh nl s).trace = s.trace ++
      [.w s.cycle s.ses.cPort (highValue s), .w (s.cycle + nh) s.ses.cPort (lowValue (pinsHigh s))] := by
    simp [symbol, highValue, lowValue]
  rw [← htrace]
  rfl

theorem exec_txbit1_of_mayEmit (hm : MayEmit s) : exec .txbit1 s = .next (symbol s.cfg.n1H s.cfg.n1L s) := by
  change execTxbit1 s = _
  rw [execTxbit1, primitiveFault_eq_none.2 hm, unlessFault_none]

theorem exec_txbit0_of_mayEmit (hm : MayEmit s) : exec .txbit0 s = .next (symbol s.cfg.n0H s.cfg.n0L s) := by
  change execTxbit0 s = _
  rw [execTxbit0, primitiveFault_eq_none.2 hm, unlessFault_none]

/-- Settles O24: TXBIT1 is the symbol of `N_1H` and `N_1L`. While Closed under `TX_CLOSED = emit` before any PREPARE it goes
on by the model's choice (log 10). -/
theorem txbit1EmitsAOne : Obligations.Txbit1EmitsAOne := by
  unfold Obligations.Txbit1EmitsAOne
  intro s hm
  rw [exec_txbit1_of_mayEmit hm, symbol_eq]
  rfl

/-- Settles O25: TXBIT0 is the symbol of `N_0H` and `N_0L`, with the same choice before any PREPARE (log 10). -/
theorem txbit0EmitsAZero : Obligations.Txbit0EmitsAZero := by
  unfold Obligations.Txbit0EmitsAZero
  intro s hm
  rw [exec_txbit0_of_mayEmit hm, symbol_eq]
  rfl

/-! ### The precondition -/

theorem primitiveFault_of_closed (ho : s.ses.isOpen = false) (hc : s.cfg.txClosed = .fault) :
    primitiveFault s = some .primitiveOutsideSession := if_pos ⟨ho, hc⟩

theorem primitiveFault_of_enabled (ho : s.ses.isOpen = true ∨ s.cfg.txClosed = .emit) (hie : s.ie = true) :
    primitiveFault s = some .interruptsEnabled := by
  have hpass : ¬(s.ses.isOpen = false ∧ s.cfg.txClosed = .fault) := by
    rintro ⟨hf, hc⟩
    simp [hf, hc] at ho
  rw [primitiveFault, if_neg hpass, if_pos hie]

/-- What the check names, either primitive raises, before any effect (R269). -/
theorem exec_primitive_of_fault {i : Instr} {e : Fault} (hi : i = .txbit0 ∨ i = .txbit1)
    (h : primitiveFault s = some e) : exec i s = .fault e := by
  obtain rfl | rfl := hi
  · change execTxbit0 s = _
    rw [execTxbit0, h, unlessFault_some]
  · change execTxbit1 s = _
    rw [execTxbit1, h, unlessFault_some]

/-- Settles O26: the two faults of the check in its order, and completion past it; before any PREPARE under
`TX_CLOSED = emit` that is the model's choice (log 10). -/
theorem primitivesFaultOutsideTheirPrecondition : Obligations.PrimitivesFaultOutsideTheirPrecondition := by
  unfold Obligations.PrimitivesFaultOutsideTheirPrecondition
  intro s i hi
  refine ⟨?closed, ?enabled, ?completes⟩
  case closed => exact fun ho hc => exec_primitive_of_fault hi (primitiveFault_of_closed ho hc)
  case enabled => exact fun ho hie => exec_primitive_of_fault hi (primitiveFault_of_enabled ho hie)
  case completes =>
    intro ho hie
    obtain rfl | rfl := hi
    · exact ⟨_, exec_txbit0_of_mayEmit ⟨hie, ho⟩⟩
    · exact ⟨_, exec_txbit1_of_mayEmit ⟨hie, ho⟩⟩

end Sys2Proof.Machine
end

section
/-! PROOFS. The Byte/Frame Transmitter run to completion: what TXBYTE, TXPIXEL and TRANSMIT emit (O27, O28, O29), how long
a TRANSMIT lasts (O30), its precondition (O32, O33), and a TRANSMIT cut in two (O36). -/

namespace Sys2Proof.Machine

variable {s t : State}

/-! ### What an emission leaves, in the words of the statements -/

namespace Emission

variable {edges : List (Nat × Nat)} {reads : List (Nat × Nat × Byte)}

theorem seq_eq (h : Emission s t edges reads) : t.seq = { s.seq with shreg := t.seq.shreg } := by
  have hf := congrArg State.seq h.frame
  exact hf

/-- The frame, with the sequencer's registers as they are. -/
theorem frame_seq (h : Emission s t edges reads) :
    t = { s with ports := t.ports, cycle := t.cycle, trace := t.trace, seq := t.seq } := by
  rw [h.seq_eq]
  exact h.frame

/-- The events of an emission from a ready session: its reads, and two port writes for each edge pair. -/
theorem events_of_ready (h : Emission s t edges reads) (hr : PortsReady s) :
    ∃ es, t.trace = s.trace ++ es ∧ es.length = 2 * edges.length + reads.length ∧ memoryReads es = reads ∧
      portWrites s.ses.cPort es = edgeWrites (highValue s) (lowValue s) edges := by
  obtain ⟨es, ht, hreads, hlen, -, hwrites, -⟩ := h.events
  exact ⟨es, ht, hlen, hreads, hwrites hr⟩

/-- After a symbol the session's port holds its low value, and every other port what it held. -/
theorem ports_of_ready (h : Emission s t edges reads) (hr : PortsReady s) (hne : edges ≠ []) (x : Nat) :
    Ports.read t.ports x =
      if x = s.ses.cPort then Ports.read s.ports x &&& s.ses.cMaskLo else Ports.read s.ports x := by
  rw [h.values hr]
  by_cases hx : x = s.ses.cPort
  · rw [if_pos ⟨hx, hne⟩, if_pos hx, hx, lowValue]
  · rw [if_neg (fun h => hx h.1), if_neg hx]

end Emission

/-! ### The micro-operations -/

theorem exec_txbyte_of_mayEmit (hm : MayEmit s) (b : Byte) : exec (.txbyte b) s = .next (sentByte b s) := by
  change execTxbyte b s = _
  rw [execTxbyte_eq, primitiveFault_eq_none.2 hm, unlessFault_none]

/-- A byte by itself is sent on the schedule of symbols 0 to 7. -/
theorem emission_sentByte_edgeTimes (b : Byte) (s : State) :
    Emission s (sentByte b s) (edgeTimes s.cfg 0 s.cycle (bitsOf b)) [] := by
  rw [edgeTimes_byte _ _ _ _ rfl]
  exact emission_sentByte b s

theorem edgeTimes_ne_nil {c : Config} {n u : Nat} {bits : List Bool} (h : 0 < bits.length) :
    edgeTimes c n u bits ≠ [] :=
  List.ne_nil_of_length_pos (by rwa [edgeTimes_length])

/-- Settles O27: a byte that is sent is the emission of its eight symbols. While Closed under `TX_CLOSED = emit` before any
PREPARE it goes on by the model's choice (log 10). -/
theorem txbyteSendsEightSymbols : Obligations.TxbyteSendsEightSymbols := by
  unfold Obligations.TxbyteSendsEightSymbols
  intro s b hm hwf hmask
  have he := emission_sentByte_edgeTimes b s
  have hr : PortsReady s := ⟨hwf, hmask⟩
  obtain ⟨es, ht, hlen, hreads, hwrites⟩ := he.events_of_ready hr
  rw [edgeTimes_length, bitsOf_length] at hlen
  have hseq := he.seq_eq
  rw [sentByte_shreg] at hseq
  exact ⟨sentByte b s, exec_txbyte_of_mayEmit hm b, sentByte_cycle b s, hseq, ⟨es, ht, hlen, hreads, hwrites⟩,
    he.ports_of_ready hr (edgeTimes_ne_nil (by rw [bitsOf_length]; decide)), he.frame_seq⟩

theorem exec_txpixel_of_admitted {d : Handle} {a : Nat} (hd : wfDev d = true) (ha : a + 2 < 2 ^ s.cfg.addrW) :
    exec (.txpixel d a) s = sendPixel d.order a s := by
  change execTxpixel d a s = _
  rw [execTxpixel, admitHandle_of_wf hd, admitRange_of_fits (.inr (by omega))]

/-- A record by itself is sent on the schedule of symbols 0 to 23, each byte read in the cycle of its first edge. -/
theorem sendPixel_edgeTimes {o : Order} {a : Nat} {b0 b1 b2 : Byte} (h : sendPixel o a s = .next t)
    (hbytes : bytesAt s.mem (recordAddresses o a) = some [b0, b1, b2]) :
    Emission s t (edgeTimes s.cfg 0 s.cycle (wireBits [b0, b1, b2]))
      [(s.cycle, pixelAddress o a 0, b0),
       (s.cycle + byteCycles s.cfg b0, pixelAddress o a 1, b1),
       (s.cycle + byteCycles s.cfg b0 + byteCycles s.cfg b1, pixelAddress o a 2, b2)] ∧
    t.cycle = s.cycle + recordCycles s.cfg b0 b1 b2 ∧ t.seq.shreg = 0x00 := by
  obtain ⟨c0, c1, c2, hc, he, hcycle, hshreg⟩ := sendPixel_emission h
  obtain ⟨rfl, rfl, rfl⟩ : c0 = b0 ∧ c1 = b1 ∧ c2 = b2 := by simpa [hc] using hbytes
  refine ⟨?_, hcycle, hshreg⟩
  rw [edgeTimes_record _ _ _ _ _ _ [] rfl]
  simpa [wireBits, edgeTimes] using he

/-- Settles O28: a record that is sent is the emission of its 24 symbols and three reads; before any PREPARE under
`TX_CLOSED = emit` it goes on by the model's choice (log 10). -/
theorem txpixelSendsTheRecordInOrder : Obligations.TxpixelSendsTheRecordInOrder := by
  unfold Obligations.TxpixelSendsTheRecordInOrder
  intro s d a b0 b1 b2 hm hwf hmask hd ha hbytes
  obtain ⟨t, hsent⟩ := (sendPixel_eq a s (primitiveFault_eq_none.2 hm)).1 _ hbytes
  obtain ⟨he, hcycle, hshreg⟩ := sendPixel_edgeTimes hsent hbytes
  have hr : PortsReady s := ⟨hwf, hmask⟩
  have hbits : (wireBits [b0, b1, b2]).length = 24 := wireBits_length _
  obtain ⟨es, ht, hlen, hreads, hwrites⟩ := he.events_of_ready hr
  rw [edgeTimes_length, hbits] at hlen
  exact ⟨t, (exec_txpixel_of_admitted hd ha).trans hsent, hcycle, hshreg ▸ he.seq_eq,
    ⟨es, ht, hlen, hreads, hwrites⟩, he.ports_of_ready hr (edgeTimes_ne_nil (by rw [hbits]; decide)), he.frame_seq⟩

/-! ### TRANSMIT -/

/-- Settles O29: the pixels of an admitted TRANSMIT are the emission of the edge schedule, whose reads are in wire order;
before any PREPARE under `TX_CLOSED = emit` it goes on by the model's choice (log 10). -/
theorem transmitFollowsTheEdgeSchedule : Obligations.TransmitFollowsTheEdgeSchedule := by
  unfold Obligations.TransmitFollowsTheEdgeSchedule
  intro s d base count bs hm hwf hmask hd hcount hfits hbytes
  obtain ⟨t, hsent⟩ := (sendPixels_eq base count s (primitiveFault_eq_none.2 hm)).1 bs hbytes
  obtain ⟨bs', rs, hbs', he, haddrs, hvalues, hend, -, hnum, hshreg⟩ := sendPixels_emission (q := 0) hsent rfl
  obtain rfl : bs' = bs := Option.some.inj (hbs'.symm.trans hbytes)
  rw [if_neg (Nat.ne_of_gt hcount)] at hshreg
  have hr : PortsReady s := ⟨hwf, hmask⟩
  have hbits : (wireBits bs').length = 24 * count := by rw [wireBits_length, hnum]; omega
  have hrs : rs.length = 3 * count := by rw [← hnum, ← hvalues, List.length_map]
  obtain ⟨es, ht, hlen, hreads, hwrites⟩ := he.events_of_ready hr
  rw [edgeTimes_length, hbits, hrs] at hlen
  exact ⟨t, (exec_transmit_of_mayEmit hm hd (.inr hfits)).trans hsent, hend, hshreg ▸ he.seq_eq,
    ⟨es, ht, by omega, by rw [hreads, haddrs], by rw [hreads, hvalues], hwrites⟩,
    he.ports_of_ready hr (edgeTimes_ne_nil (by omega)), he.frame_seq⟩

/-- Settles O30: the end of a sequence that was sent is the sum over its records. -/
theorem transmitLastsTheSumOfItsBytes : Obligations.TransmitLastsTheSumOfItsBytes := by
  unfold Obligations.TransmitLastsTheSumOfItsBytes
  intro s t d base count bs h hbytes
  obtain ⟨bs', -, hbs', -, -, -, -, hsum, -⟩ := sendPixels_emission (q := 0) (sendPixels_of_transmit_next h) rfl
  obtain rfl : bs' = bs := Option.some.inj (hbs'.symm.trans hbytes)
  exact hsum

/-! ### The precondition, and a TRANSMIT of no pixels -/

theorem transmitFault_of_closed (ho : s.ses.isOpen = false) (hc : s.cfg.txClosed = .fault) :
    transmitFault s = some .transmitWhileClosed := if_pos ⟨ho, hc⟩

theorem transmitFault_of_enabled (ho : s.ses.isOpen = true ∨ s.cfg.txClosed = .emit) (hie : s.ie = true) :
    transmitFault s = some .interruptsEnabled := by
  obtain ho | ho := ho <;> simp [transmitFault, ho, hie]

/-- What the check names, an admitted TRANSMIT raises, of no pixels too. -/
theorem exec_transmit_of_fault {d : Handle} {base count : Nat} {e : Fault} (hd : wfDev d = true)
    (hr : count = 0 ∨ base + 3 * count ≤ 2 ^ s.cfg.addrW) (h : transmitFault s = some e) :
    exec (.transmit d base count) s = .fault e := by
  change execTransmit d base count s = _
  rw [execTransmit, admitHandle_of_wf hd, admitRange_of_fits hr, h, unlessFault_some]

/-- Settles O33: the two faults of the check in its order, and past it the sending of bytes that have values; before any
PREPARE under `TX_CLOSED = emit` that is the model's choice (log 10). -/
theorem transmitFaultsOutsideItsPrecondition : Obligations.TransmitFaultsOutsideItsPrecondition := by
  unfold Obligations.TransmitFaultsOutsideItsPrecondition
  intro s d base count hd hr
  refine ⟨?closed, ?enabled, ?completes⟩
  case closed => exact fun ho hc => exec_transmit_of_fault hd hr (transmitFault_of_closed ho hc)
  case enabled => exact fun ho hie => exec_transmit_of_fault hd hr (transmitFault_of_enabled ho hie)
  case completes =>
    rintro ho hie ⟨bs, hbytes⟩
    have hm : MayEmit s := ⟨hie, ho⟩
    rw [exec_transmit_of_mayEmit hm hd hr]
    exact (sendPixels_eq base count s (primitiveFault_eq_none.2 hm)).1 bs hbytes

theorem exec_transmit_zero {d : Handle} (hm : MayEmit s) (hd : wfDev d = true) (base : Nat) :
    exec (.transmit d base 0) s = .next s := exec_transmit_of_mayEmit hm hd (.inl rfl)

/-- Settles O32: no pixels are sent, so as a command it is its two overheads, whatever the base register holds. -/
theorem emptyTransmitChangesNothing : Obligations.EmptyTransmitChangesNothing := by
  unfold Obligations.EmptyTransmitChangesNothing
  intro s d base hd
  refine ⟨fun ho hie => ⟨exec_transmit_zero ⟨hie, ho⟩ hd base, fun rest hp hin hdev hcount => ?_⟩,
    fun ho hc => exec_transmit_of_fault hd (.inl rfl) (transmitFault_of_closed ho hc)⟩
  have hdec : decode .cmd 0x01 s.ops = .ok (.transmit d s.ops.base 0) := by
    rw [decode_cmd_one, takeHandle_some hdev, hcount]
  have hm : MayEmit (accepted 0x01 rest s) := ⟨hie, ho⟩
  rw [stepRunsTheDecodedCommand s 0x01 rest _ hp (.inl hie) hin hdec]
  exact congrArg (chain · _) (exec_transmit_zero hm hd s.ops.base)

/-! ### A TRANSMIT cut in two -/

/-- The check of a TRANSMIT comes out the same after pixels were sent. -/
theorem Emission.transmitFault_eq {edges : List (Nat × Nat)} {reads : List (Nat × Nat × Byte)}
    (h : Emission s t edges reads) : transmitFault t = transmitFault s := by
  rw [transmitFault, transmitFault, h.ses_eq, h.cfg_eq, h.ie_eq]

/-- Settles O36: the second part is admitted because the whole is and passes the check that the first part passed. -/
theorem splitTransmitEqualsJoined : Obligations.SplitTransmitEqualsJoined := by
  unfold Obligations.SplitTransmitEqualsJoined
  intro s d base n m hfits
  by_cases hd : wfDev d = true
  case neg =>
    have refuses : ∀ b k (u : State), exec (.transmit d b k) u = .refused .malformedHandle := fun b k u => if_neg hd
    rw [refuses, refuses, chain_refused]
  case pos =>
    have hjoined : base + 3 * (n + m) ≤ 2 ^ s.cfg.addrW := hfits
    cases hf : transmitFault s with
    | some e =>
      rw [exec_transmit_of_fault hd (.inr hjoined) hf, exec_transmit_of_fault hd (.inr (by omega)) hf, chain_fault]
    | none =>
      have hm : MayEmit s := transmitFault_eq_none.1 hf
      rw [exec_transmit_of_mayEmit hm hd (.inr hjoined), exec_transmit_of_mayEmit hm hd (.inr (by omega)),
        sendPixels_add]
      cases hsent : sendPixels d.order base n s with
      | fault e => rfl
      | refused e => rfl
      | next u =>
        obtain ⟨_, _, -, he, -⟩ := sendPixels_emission (q := 0) hsent rfl
        have hmu : MayEmit u := transmitFault_eq_none.1 (he.transmitFault_eq.trans hf)
        rw [chain_next, chain_next, exec_transmit_of_mayEmit hmu hd (.inr (by rw [he.cfg_eq]; omega))]

end Sys2Proof.Machine
end

section
/-! PROOFS. TRANSMIT cycle by cycle (R184, log 14) against TRANSMIT run to completion (O52): a relation between the two
forms that holds of one symbol and is carried through the bits, the bytes and the records. -/

namespace Sys2Proof.Machine

variable {s : State} {p : TxPos}

/-! ### The relation -/

/-- The stepped form `o`, begun in `s`, comes to what the whole form `o'` comes to, followed by `f`: the same stop, or the
same state after exactly the cycles that `o'` lasts. It is about configurations that can be built, and carries the
configuration along. -/
def RunsInto (s : State) (o o' : Result State) (f : State → Result State) : Prop :=
  buildable s.cfg = true →
    ∃ n, Reaches o n (chain o' f) ∧ ∀ t, o' = .next t → t.cfg = s.cfg ∧ t.cycle = s.cycle + n

/-- One part after another. -/
theorem RunsInto.then {o o1 : Result State} {o2 f g : State → Result State} (h1 : RunsInto s o o1 f)
    (h2 : ∀ t, o1 = .next t → RunsInto t (f t) (o2 t) g) : RunsInto s o (chain o1 o2) g := by
  intro hb
  obtain ⟨n, hn, hend⟩ := h1 hb
  cases o1 with
  | fault e => exact ⟨n, hn, by simp⟩
  | refused e => exact ⟨n, hn, by simp⟩
  | next t =>
    obtain ⟨hcfg, hcycle⟩ := hend t rfl
    obtain ⟨m, hm, hend'⟩ := h2 t rfl (by rw [hcfg]; exact hb)
    refine ⟨n + m, hn.trans hm, fun u hu => ?_⟩
    obtain ⟨hcfg', hcycle'⟩ := hend' u hu
    exact ⟨hcfg'.trans hcfg, by rw [hcycle', hcycle, Nat.add_assoc]⟩

/-- What takes no cycle. -/
theorem runsInto_now (f : State → Result State) : RunsInto s (f s) (.next s) f :=
  fun _ => ⟨0, Reaches.refl _, by rintro t ⟨⟩; exact ⟨rfl, rfl⟩⟩

theorem runsInto_fault (e : Fault) (f : State → Result State) : RunsInto s (.fault e) (.fault e) f :=
  fun _ => ⟨0, Reaches.refl _, by simp⟩

theorem runsInto_refused (e : Refusal) (f : State → Result State) : RunsInto s (.refused e) (.refused e) f :=
  fun _ => ⟨0, Reaches.refl _, by simp⟩

/-! ### One segment -/

/-- A segment of `r` cycles: time passes, and its last cycle is what a cycle with `rem = 1` does. -/
theorem reaches_segment (p : TxPos) (s : State) {r : Nat} (hr : 1 ≤ r) :
    ∃ u, wait 1 u = wait r s ∧
      Reaches (.next (setPos (.tx { p with rem := r }) s)) r (tick (setPos (.tx { p with rem := 1 }) u)) := by
  obtain ⟨n, rfl⟩ := Nat.exists_eq_add_of_le' hr
  exact ⟨wait n s, wait_wait 1 n s, (reaches_lastCycle p s n).trans (reaches_tick rfl)⟩

/-- The high segment ends in the falling edge. -/
theorem reaches_fall (p : TxPos) (s : State) {r : Nat} (hr : 1 ≤ r) :
    Reaches (.next (setPos (.tx { p with phase := .h, rem := r }) s)) r (.next (fallAt p (wait r s))) := by
  obtain ⟨u, hu, h⟩ := reaches_segment { p with phase := .h } s hr
  rwa [show tick _ = .next (fallAt p (wait 1 u)) from rfl, hu] at h

/-- The gap ends in `advance`. -/
theorem reaches_advance_of_gap (p : TxPos) (s : State) {r : Nat} (hr : 1 ≤ r) :
    Reaches (.next (setPos (.tx { p with phase := .g, rem := r }) s)) r (advance p (wait r s)) := by
  obtain ⟨u, hu, h⟩ := reaches_segment { p with phase := .g } s hr
  have htick : tick (setPos (.tx { p with phase := .g, rem := 1 }) u) = advance p (wait 1 u) :=
    advance_setPos _ _ (wait 1 u)
  rwa [htick, hu] at h

/-- The low segment, and the gap if there is one, end in `advance`. -/
theorem reaches_advance (p : TxPos) (s : State) {r : Nat} (hr : 1 ≤ r) :
    Reaches (.next (setPos (.tx { p with phase := .l, rem := r }) s)) (r + gapAfter s.cfg p.j p.k)
      (advance p (wait (gapAfter s.cfg p.j p.k) (wait r s))) := by
  obtain ⟨u, hu, h⟩ := reaches_segment { p with phase := .l } s hr
  have hcfg : u.cfg = s.cfg := by rw [← wait_cfg u 1, hu, wait_cfg]
  have htick : tick (setPos (.tx { p with phase := .l, rem := 1 }) u) =
      if 0 < gapAfter s.cfg p.j p.k then
        .next (setPos (.tx { p with phase := .g, rem := gapAfter s.cfg p.j p.k }) (wait r s))
      else advance p (wait r s) := by
    rw [← hcfg, ← hu, ← advance_setPos p (.tx { p with phase := .l, rem := 1 })]
    rfl
  rw [htick] at h
  split at h
  case isTrue hg => exact h.trans (reaches_advance_of_gap p _ hg)
  case isFalse hg => rwa [Nat.eq_zero_of_not_pos hg]

/-! ### One symbol -/

/-- What follows a symbol, its register shifted: the next bit, the next byte, the next record, or the end (R184). -/
def afterSymbol (p : TxPos) (s : State) : Result State :=
  if p.k < 7 then riseAt { p with k := p.k + 1 } s
  else if p.j < 2 then enterByte { p with j := p.j + 1, k := 0 } s
  else if p.i + 1 < p.count then enterByte { p with i := p.i + 1, j := 0, k := 0 } s
  else .next (setPos .idle s)

theorem advance_eq (p : TxPos) (s : State) : advance p s = afterSymbol p (shiftShreg s) := rfl

/-- Let the gap after symbol `k` of the byte in wire position `j` pass. -/
def waitGap (j k : Nat) (s : State) : Result State := .next (wait (gapAfter s.cfg j k) s)

/-- A symbol from its rising edge, checked in both forms, with the gap after it. -/
theorem runsInto_symbol (p : TxPos) (s : State) :
    RunsInto s (riseAt p s) (chain (sendBit s) (waitGap p.j p.k)) (afterSymbol p) := by
  intro hb
  rw [sendBit_eq, riseAt]
  cases primitiveFault s with
  | some e => exact runsInto_fault e _ hb
  | none =>
    have hrise := reaches_fall p (pinsHigh s) (highCycles_pos hb (selectsOne s.seq.shreg))
    have hfall := reaches_advance p (pinsLow (wait (highCycles s.cfg (selectsOne s.seq.shreg)) (pinsHigh s)))
      (lowCycles_pos hb (selectsOne s.seq.shreg))
    refine ⟨_, hrise.trans hfall, ?_⟩
    rintro t ⟨⟩
    refine ⟨rfl, ?_⟩
    simp only [wait_cycle, sentBit_cycle, symbolCycles, sentBit_cfg, pinsLow_cfg, wait_cfg, pinsHigh_cfg]
    omega

theorem gapAfter_inside {c : Config} {j k : Nat} (hk : k < 7) : gapAfter c j k = 0 := by
  rw [gapAfter, if_neg (by omega), if_neg (by omega)]

/-- The last `n + 1` symbols of a byte, and the gap after it. -/
theorem runsInto_bits (n : Nat) (hk : p.k + n = 7) (s : State) :
    RunsInto s (riseAt p s) (chain (sendBits (n + 1) s) (waitGap p.j 7)) (afterSymbol { p with k := 7 }) := by
  induction n generalizing p s with
  | zero =>
    obtain ⟨order, base, count, i, j, k, phase, rem⟩ := p
    obtain rfl : k = 7 := hk
    have h := runsInto_symbol ⟨order, base, count, i, j, 7, phase, rem⟩ s
    simpa only [sendBits, chain_next_right] using h
  | succ n ih =>
    have hgap : waitGap p.j p.k = .next := by
      funext u
      rw [waitGap, gapAfter_inside (by omega)]
      rfl
    have hbit : RunsInto s (riseAt p s) (sendBit s) (riseAt { p with k := p.k + 1 }) := by
      have h := runsInto_symbol p s
      have hnext : afterSymbol p = riseAt { p with k := p.k + 1 } := funext fun u => if_pos (by omega)
      rwa [hgap, chain_next_right, hnext] at h
    rw [sendBits, chain_assoc]
    exact hbit.then fun t _ => ih (p := { p with k := p.k + 1 }) (by simp only; omega) t

/-! ### One byte -/

/-- The gap after a byte is `GAP_BYTE`, and after a record `GAP_PIXEL` more (R175). -/
theorem waitGap_byte (j : Nat) (s : State) :
    waitGap j 7 s = .next (wait (if j = 2 then s.cfg.gapPixel else 0) (wait s.cfg.gapByte s)) := by
  rw [wait_wait, waitGap, gapAfter, if_pos rfl]
  simp only [true_and]

/-- A byte from its read on, and the gap after it. -/
theorem runsInto_byte (hk : p.k = 0) (s : State) :
    RunsInto s (enterByte p s)
      (chain (sendPosition p.order (p.base + 3 * p.i) p.j s)
        fun t => .next (wait (if p.j = 2 then t.cfg.gapPixel else 0) t))
      (afterSymbol { p with k := 7 }) := by
  rw [enterByte, sendPosition]
  cases hread : memRead (pixelAddress p.order (p.base + 3 * p.i) p.j) s with
  | fault e => exact runsInto_fault e _
  | refused e => exact absurd hread memRead_ne_refused
  | next r =>
    obtain ⟨-, hr⟩ := memRead_eq_next.1 hread
    have hbits := runsInto_bits 7 (by omega : p.k + 7 = 7) (loadShreg r.1 r.2)
    have hgaps : chain (execTxbyte r.1 r.2) (fun t => .next (wait (if p.j = 2 then t.cfg.gapPixel else 0) t)) =
        chain (sendBits 8 (loadShreg r.1 r.2)) (waitGap p.j 7) := by
      rw [execTxbyte, chain_assoc]
      congr 1
      funext t
      rw [waitGap_byte]
      rfl
    rw [chain_next, chain_next, hgaps]
    rw [hr] at hbits ⊢
    exact hbits

/-- The two bytes of a record that another follows. -/
theorem runsInto_innerByte (hk : p.k = 0) (hj : p.j < 2) (s : State) :
    RunsInto s (enterByte p s) (sendPosition p.order (p.base + 3 * p.i) p.j s) (enterByte { p with j := p.j + 1 }) := by
  have h := runsInto_byte hk s
  have hwait : (fun t => .next (wait (if p.j = 2 then t.cfg.gapPixel else 0) t) : State → Result State) = .next := by
    funext t
    rw [if_neg (by omega)]
    rfl
  have hnext : afterSymbol { p with k := 7 } = enterByte { p with j := p.j + 1 } := by
    obtain ⟨order, base, count, i, j, k, phase, rem⟩ := p
    obtain rfl : k = 0 := hk
    exact funext fun u => if_pos hj
  rwa [hwait, chain_next_right, hnext] at h

/-! ### Records -/

/-- The position at which record `i` of a TRANSMIT is entered. -/
def recordStart (o : Order) (base count i : Nat) : TxPos :=
  { order := o, base := base, count := count, i := i, j := 0, k := 0, phase := .h, rem := 0 }

/-- What follows a record: the next one, or the end. -/
def afterRecord (o : Order) (base count i : Nat) (s : State) : Result State :=
  if i + 1 < count then enterByte (recordStart o base count (i + 1)) s else .next (setPos .idle s)

/-- A record: its three bytes one after the other, then `GAP_PIXEL`. -/
theorem runsInto_record (o : Order) (base count i : Nat) (s : State) :
    RunsInto s (enterByte (recordStart o base count i) s) (sendPixel o (base + 3 * i) s) (afterRecord o base count i) :=
  (runsInto_innerByte (p := recordStart o base count i) rfl Nat.zero_lt_two s).then fun s0 _ =>
  (runsInto_innerByte (p := { recordStart o base count i with j := 1 }) rfl Nat.one_lt_two s0).then fun s1 _ =>
  runsInto_byte (p := { recordStart o base count i with j := 2 }) rfl s1

/-- The records from `i` on. -/
theorem runsInto_records (o : Order) (base count : Nat) {i n : Nat} (hi : i + n + 1 = count) (s : State) :
    RunsInto s (enterByte (recordStart o base count i) s) (sendPixels o (base + 3 * i) (n + 1) s)
      (fun t => .next (setPos .idle t)) := by
  induction n generalizing i s with
  | zero =>
    have h := runsInto_record o base count i s
    have hend : afterRecord o base count i = fun t => .next (setPos .idle t) := funext fun t => if_neg (by omega)
    rw [hend] at h
    rwa [sendPixels, show sendPixels o (base + 3 * i + 3) 0 = .next from rfl, chain_next_right]
  | succ n ih =>
    have hnext : afterRecord o base count i = enterByte (recordStart o base count (i + 1)) :=
      funext fun t => if_pos (by omega)
    have h := runsInto_record o base count i s
    rw [hnext] at h
    rw [sendPixels]
    exact h.then fun t _ => ih (i := i + 1) (by omega) t

/-! ### TRANSMIT -/

/-- The checks of both forms are the same (R176, R184). -/
theorem RunsInto.checked {o o' : Result State} {f : State → Result State} (h : RunsInto s o o' f) (d : Handle)
    (base count : Nat) (e : Option Fault) :
    RunsInto s (admitHandle d <| admitRange s.cfg base count <| unlessFault e o)
      (admitHandle d <| admitRange s.cfg base count <| unlessFault e o') f := by
  unfold admitHandle admitRange
  split
  · split
    · cases e with
      | none => exact h
      | some e => exact runsInto_fault e f
    · exact runsInto_refused _ f
  · exact runsInto_refused _ f

theorem setPos_self {q : SeqPos} (h : s.seq.pos = q) : setPos q s = s := by
  subst h
  rfl

/-- A TRANSMIT that is started and stepped comes to what it does in one go, and the sequencer is idle at its end. -/
theorem runsInto_startTransmit (d : Handle) (base count : Nat) (hp : s.seq.pos = .idle) :
    RunsInto s (startTransmit d base count s) (exec (.transmit d base count) s) (fun t => .next (setPos .idle t)) := by
  refine RunsInto.checked ?_ d base count (transmitFault s)
  cases count with
  | zero =>
    have h := runsInto_now (s := s) (fun t => .next (setPos .idle t))
    simp only [setPos_self hp] at h
    exact h
  | succ n => exact runsInto_records d.order base (n + 1) (by omega) s

/-- A TRANSMIT that was run to completion, and its stepped form: the state, or the fault, and the cycles. -/
theorem stepped_transmit (d : Handle) (base count : Nat) (hb : buildable s.cfg = true) (hp : s.seq.pos = .idle) :
    ∃ n, chain (startTransmit d base count s) (runCycles n) = exec (.transmit d base count) s ∧
      ∀ t, exec (.transmit d base count) s = .next t → t.cycle = s.cycle + n := by
  obtain ⟨n, hn, hend⟩ := runsInto_startTransmit d base count hp hb
  refine ⟨n, ?_, fun t ht => (hend t ht).2⟩
  rw [← Nat.add_zero n, hn 0]
  cases h : exec (.transmit d base count) s with
  | next t =>
    have ht : t.seq.pos = .idle := (exec_pos h).trans hp
    rw [chain_next, setPos_self ht]
    rfl
  | fault e => rfl
  | refused e => rfl

/-- Settles O52: the stepped form comes to what the whole form answers; that both are kept is log 14. -/
theorem cycleFormOfTransmitAgrees : Obligations.CycleFormOfTransmitAgrees := by
  unfold Obligations.CycleFormOfTransmitAgrees
  intro s d base count hb hp
  obtain ⟨n, hn, hcycle⟩ := stepped_transmit d base count hb hp
  refine ⟨fun t ht => ⟨?_, (exec_pos ht).trans hp⟩, fun f hf => ⟨n, hn.trans hf⟩⟩
  rw [hcycle t ht, Nat.add_sub_cancel_left, hn, ht]

end Sys2Proof.Machine
end

section
/-! PROOFS. Each command stepped cycle by cycle by the machine's own steps against the one step of it (O58; R184, R41,
log 14): the stepped form of a command first, then its steps. -/

namespace Sys2Proof.Machine

variable {s t : State}

/-! ### The delay that drew nothing -/

/-- A delay draws exactly where interrupts are enabled during its wait (R235). -/
theorem delay_draws (n : Nat) (s : State) : (delay n s).draws = if (irqEnter s).ie then s.draws + 1 else s.draws := by
  have hleave : ∀ saved (u : State), (irqLeave saved u).draws = u.draws := fun saved u => by
    obtain ⟨v, es, h, -⟩ := irqLeave_frame saved u
    rw [h]
  obtain ⟨v, es, henter, -⟩ := irqEnter_frame s
  rw [delay, hleave]
  simp only [delayLoop_eq, stretchIfEnabled, henter, wait_ie, loadDly_ie]
  split <;> rfl

/-- A delay that drew nothing, started and stepped for its cycles. -/
theorem runCycles_startDelay_of_draws (n : Nat) (hp : s.seq.pos = .idle) (hd : (delay n s).draws = s.draws) :
    runCycles (delayCycles s.cfg n) (startDelay n s) = .next (delay n s) := by
  have hoff : (irqEnter s).ie = false := by
    rw [delay_draws] at hd
    split at hd
    case isTrue => omega
    case isFalse h => simpa using h
  rw [runCycles_startDelay, delay_eq_endDelay n hp hoff]

/-! ### The stepped form of a command -/

theorem runCycles_idle (k : Nat) (hp : s.seq.pos = .idle) : runCycles k s = .next s := by
  cases k with
  | zero => rfl
  | succ k => simp only [runCycles, hp]

theorem chain_admitHandle (d : Handle) (o : Result State) (f : State → Result State) :
    chain (admitHandle d o) f = admitHandle d (chain o f) := by
  unfold admitHandle
  split <;> rfl

theorem admitHandle_congr {d : Handle} {o o' : Result State} (h : wfDev d = true → o = o') :
    admitHandle d o = admitHandle d o' := by
  unfold admitHandle
  split
  case isTrue hd => exact h hd
  case isFalse => rfl

/-- The stepped form of a command comes to what the command does in one go: to its stop, or, where it drew nothing, to its
state. -/
theorem stepped_command {i : Instr} {w : Byte} {o : Operands} (hdec : decode .cmd w o = .ok i)
    (hb : buildable s.cfg = true) (hp : s.seq.pos = .idle) (hd : ∀ t, exec i s = .next t → t.draws = s.draws) :
    ∃ k, chain (startCommand i s) (runCycles k) = exec i s := by
  obtain ⟨d, -, ⟨-, rfl⟩ | ⟨-, rfl⟩ | ⟨-, rfl⟩ | ⟨-, rfl⟩⟩ := decodeCmd_eq_ok hdec
  · exact ⟨0, chain_next_right _⟩
  · obtain ⟨n, hn, -⟩ := stepped_transmit d o.base o.count hb hp
    exact ⟨n, hn⟩
  · refine ⟨delayCycles s.cfg d.resetUs, (chain_admitHandle d _ _).trans (admitHandle_congr fun hwf => ?_)⟩
    have hexec : exec (.waitReset d) s = .next (delay d.resetUs s) := admitHandle_of_wf hwf _
    exact runCycles_startDelay_of_draws d.resetUs hp (hd _ hexec)
  · refine ⟨delayCycles s.cfg d.resetUs, (chain_admitHandle d _ _).trans (admitHandle_congr fun hwf => ?_)⟩
    have hexec := admitHandle_of_wf hwf (.next (if s.ses.isOpen then delay d.resetUs (closeSession s) else s))
    have hdraws := hd _ hexec
    rw [chain_next]
    split
    case isTrue ho =>
      rw [if_pos ho] at hdraws
      exact runCycles_startDelay_of_draws (s := closeSession s) d.resetUs hp hdraws
    case isFalse => exact runCycles_idle _ hp

theorem admitHandle_refused_mono {d : Handle} {o o' : Result State} {r : Refusal} (h : admitHandle d o = .refused r)
    (ho : o = .refused r → o' = .refused r) : admitHandle d o' = .refused r := by
  unfold admitHandle at h ⊢
  by_cases hd : wfDev d = true
  · rw [if_pos hd] at h ⊢
    exact ho h
  · rw [if_neg hd] at h ⊢
    exact h

theorem admitRange_refused_mono {c : Config} {base count : Nat} {o o' : Result State} {r : Refusal}
    (h : admitRange c base count o = .refused r) (ho : o = .refused r → o' = .refused r) :
    admitRange c base count o' = .refused r := by
  unfold admitRange at h ⊢
  by_cases hr : fitsMemory c base count = true
  · rw [if_pos hr] at h ⊢
    exact ho h
  · rw [if_neg hr] at h ⊢
    exact h

/-- Refusals come before the precondition and the pixels (R267). -/
theorem unlessFault_sendPixels_ne_refused {e : Option Fault} {o : Order} {base count : Nat} {r : Refusal} :
    unlessFault e (sendPixels o base count s) ≠ .refused r := by
  cases e with
  | some e => simp
  | none => exact sendPixels_ne_refused

/-- Admission comes first in both forms, and past it neither is refused. -/
theorem startCommand_refused {i : Instr} {w : Byte} {o : Operands} {r : Refusal} (hdec : decode .cmd w o = .ok i)
    (h : exec i s = .refused r) : startCommand i s = .refused r := by
  obtain ⟨d, -, ⟨-, rfl⟩ | ⟨-, rfl⟩ | ⟨-, rfl⟩ | ⟨-, rfl⟩⟩ := decodeCmd_eq_ok hdec
  · exact h
  · exact admitHandle_refused_mono h fun h => admitRange_refused_mono h
      fun h => absurd h unlessFault_sendPixels_ne_refused
  · exact admitHandle_refused_mono h (by simp)
  · exact admitHandle_refused_mono h (by simp)

/-- A command that starts takes no input and no held request. -/
theorem startCommand_kept {i : Instr} (h : startCommand i s = .next t) :
    t.inputs = s.inputs ∧ t.heldIrq = s.heldIrq := by
  have delayed : ∀ n (u : State), (startDelay n u).inputs = u.inputs ∧ (startDelay n u).heldIrq = u.heldIrq := by
    intro n u
    obtain ⟨v, es, p, m, h, -⟩ := startDelay_frame n u
    rw [h]
    exact ⟨rfl, rfl⟩
  cases startCommand_started h with
  | executed t h =>
    obtain ⟨-, -, -, hin, hheld⟩ := exec_control h
    exact ⟨hin, hheld⟩
  | rose d base count u rs _ _ _ _ _ he =>
    have hin : u.inputs = s.inputs := by rw [he.frame]
    have hheld : u.heldIrq = s.heldIrq := by rw [he.frame]
    exact ⟨hin, hheld⟩
  | waiting d _ => exact delayed _ s
  | closing d _ _ => exact delayed _ (closeSession s)

/-! ### The machine's steps of a stepped command -/

theorem step_of_cmd {w : Byte} {rest : List Input} {i : Instr} (hp : s.seq.pos = .idle)
    (hirq : s.ie = false ∨ s.heldIrq = []) (hin : s.inputs = .cmd w :: rest) (hd : decode .cmd w s.ops = .ok i) :
    step s = chain (exec i (accepted w rest s)) (fun t => .next (retire t)) :=
  stepRunsTheDecodedCommand s w rest i hp hirq hin hd

theorem step_of_cmdByCycle {w : Byte} {rest : List Input} {i : Instr} (hp : s.seq.pos = .idle)
    (hirq : s.ie = false ∨ s.heldIrq = []) (hin : s.inputs = .cmdByCycle w :: rest) (hd : decode .cmd w s.ops = .ok i) :
    step s = settle (startCommand i (accepted w rest s)) :=
  (stepRunsASteppedCommand s hirq).1 w rest i hp hin hd

/-- Nothing is held, and no request is next: a step of a command in progress is a clock cycle. -/
def Undisturbed (s : State) : Prop := s.heldIrq = [] ∧ ∀ c n more, s.inputs ≠ .interrupt c n :: more

theorem startCommand_undisturbed {i : Instr} (hs : Undisturbed s) (h : startCommand i s = .next t) : Undisturbed t := by
  obtain ⟨hin, hheld⟩ := startCommand_kept h
  exact ⟨hheld.trans hs.1, by rw [hin]; exact hs.2⟩

/-- A command whose first step is `settle o`, and which runs from there to `t` cycle by cycle, is stepped to `t` and
retired. -/
theorem runSteps_of_cycles {o : Result State} {k : Nat} (hstep : step s = settle o)
    (hu : ∀ u, o = .next u → Undisturbed u) (hk : chain o (runCycles k) = .next t) (ht : t.seq.pos = .idle) :
    ∃ m, runSteps m s = .next (retire t) := by
  obtain ⟨u, rfl, hr⟩ := chain_eq_next.1 hk
  obtain ⟨hheld, hin⟩ := hu u rfl
  by_cases hq : u.seq.pos = .idle
  case pos =>
    obtain rfl : u = t := Host.Outcome.next.inj ((runCycles_idle k hq).symm.trans hr)
    exact ⟨1, by rw [runSteps_one, hstep, settle_idle hq]⟩
  case neg =>
    obtain ⟨m, hm⟩ := runSteps_next hq hheld hin hr ht
    exact ⟨m + 1, by rw [runSteps, hstep, settle_busy hq, chain_next, hm]⟩

/-- The same where the cycles end in a fault. -/
theorem runSteps_of_cycles_fault {o : Result State} {k : Nat} {f : Fault} (hstep : step s = settle o)
    (hu : ∀ u, o = .next u → Undisturbed u) (hk : chain o (runCycles k) = .fault f) : ∃ m, runSteps m s = .fault f := by
  obtain rfl | ⟨u, rfl, hr⟩ := chain_eq_fault.1 hk
  · exact ⟨1, by rw [runSteps_one, hstep, settle_fault]⟩
  · obtain ⟨hheld, hin⟩ := hu u rfl
    have hq : u.seq.pos ≠ .idle := fun hq => by
      rw [runCycles_idle k hq] at hr
      cases hr
    obtain ⟨m, hm⟩ := runSteps_fault hheld hin hr
    exact ⟨m + 1, by rw [runSteps, hstep, settle_busy hq, chain_next, hm]⟩

/-- Settles O58: both forms are refused alike by the decoder; a command that decodes is, stepped, what it is in one go
(log 14), with the same overheads around it. -/
theorem steppedCommandAgreesWithTheWholeOne : Obligations.SteppedCommandAgreesWithTheWholeOne := by
  unfold Obligations.SteppedCommandAgreesWithTheWholeOne
  intro s w rest hb hp hheld hrest
  cases hdec : decode .cmd w s.ops with
  | error e =>
    have hwhole : step { s with inputs := .cmd w :: rest } = .refused (.undecodable e) :=
      (step_of_input (s := { s with inputs := .cmd w :: rest }) hp (.inr hheld) rfl).trans (issue_of_decode_error hdec)
    have hstepped : step { s with inputs := .cmdByCycle w :: rest } = .refused (.undecodable e) :=
      (step_of_input (s := { s with inputs := .cmdByCycle w :: rest }) hp (.inr hheld) rfl).trans
        (issueByCycle_of_decode_error hdec)
    rw [hwhole, hstepped]
    exact ⟨by simp, by simp, fun r => id⟩
  | ok i =>
    have hwhole : step { s with inputs := .cmd w :: rest } =
        chain (exec i (accepted w rest s)) (fun t => .next (retire t)) :=
      step_of_cmd (s := { s with inputs := .cmd w :: rest }) hp (.inr hheld) rfl hdec
    have hstepped : step { s with inputs := .cmdByCycle w :: rest } = settle (startCommand i (accepted w rest s)) :=
      step_of_cmdByCycle (s := { s with inputs := .cmdByCycle w :: rest }) hp (.inr hheld) rfl hdec
    have hu : ∀ u, startCommand i (accepted w rest s) = .next u → Undisturbed u :=
      fun u => startCommand_undisturbed ⟨hheld, hrest⟩
    rw [hwhole]
    cases hexec : exec i (accepted w rest s) with
    | next v =>
      refine ⟨?_, by simp, by simp⟩
      rintro t ⟨⟩ hdraws
      obtain ⟨k, hk⟩ := stepped_command (s := accepted w rest s) hdec hb hp fun u hv => by
        rw [hexec] at hv
        cases hv
        exact Nat.succ.inj hdraws
      exact runSteps_of_cycles hstepped hu (hk.trans hexec) ((exec_pos hexec).trans hp)
    | fault f =>
      refine ⟨by simp, ?_, by simp⟩
      rintro _ ⟨⟩
      obtain ⟨k, hk⟩ := stepped_command (s := accepted w rest s) hdec hb hp (by simp [hexec])
      exact runSteps_of_cycles_fault hstepped hu (hk.trans hexec)
    | refused r =>
      refine ⟨by simp, by simp, ?_⟩
      rintro _ ⟨⟩
      rw [hstepped, startCommand_refused hdec hexec, settle_refused]

end Sys2Proof.Machine
end

section
/-! PROOFS. Transmission Session Control: what each of PREPARE (R201, R205), CLOSE (R202, R206) and WAIT_RESET (R203)
answers in either session state, and the statements about them (O14 to O17). -/

namespace Sys2Proof.Machine

variable {s : State} {d : Handle}

/-! ### One equation for each command and session state -/

theorem admitHandle_of_not_wf (hd : wfDev d = false) (go : Result State) :
    admitHandle d go = .refused .malformedHandle := by
  rw [admitHandle, hd]
  rfl

theorem exec_prepare_of_closed (hd : wfDev d = true) (ho : s.ses.isOpen = false) :
    exec (.prepare d) s = .next (openSession d s) := by
  rw [exec, execPrepare, admitHandle_of_wf hd, ho]
  rfl

theorem exec_prepare_of_open (hd : wfDev d = true) (ho : s.ses.isOpen = true) : exec (.prepare d) s = .next s := by
  rw [exec, execPrepare, admitHandle_of_wf hd, if_pos ho]

theorem exec_close_of_open (hd : wfDev d = true) (ho : s.ses.isOpen = true) :
    exec (.close d) s = .next (delay d.resetUs (closeSession s)) := by
  rw [exec, execClose, admitHandle_of_wf hd, if_pos ho]

theorem exec_close_of_closed (hd : wfDev d = true) (ho : s.ses.isOpen = false) : exec (.close d) s = .next s := by
  rw [exec, execClose, admitHandle_of_wf hd, ho]
  rfl

theorem exec_waitReset_of_wf (hd : wfDev d = true) : exec (.waitReset d) s = .next (delay d.resetUs s) := by
  rw [exec, execWaitReset, admitHandle_of_wf hd]

/-- PREPARE of a well-formed handle completes with the session open, whether it opened it or found it so. -/
theorem exec_prepare_opens (hd : wfDev d = true) (s : State) :
    ∃ t, exec (.prepare d) s = .next t ∧ t.ses.isOpen = true := by
  cases ho : s.ses.isOpen with
  | false => exact ⟨_, exec_prepare_of_closed hd ho, rfl⟩
  | true => exact ⟨s, exec_prepare_of_open hd ho, ho⟩

/-! ### The statements -/

/-- Settles O14: `openSession` is the save of R201 written out; `written` is the model's own note (log 10). -/
theorem prepareOpensTheSession : Obligations.PrepareOpensTheSession := by
  unfold Obligations.PrepareOpensTheSession
  intro s d
  exact ⟨exec_prepare_of_closed, exec_prepare_of_open, fun hd => admitHandle_of_not_wf hd _⟩

/-- Settles O15: after the first PREPARE the session is open, where a PREPARE does nothing and a CLOSE closes (R205). -/
theorem prepareTwiceIsPrepareOnce : Obligations.PrepareTwiceIsPrepareOnce := by
  unfold Obligations.PrepareTwiceIsPrepareOnce
  intro s d d' hd hd'
  obtain ⟨t, ht, ho⟩ := exec_prepare_opens hd s
  refine ⟨t, ht, exec_prepare_of_open hd' ho, ho, fun e he => ⟨_, exec_close_of_open he ho, ?_⟩⟩
  rw [delay_ses, closeSession_ses]

/-- Settles O16: the restore of R202 is `closeSession`, and the wait after it leaves the session alone. -/
theorem closeRestoresThenWaits : Obligations.CloseRestoresThenWaits := by
  unfold Obligations.CloseRestoresThenWaits
  intro s d
  refine ⟨fun hd ho => ?_, exec_close_of_closed, fun hd => admitHandle_of_not_wf hd _⟩
  have hwait : exec (.delayUs d.resetUs) (closeSession s) = .next (delay d.resetUs (closeSession s)) := rfl
  exact ⟨_, exec_close_of_open hd ho, hwait, delay_ses _ (closeSession s)⟩

/-- Settles O17: in either session state the answer is the delay, whose frame holds the session, the ports and the
memory. -/
theorem waitResetOnlyWaits : Obligations.WaitResetOnlyWaits := by
  unfold Obligations.WaitResetOnlyWaits
  intro s d hd
  exact ⟨_, exec_waitReset_of_wf hd, rfl, delay_ses _ s, delay_ports _ s, (grows_delay _ s).mem_eq⟩

end Sys2Proof.Machine
end

section
/-! PROOFS. The Microsecond Delay Primitive: how long it lasts (R231, R232, R234), what it leaves behind in each interrupt
mode (R235, R236), and what an interrupt does to a command that is stepped (R235, R253); the statements about them (O20 to
O23, O50). -/

namespace Sys2Proof.Machine

variable {s : State}

/-! ### The iteration count -/

theorem ceilDiv_le_iff {a b m : Nat} (hb : 1 ≤ b) : ceilDiv a b ≤ m ↔ a ≤ m * b := by
  rw [ceilDiv, Nat.div_le_iff_le_mul hb]
  omega

theorem iters_le_iff {c : Config} {n m : Nat} (hd : 1 ≤ c.delayIterCyc) :
    iters c n ≤ m ↔ n * c.fClk ≤ m * c.delayIterCyc * 1000000 := by
  rw [iters, ceilDiv_le_iff (by omega), Nat.mul_assoc, Nat.mul_comm 1000000]

/-- Settles O23: the count is a quotient rounded up, which is the least number that covers the dividend (R231). -/
theorem iterationCountIsLeast : Obligations.IterationCountIsLeast := by
  unfold Obligations.IterationCountIsLeast
  exact fun c n m => iters_le_iff

/-- The cycles of a delay without its draw cover the microseconds asked for. -/
theorem le_delayCycles (n : Nat) {c : Config} (hd : 1 ≤ c.delayIterCyc) : n * c.fClk ≤ delayCycles c n * 1000000 := by
  have hcover : n * c.fClk ≤ iters c n * c.delayIterCyc * 1000000 := (iters_le_iff hd).1 le_rfl
  exact hcover.trans (Nat.mul_le_mul_right _ (Nat.le_add_left ..))

/-- They exceed them by less than the overhead and one turn of the loop. -/
theorem delayCycles_lt (n : Nat) {c : Config} (hd : 1 ≤ c.delayIterCyc) :
    delayCycles c n * 1000000 < n * c.fClk + (c.delayOvh + c.delayIterCyc) * 1000000 := by
  have hround : iters c n * (1000000 * c.delayIterCyc) < n * c.fClk + 1000000 * c.delayIterCyc :=
    ceilDiv_mul_lt _ (by omega)
  rw [Nat.mul_left_comm] at hround
  unfold delayCycles
  omega

/-! ### The delay in closed form -/

/-- The loop of R230 written out: between `irq_enter()` and `irq_leave()` the delay's cycles pass, `SEQ.DLY` comes to 0, and
handlers may lengthen the wait. -/
theorem delay_eq (n : Nat) (s : State) :
    delay n s = irqLeave s.ie (stretchIfEnabled (loadDly 0 (wait (delayCycles s.cfg n) (irqEnter s)))) := by
  obtain ⟨v, es, henter, -⟩ := irqEnter_frame s
  rw [delay, henter]
  simp [delayLoop_eq, wait, loadDly, delayCycles, Nat.add_assoc]

theorem stretchIfEnabled_of_disabled (h : s.ie = false) : stretchIfEnabled s = s := by
  rw [stretchIfEnabled, h]
  rfl

theorem stretchIfEnabled_of_enabled (h : s.ie = true) : stretchIfEnabled s = drawWait s := if_pos h

/-- With interrupts disabled during the wait no handler lengthens it. -/
theorem delay_of_disabled (n : Nat) (hoff : s.cfg.irqMode ≠ .leaveAlone ∨ s.ie = false) :
    delay n s = irqLeave s.ie (loadDly 0 (wait (delayCycles s.cfg n) (irqEnter s))) := by
  rw [delay_eq, stretchIfEnabled_of_disabled (by exact irqEnter_ie_false hoff)]

/-- With interrupts enabled during the wait, which only the mode `none` lets happen, the draw of the handlers is added. -/
theorem delay_of_enabled (n : Nat) (hm : s.cfg.irqMode = .leaveAlone) (hie : s.ie = true) :
    delay n s = drawWait (loadDly 0 (wait (delayCycles s.cfg n) s)) := by
  rw [delay_eq, irqEnter_eq, if_pos hm, stretchIfEnabled_of_enabled (by exact hie), irqLeave_eq, if_pos (by exact hm)]

theorem exec_delayUs (n : Nat) (s : State) : exec (.delayUs n) s = .next (delay n s) := rfl

/-- Settles O20: with nothing drawn, what is left of the delay is its wait between the writes of `IE` of the mode (R236). -/
theorem delayLastsExactly : Obligations.DelayLastsExactly := by
  unfold Obligations.DelayLastsExactly
  intro s n
  rw [exec_delayUs]
  refine ⟨fun hm hie => ?_, fun hm => ?_, fun hm => ?_⟩
  · rw [delay_of_disabled n (.inr hie), irqEnter_eq, irqLeave_eq]
    simp [hm, wait, loadDly, delayCycles]
  · rw [delay_of_disabled n (.inl (by simp [hm])), irqEnter_eq, irqLeave_eq]
    simp [hm, wait, loadDly, delayCycles, writeIe, record]
  · rw [delay_of_disabled n (.inl (by simp [hm])), irqEnter_eq, irqLeave_eq]
    simp [hm, wait, loadDly, delayCycles, writeIe, record]

/-- Settles O21: the draw is the one thing that the handlers add to the wait (R235). -/
theorem interruptsOnlyLengthenTheDelay : Obligations.InterruptsOnlyLengthenTheDelay := by
  unfold Obligations.InterruptsOnlyLengthenTheDelay
  intro s n hm hie
  rw [exec_delayUs, delay_of_enabled n hm hie]
  rfl

/-! ### How long the delay lasts -/

theorem irqLeave_cycle (saved : Bool) (s : State) : (irqLeave saved s).cycle = s.cycle := by
  obtain ⟨v, es, h, -⟩ := irqLeave_frame saved s
  rw [h]

theorem delay_cycle_of_disabled (n : Nat) (hoff : s.cfg.irqMode ≠ .leaveAlone ∨ s.ie = false) :
    (delay n s).cycle = s.cycle + delayCycles s.cfg n := by
  obtain ⟨v, es, henter, -⟩ := irqEnter_frame s
  rw [delay_of_disabled n hoff, irqLeave_cycle, henter]
  rfl

theorem delay_cycle_of_enabled (n : Nat) (hm : s.cfg.irqMode = .leaveAlone) (hie : s.ie = true) :
    (delay n s).cycle = s.cycle + delayCycles s.cfg n + Config.draw s.draws := by
  rw [delay_of_enabled n hm hie]
  rfl

/-- Settles O22: the cycles passed are those of the wait and, where handlers may run, the draw; so they are never fewer than
the wait's, and no more where nothing is drawn. -/
theorem delayIsNeverShort : Obligations.DelayIsNeverShort := by
  unfold Obligations.DelayIsNeverShort
  intro s t n hd h
  obtain rfl : delay n s = t := Host.Outcome.next.inj h
  have hlow := le_delayCycles n hd
  have hhigh := delayCycles_lt n hd
  by_cases hoff : s.cfg.irqMode ≠ .leaveAlone ∨ s.ie = false
  · rw [delay_cycle_of_disabled n hoff, Nat.add_sub_cancel_left]
    exact ⟨hlow, fun _ => hhigh⟩
  · obtain ⟨hm, hie⟩ : s.cfg.irqMode = .leaveAlone ∧ s.ie = true := by simpa using hoff
    rw [delay_cycle_of_enabled n hm hie, Nat.add_assoc, Nat.add_sub_cancel_left]
    refine ⟨hlow.trans (Nat.mul_le_mul_right _ (Nat.le_add_right ..)), fun hnone => ?_⟩
    have hzero : Config.draw s.draws = 0 := by simpa [hm, hie] using hnone
    rwa [hzero]

/-! ### An interrupt while a command is stepped -/

section
variable {c n : Nat} {rest : List Input}

/-- The request at the head has come once its cycle is not in the future. -/
theorem arrivingRequest_of_come (hin : s.inputs = .interrupt c n :: rest) (hc : c ≤ s.cycle) :
    arrivingRequest s = some (n, { s with inputs := rest }) := by
  rw [arrivingRequest, hin]
  exact if_pos hc

/-- While a command is stepped and no held request is taken, a step takes or holds the request that has come. -/
theorem step_of_arriving (hp : s.seq.pos ≠ .idle) (h : s.ie = false ∨ s.heldIrq = [])
    (hin : s.inputs = .interrupt c n :: rest) (hc : c ≤ s.cycle) :
    step s = requestIrq n { s with inputs := rest } := by
  rw [step_busy hp h, stepBusy, arrivingRequest_of_come hin hc]

theorem requestIrq_of_enabled (hie : s.ie = true) : requestIrq n s = takeIrq n s := if_pos hie

theorem takeIrq_dly {rem : Nat} {saved : Bool} (hp : s.seq.pos = .dly rem saved) : takeIrq n s = .next (wait n s) := by
  rw [takeIrq, hp]

theorem takeIrq_tx {p : TxPos} (hp : s.seq.pos = .tx p) : takeIrq n s = .fault .sessionInterrupted := by
  rw [takeIrq, hp]

end

/-- Settles O50: the request that has come is taken by the step, and its handler does what R235 says of a delay and R253 of
a TRANSMIT. -/
theorem interruptDuringACommand : Obligations.InterruptDuringACommand := by
  unfold Obligations.InterruptDuringACommand
  intro s c n rest hie hheld hin hc
  have htake (hp : s.seq.pos ≠ .idle) : step s = takeIrq n { s with inputs := rest } := by
    rw [step_of_arriving hp (.inr hheld) hin hc, requestIrq_of_enabled (by exact hie)]
  refine ⟨fun rem x hp => ?_, fun p hp => ?_⟩
  · rw [htake (by simp [hp]), takeIrq_dly (by exact hp)]
    rfl
  · rw [htake (by simp [hp]), takeIrq_tx (by exact hp)]

end Sys2Proof.Machine
end

section
/-! PROOFS. Interrupts and the flag that masks them: which operations write `IE` (R236, R261; O44), that no run interrupts a
TRANSMIT where handlers run only while `IE = 1` (R253; O49), and what becomes of a request that is held (R263; O51). -/

namespace Sys2Proof.Machine

variable {s : State}

/-! ### The writers of `IE` -/

/-- Settles O44: of the cases of an operation only the opening, the closing and the delay write `IE`, and the delay puts it
back unless it enables interrupts itself. -/
theorem onlySessionAndDelayWriteIe : Obligations.OnlySessionAndDelayWriteIe := by
  unfold Obligations.OnlySessionAndDelayWriteIe
  intro i s t h
  cases exec_done h with
  | nothing => exact ⟨fun _ _ _ _ => rfl, fun _ _ _ => rfl⟩
  | opened d hi => exact ⟨fun hn => absurd hi (hn d), fun hn => absurd hi (hn d)⟩
  | closed d hi => exact ⟨fun _ hn => absurd hi (hn d), fun _ hn => absurd hi (hn d)⟩
  | waited n hi =>
    refine ⟨fun _ _ hwait hdelay => ?_, fun _ _ hm => delay_ie n hm⟩
    obtain ⟨d, hi, -⟩ | hi := hi
    · exact absurd hi (hwait d)
    · exact absurd hi (hdelay n)
  | emitted es rs t he => exact ⟨fun _ _ _ _ => he.ie_eq, fun _ _ _ => he.ie_eq⟩
  | answered o => exact ⟨fun _ _ _ _ => rfl, fun _ _ _ => rfl⟩

/-! ### No operation raises the fault of an interrupted TRANSMIT -/

theorem primitiveFault_ne_sessionInterrupted (s : State) : primitiveFault s ≠ some .sessionInterrupted := by
  unfold primitiveFault
  split
  · simp
  · split <;> simp

theorem transmitFault_ne_sessionInterrupted (s : State) : transmitFault s ≠ some .sessionInterrupted := by
  unfold transmitFault
  split
  · simp
  · split <;> simp

/-- Run or started, an operation raises the faults of its own checks only. -/
theorem operation_ne_sessionInterrupted {i : Instr} :
    ¬(exec i s = .fault .sessionInterrupted ∨ startCommand i s = .fault .sessionInterrupted) := by
  intro h
  obtain hf | ⟨hf, -⟩ | ⟨hf, -⟩ := h.elim exec_fault startCommand_fault
  · cases hf
  · exact primitiveFault_ne_sessionInterrupted s hf
  · exact transmitFault_ne_sessionInterrupted s hf

theorem tick_ne_sessionInterrupted (s : State) : tick s ≠ .fault .sessionInterrupted := by
  intro h
  obtain ⟨-, hf | hf⟩ := tick_fault h
  · cases hf
  · exact primitiveFault_ne_sessionInterrupted s hf

/-- While `op = TX` the invariant has interrupts disabled (R34 d). -/
theorem Inv.ie_of_tx {p : TxPos} (hs : Inv s) (hp : s.seq.pos = .tx p) : s.ie = false := by
  obtain ⟨-, -, -, -, -, -, hoff, -⟩ := (positionOk_tx hp).1 hs.position
  exact hoff

/-- Settles O49: only a handler inside a TRANSMIT raises the fault, a handler runs only with `IE = 1`, and the invariant has
`IE = 0` there; that no interrupt is unmaskable is log 19. -/
theorem transmitIsNeverInterrupted : Obligations.TransmitIsNeverInterrupted := by
  unfold Obligations.TransmitIsNeverInterrupted
  intro s hs hstep
  cases step_faulted hstep with
  | interrupted p hp hie =>
    rw [hs.ie_of_tx hp] at hie
    cases hie
  | cycled h => exact tick_ne_sessionInterrupted s h
  | commanded w rest i _ _ _ h => exact operation_ne_sessionInterrupted h
  | operated g w rest i _ _ _ h => exact operation_ne_sessionInterrupted (.inl h)

/-! ### Held requests -/

section
variable {c n : Nat} {held : List Nat}

theorem requestIrq_of_disabled (hie : s.ie = false) : requestIrq n s = .next (holdIrq n s) :=
  if_neg (by simp [hie])

/-- No time passes before a request whose cycle has come. -/
theorem waitUntil_of_come (hc : c ≤ s.cycle) : waitUntil c s = s := by
  rw [waitUntil, Nat.sub_eq_zero_of_le hc]
  rfl

/-- Outside a TRANSMIT a handler is time that passes. -/
theorem takeIrq_of_not_tx (hp : ∀ p, s.seq.pos ≠ .tx p) : takeIrq n s = .next (wait n s) := by
  unfold takeIrq
  split
  case h_1 p htx => exact absurd htx (hp p)
  all_goals rfl

/-- A request that has come is taken or held by the step, the core idle or a stepped command in progress. -/
theorem step_of_come {rest : List Input} (h : s.ie = false ∨ s.heldIrq = []) (hin : s.inputs = .interrupt c n :: rest)
    (hc : c ≤ s.cycle) : step s = requestIrq n { s with inputs := rest } := by
  by_cases hp : s.seq.pos = .idle
  · rw [step_of_input hp h hin, runInput, waitUntil_of_come (by exact hc)]
  · exact step_of_arriving hp h hin hc

/-- With `IE = 1` a step takes the oldest held request before anything else. -/
theorem step_of_held (hie : s.ie = true) (hheld : s.heldIrq = n :: held) :
    step s = takeIrq n { s with heldIrq := held } := by
  have hreq : heldRequest s = some (n, { s with heldIrq := held }) := by
    rw [heldRequest, hheld]
    exact if_pos hie
  rw [step, hreq]

end

/-- Settles O51: the step with `IE = 0` holds the request that has come, the step with `IE = 1` takes the oldest held one;
both are log 15's reading of R263. -/
theorem requestsAreHeldWhileDisabled : Obligations.RequestsAreHeldWhileDisabled := by
  unfold Obligations.RequestsAreHeldWhileDisabled
  intro s n rest held
  refine ⟨fun c hie hin hc => ?held, fun hie hheld hp => ?taken, fun p hie hheld hp => ?violated⟩
  case held =>
    rw [step_of_come (.inl hie) hin hc, requestIrq_of_disabled (by exact hie)]
    rfl
  case taken =>
    rw [step_of_held hie hheld, takeIrq_of_not_tx (by exact hp)]
    rfl
  case violated => rw [step_of_held hie hheld, takeIrq_tx (by exact hp)]

end Sys2Proof.Machine
end

section
/-! PROOFS. Where a run starts (R290, R291): what reset gives a value, and the invariant of every launched core. -/

namespace Sys2Proof.Machine

/-! ### Reset -/

/-- A byte of a pixel memory nothing was written to has no value (R67). -/
@[simp] theorem Memory.read_nil (a : Nat) : Memory.read [] a = none := rfl

/-- Settles O8: Table I1's values stand in `State.reset`, and its pixel memory lists no byte. -/
theorem resetLeavesWhatTableI1Gives : Obligations.ResetLeavesWhatTableI1Gives := by
  unfold Obligations.ResetLeavesWhatTableI1Gives
  exact ⟨rfl, rfl, rfl, rfl, rfl, rfl, Memory.read_nil⟩

/-! ### Launch -/

/-- No handle and zeros fit registers of every width. -/
theorem operandsFit_emptyOperands (c : Config) : operandsFit c emptyOperands = true :=
  operandsFit_iff.2 ⟨nofun, Nat.two_pow_pos _, Nat.two_pow_pos _, Nat.two_pow_pos _, Nat.two_pow_pos _⟩

/-- The session no PREPARE has written: its port 0 exists in every address width, and its masks are complements by the
model's choice of 0x00 and 0xFF (log 10). -/
theorem sessionOk_reset (c : Config) : sessionOk c State.reset.ses = true :=
  sessionOk_iff.2 ⟨Nat.two_pow_pos _, by decide, nofun⟩

theorem traceOrdered_of_nil {s : State} (h : s.trace = []) : traceOrdered s := by
  simp [traceOrdered, h]

/-- Whatever the parameters, reset meets the rest of the invariant; the build-time check is what the invariant asks of
them. -/
theorem inv_reset_of_buildable {c : Config} (h : buildable c = true) : Inv { State.reset with cfg := c } where
  config := h
  memory := rfl
  memInside := rfl
  ports := rfl
  portsInside := rfl
  operands := operandsFit_emptyOperands c
  session := sessionOk_reset c
  position := positionOk_idle rfl
  busy := rfl
  trace := traceOrdered_of_nil rfl

/-- Settles O9: a launched core is the reset state with buildable parameters, and `State.reset` is the launch of the
reference instance. The session's masks are complements at reset by the model's choice alone (log 10). -/
theorem launchMeetsTheInvariant : Obligations.LaunchMeetsTheInvariant := by
  unfold Obligations.LaunchMeetsTheInvariant
  have launched : ∀ c s, launch c = .ok s → Inv s := by
    intro c s h
    obtain ⟨rfl, hbuildable⟩ := (launch_eq_ok_iff c s).1 h
    exact inv_reset_of_buildable hbuildable
  exact ⟨launched Config.reference State.reset rfl, launched⟩

end Sys2Proof.Machine
end
